-- ==== Sys2Proof/Word.lean ====
section
/-! DEFINITION. The word types of the block and the small records its formats are made of
(00_scope.md R9; 10_state.md R42, R44, R45). -/

namespace Sys2Proof

/-- A byte: 8 bits (00_scope.md R9). -/
abbrev Byte := BitVec 8

/-- A word: 16 bits (00_scope.md R9). -/
abbrev Half := BitVec 16

/-- A colour: three bytes in the order R, G, B (20_memory.md R62). -/
structure Colour where
  r : Byte
  g : Byte
  b : Byte
  deriving DecidableEq, Repr

/-- A pair `(lowByte, highByte)`, the unit of the expanded word stream (10_state.md R44). -/
structure Pair where
  lo : Byte
  hi : Byte
  deriving DecidableEq, Repr

/-- A building placement `(buildingId, xCharPosition, paletteCode)` (10_state.md R45). -/
structure Placement where
  id  : Byte
  x   : Byte
  pal : Byte
  deriving DecidableEq, Repr

/-- What the attribute-word codec answers (40_attribute_word.md R130): an 11-bit tile code, two
flips and a palette index of 0 to 3. -/
structure Decoded where
  code : BitVec 11
  xf   : BitVec 1
  yf   : BitVec 1
  pal  : BitVec 2
  deriving DecidableEq, Repr

/-- The four values a level entry gives (44_level_descriptor.md R191). -/
structure LevelFields where
  bg  : BitVec 4
  ter : Byte
  fol : Byte
  ptr : Half
  deriving DecidableEq, Repr

end Sys2Proof
end

