-- ==== Sys2Proof/Config.lean ====
section
/-! DEFINITION. What an implementation fixes: the format constants of 00_scope.md R7, each under the
spec's name, and the constants without a body that stand for what the spec leaves open. -/

namespace Sys2Proof.Config

/-! ## Format constants (00_scope.md R7, 10_state.md R32) -/

/-- `CANVAS_W`, `CANVAS_H`: canvas size in pixels. -/
def canvasW : Nat := 256
def canvasH : Nat := 240

/-- `GRID_COLS`, `GRID_ROWS`: canvas size in 8×8 cells. -/
def gridCols : Nat := 32
def gridRows : Nat := 30

def levelBase : Nat := 0x8DAE
def levelStride : Nat := 10
def levelMax : Nat := 132
def bgBase : Nat := 0x8934
def bgStride : Nat := 2
def bgEntries : Nat := 16
def terBase : Nat := 0x8928
def terStride : Nat := 1
def terSelMax : Nat := 10
def folBase : Nat := 0x95AA
def folStride : Nat := 2
/-- `FOL_VALID`: the selectors that name a foliage block. -/
def folValid : List Nat := [0, 2, 4, 6, 8]
def bldBase : Nat := 0x95B6
def bldStride : Nat := 2
def skyOff : Nat := 0x7613
def skyPairs : Nat := 64
def bgRow0 : Nat := 3
def terRow0 : Nat := 29
def skyRow0 : Nat := 0

/-- The default of `CANVAS_INIT` (log 9). -/
def canvasInitDefault : Colour := ⟨0, 0, 0⟩

/-- The value the spec takes for `MAGENTA` (log 10). -/
def magentaDefault : Colour := ⟨255, 0, 255⟩

/-! ## What the spec leaves open -/

/-- A free byte of the canvas at address `a` that nothing has written since the canvas last became
unspecified, for the `era`-th time (93_implementation_defined.md U3; logs 3, 7, 8). -/
opaque anyCanvasByte : (era a : Nat) → Byte

/-- A free byte of `BLIST` at address `a`, as above (93_implementation_defined.md U5; log 8). -/
opaque anyBlistByte : (era a : Nat) → Byte

/-- A free byte of `EWS` beyond the stream decoded last, byte `a mod 2` of pair `a div 2` (log 3). -/
opaque anyEwsByte : (era a : Nat) → Byte

/-- `LEVEL_ENTRY_DECODE` (30_encoding.md R96; log 12): the index of the byte whose high nibble is
`BGSEL`, the one property the source fixes. -/
opaque levelBgIndex : Fin 10

/-- `LEVEL_ENTRY_DECODE`: the terrain selector from the ten bytes (log 12). -/
opaque levelTer : List Byte → Byte

/-- `LEVEL_ENTRY_DECODE`: the foliage selector from the ten bytes (log 12). -/
opaque levelFol : List Byte → Byte

/-- `LEVEL_ENTRY_DECODE`: the index of the low byte of the building-list pointer; its high byte follows
(20_memory.md R60, decision D22; log 12). -/
opaque levelPtrIndex : Fin 9

end Sys2Proof.Config
end

