-- ==== Sys2Proof/Syntax.lean ====
section
/-! DEFINITION. The encoded things of the block (30_encoding.md R90): the five formats and ONE
inductive with a constructor for each row of spec/opcode_table.json. A constructor carries the
fields of the byte (or word) that selects the row; the bytes that follow it in `ROM` are read by its
meaning, where the spec tests that they exist (log 19). -/

namespace Sys2Proof

/-- The formats of the opcode table (30_encoding.md R115). -/
inductive Format where
  /-- attribute word, 16 bits (R91) -/
  | aw
  /-- run-length stream item, selected by its control byte (R93) -/
  | rle
  /-- building-list record, selected by its first byte (R97) -/
  | blr
  /-- building tile-word form, selected by the mode byte (R99) -/
  | bld
  /-- operation, selected by the value written to `OP` (R113) -/
  | op
  deriving DecidableEq, Repr

/-- One constructor per row of the opcode table. -/
inductive Instr where
  /-- `AW` (R91): `code[10]`, `rawPal`, `yFlip`, `xFlip`, `code[9:0]`; bit 15 is in no field. -/
  | aw (high : BitVec 1) (rawPal : BitVec 2) (yFlip xFlip : BitVec 1) (low : BitVec 10)
  /-- `END` (R152) -/
  | endItem
  /-- `LIT n` (R154) -/
  | lit (n : BitVec 7)
  /-- `RUN n` (R153) -/
  | run (n : BitVec 7)
  /-- `BEND` (R193) -/
  | bend
  /-- `BSKIP`, markers `0xFA`, `0xFB` (R194) -/
  | bskipLow (m : BitVec 1)
  /-- `BSKIP`, markers `0xFC`, `0xFD` (R194) -/
  | bskipHigh (m : BitVec 1)
  /-- `BREC` (R195): the first byte is the building id. -/
  | brec (id : Byte)
  /-- `TW16` (R99, R219): mode byte `0xFF`, two bytes a tile. -/
  | tw16
  /-- `TW8` (R99, R219): any other mode byte, one byte a tile. -/
  | tw8 (mode : Byte)
  /-- select code `0x01` (R131) -/
  | awdec
  /-- select code `0x02` (R141) -/
  | samp8
  /-- select code `0x03` (R144) -/
  | samp32
  /-- select code `0x04` (R151) -/
  | rld
  /-- select code `0x05` (R172) -/
  | rsvlvl
  /-- select code `0x06` (R173) -/
  | rsvbg
  /-- select code `0x07` (R174) -/
  | rsvter
  /-- select code `0x08` (R175) -/
  | rsvfol
  /-- select code `0x09` (R176) -/
  | rsvbld
  /-- select code `0x0A` (R190) -/
  | ldlvl
  /-- select code `0x0B` (R212) -/
  | paint8
  /-- select code `0x0C` (R210) -/
  | clear
  /-- select code `0x10` (R214) -/
  | drawbg
  /-- select code `0x11` (R215) -/
  | drawsky
  /-- select code `0x12` (R216) -/
  | drawfol
  /-- select code `0x13` (R217) -/
  | drawbld
  /-- select code `0x14` (R220) -/
  | drawter
  /-- select code `0x1E` (R222) -/
  | composed
  /-- select code `0x1F` (R221) -/
  | compose
  /-- any other select code (R114) -/
  | badop (v : Byte)
  deriving DecidableEq, Repr

/-- The format whose decoder reads the row. -/
def Instr.format : Instr → Format
  | .aw _ _ _ _ _ => .aw
  | .endItem => .rle
  | .lit _ => .rle
  | .run _ => .rle
  | .bend => .blr
  | .bskipLow _ => .blr
  | .bskipHigh _ => .blr
  | .brec _ => .blr
  | .tw16 => .bld
  | .tw8 _ => .bld
  | .awdec => .op
  | .samp8 => .op
  | .samp32 => .op
  | .rld => .op
  | .rsvlvl => .op
  | .rsvbg => .op
  | .rsvter => .op
  | .rsvfol => .op
  | .rsvbld => .op
  | .ldlvl => .op
  | .paint8 => .op
  | .clear => .op
  | .drawbg => .op
  | .drawsky => .op
  | .drawfol => .op
  | .drawbld => .op
  | .drawter => .op
  | .composed => .op
  | .compose => .op
  | .badop _ => .op

end Sys2Proof
end

