-- ==== Sys2Proof/Machine/State.lean ====
section
/-! DEFINITION. The state of the block as plain data: every register of 10_state.md, the six address
spaces, the parameters of the instance, the host accesses not yet served and the cursors of the
single-item decoders; and the state after reset. -/

namespace Sys2Proof.Machine

/-! ## Outcomes, causes and anomalies -/

/-- Outcome codes 0 to 4 of `STATUS` and `LSTAT[i]` (10_state.md R27); codes 5 to 7 are never
produced and have no term (log 20). -/
inductive OpOutcome where
  | ok
  | partialEnd
  | skipped
  | rejected
  | badOp
  deriving DecidableEq, Repr

/-- Causes of a rejection, codes 0 to 3 of `REJCAUSE` (10_state.md R28). -/
inductive RejCause where
  | none
  | badLevel
  | emptyBank
  | contract
  deriving DecidableEq, Repr

/-- The four anomalies, bits 0 to 3 of `ANOM` (10_state.md R29). -/
inductive Anomaly where
  | trunc
  | badSel
  | badTile
  | badPal
  deriving DecidableEq, Repr

/-! ## Memories -/

/-- A byte buffer the host loads (`ROM`, `TILE`, the palette): its length, and its bytes as a list of
(address, byte) in one canonical form, an unlisted address below the length holding `0x00`. -/
structure Buffer where
  len   : Nat
  cells : List Host.Cell
  deriving DecidableEq, Repr

/-- The canvas (10_state.md R43) at its byte addresses `(y·256 + x)·3 + c`. `base` is the colour an
unlisted pixel has: `none` until the first clear (unspecified, R50), then the colour cleared to. -/
structure Canvas where
  base  : Option Colour
  cells : List Host.Cell
  deriving DecidableEq, Repr

/-- The parameters of an instance (00_scope.md R7) that no step writes: `CANVAS_INIT` (log 9),
`MAGENTA` (log 10), and `BLD_ROW_FN` as the list of the arguments `(h, r)` where it departs from the
default expression, with its value there (log 11). -/
structure Params where
  canvasInit : Colour
  magenta    : Colour
  bldRows    : List ((Nat × Nat) × Int)
  deriving DecidableEq, Repr

/-- What the painter reads: the three input memories and the parameters. -/
structure Env where
  rom  : Buffer
  tile : Buffer
  pal  : Buffer
  par  : Params
  deriving DecidableEq, Repr

/-- What the painter writes: the canvas and the anomaly flags. -/
structure Surface where
  canvas : Canvas
  anom   : BitVec 4
  deriving DecidableEq, Repr

/-! ## Cursors of the item decoders -/

/-- The local variables of `RLD` (42_rle_decompressor.md R150): `p`, `pairs`, `outcome`, and whether
the stream has stopped. -/
structure RleCursor where
  pos     : Nat
  pairs   : List Pair
  outcome : OpOutcome
  ended   : Bool
  deriving DecidableEq, Repr

/-- The local variables of `READLIST` (44_level_descriptor.md R192): `q`, `list`, `outcome`, and
whether the list has stopped. -/
structure ListCursor where
  pos     : Nat
  list    : List Placement
  outcome : OpOutcome
  ended   : Bool
  deriving DecidableEq, Repr

/-- The building that `DRAWONE` has located (45_compositor.md R218): its descriptor's offset, the
placement's x position and palette code, whether its body has been handled, and whether it was
painted (else skipped). -/
structure BuildCursor where
  off     : Nat
  x       : Byte
  palCode : Byte
  painted : Bool
  ended   : Bool
  deriving DecidableEq, Repr

/-- The attribute word being decoded: the address of its low byte, and what the codec answered last
(40_attribute_word.md R130). -/
structure WordCursor where
  pos     : Nat
  decoded : Decoded
  deriving DecidableEq, Repr

/-- Which decoder fetches next: the command interface, or one of the item decoders (log 4). -/
inductive FetchSite where
  | command
  | stream
  | list
  | building
  | word
  deriving DecidableEq, Repr

/-! ## Registers by number, and the host's accesses -/

/-- The numbered registers of 10_state.md R21, R23, R26 to R32. -/
inductive Reg where
  | op | status | rejCause | anom | lstat1 | lstat2 | lstat3 | lstat4 | lstat5
  | word | code | xf | yf | pali | tx | ty | nib | px | py
  | cur | base | consumed | ewsn | sel | off
  | lvl | bgsel | tersel | folsel | blptr | nbld
  | levelBase | levelStride | levelMax | bgBase | bgStride | bgEntries | terBase | terStride
  | terSelMax | folBase | folStride | bldBase | bldStride | skyOff | skyPairs | bgRow0 | terRow0
  | skyRow0 | totalLevels | ntiles
  deriving DecidableEq, Repr

/-- One access of the host, served between operations (10_state.md R20, R22). -/
inductive HostAccess where
  /-- write the bits `v` to the register numbered `n`; number 0 is `OP` and starts an operation -/
  | write (n v : Nat)
  /-- read the register numbered `n` -/
  | read (n : Nat)
  /-- write byte `a mod 3` of triple `a div 3` of `BLIST` -/
  | writeBlist (a : Nat) (b : Byte)
  /-- read byte `a mod 3` of triple `a div 3` of `BLIST` -/
  | readBlist (a : Nat)
  /-- read pair `k` of `EWS` as a word -/
  | readEws (k : Nat)
  /-- read the byte of `CANVAS` at linear address `a` (10_state.md R43) -/
  | readCanvas (a : Nat)
  /-- load the ROM binary, the tile bank or the palette buffer (70_reset_and_hazards.md R282) -/
  | loadRom (bytes : List Byte)
  | loadTile (bytes : List Byte)
  | loadPal (bytes : List Byte)
  /-- apply reset (70_reset_and_hazards.md R280) -/
  | reset
  deriving DecidableEq, Repr

/-! ## The state -/

/-- Everything the spec gives the machine, and the model's own fields (INVENTORY.md lists them). -/
structure State where
  /-- `STATUS` (R26) -/
  status : OpOutcome
  /-- `REJCAUSE` (R28) -/
  rejCause : RejCause
  /-- `ANOM` (R29) -/
  anom : BitVec 4
  /-- `LSTAT[1]`, background (R30) -/
  lstat1 : OpOutcome
  /-- `LSTAT[2]`, sky -/
  lstat2 : OpOutcome
  /-- `LSTAT[3]`, foliage -/
  lstat3 : OpOutcome
  /-- `LSTAT[4]`, buildings -/
  lstat4 : OpOutcome
  /-- `LSTAT[5]`, terrain -/
  lstat5 : OpOutcome
  /-- `WORD` (R21) -/
  word : Half
  /-- `CODE` -/
  code : BitVec 11
  /-- `XF` -/
  xf : BitVec 1
  /-- `YF` -/
  yf : BitVec 1
  /-- `PALI`, two's complement -/
  pali : BitVec 5
  /-- `TX` -/
  tx : BitVec 5
  /-- `TY` -/
  ty : BitVec 5
  /-- `NIB` -/
  nib : BitVec 4
  /-- `PX`, two's complement -/
  px : BitVec 13
  /-- `PY`, two's complement -/
  py : BitVec 13
  /-- `CUR` (R24), `ADDR_W` bits, held as a natural number (log 13) -/
  cur : Nat
  /-- `BASE` -/
  base : Nat
  /-- `CONSUMED` (R25) -/
  consumed : Nat
  /-- `SEL` -/
  sel : Byte
  /-- `OFF` -/
  off : Half
  /-- `LVL` (R31) -/
  lvl : Byte
  /-- `BGSEL` -/
  bgsel : BitVec 4
  /-- `TERSEL` -/
  tersel : Byte
  /-- `FOLSEL` -/
  folsel : Byte
  /-- `BLPTR` -/
  blptr : Half
  /-- `NBLD`, an unbounded natural -/
  nbld : Nat
  /-- `ROM` (R40) -/
  rom : Buffer
  /-- `TILE` (R41) -/
  tile : Buffer
  /-- the palette buffer of `PAL` (R42) -/
  pal : Buffer
  /-- `CANVAS` (R43) -/
  canvas : Canvas
  /-- `EWS` (R44); its length is `EWSN` -/
  ews : List Pair
  /-- `BLIST` (R45) at byte addresses `3·i + k`; an unlisted byte holds no value -/
  blist : List Host.Cell
  /-- the parameters of the instance (00_scope.md R7) -/
  par : Params
  /-- the model's own: host accesses not yet served, oldest first (log 1) -/
  bus : List HostAccess
  /-- the model's own: what the last host read answered (log 3) -/
  hostData : Int
  /-- the model's own: which decoder fetches next (log 4) -/
  site : FetchSite
  /-- the model's own: cursor of the run-length item decoder (log 4) -/
  rle : RleCursor
  /-- the model's own: cursor of the building-list record decoder (log 4) -/
  blr : ListCursor
  /-- the model's own: cursor of the building tile-word decoder (log 4) -/
  bld : BuildCursor
  /-- the model's own: cursor of the attribute-word decoder (log 4) -/
  aww : WordCursor
  /-- the model's own: how often the canvas has become unspecified (log 8) -/
  canvasEra : Nat
  /-- the model's own: how often `EWS` has been replaced (log 8) -/
  ewsEra : Nat
  /-- the model's own: how often `BLIST` has been replaced (log 8) -/
  blistEra : Nat
  deriving DecidableEq, Repr

/-- What a fetch answers: an instruction with the state it runs in, or a state in which nothing had
to be run. -/
inductive Fetched where
  | run (i : Instr) (s : State)
  | done (s : State)
  deriving DecidableEq, Repr

/-- Reasons to stop with a fault: none. "Nothing in this block is treated as `fault` or `stuck`"
(93_implementation_defined.md), so the type has no constructor (log 24). -/
inductive Fault where
  deriving DecidableEq, Repr

/-- Reasons to refuse an instruction. -/
inductive Refusal where
  /-- Raised by an arm of `exec` whose instruction has no meaning yet; safe: the machine stops. No arm
  raises it. -/
  | notModelled (mnemonic : String)
  deriving DecidableEq, Repr

/-! ## Reset -/

/-- A buffer with nothing loaded (log 6). -/
def Buffer.empty : Buffer := { len := 0, cells := [] }

/-- The run-length cursor at an address, nothing produced (42_rle_decompressor.md R150). -/
def RleCursor.start (a : Nat) : RleCursor :=
  { pos := a, pairs := [], outcome := .ok, ended := false }

/-- The list cursor at an address, nothing produced (44_level_descriptor.md R192). -/
def ListCursor.start (a : Nat) : ListCursor :=
  { pos := a, list := [], outcome := .ok, ended := false }

/-- The spec's defaults of the parameters (logs 9, 10, 11). -/
def Params.default : Params :=
  { canvasInit := Config.canvasInitDefault, magenta := Config.magentaDefault, bldRows := [] }

/-- The machine right after reset (10_state.md R50; 70_reset_and_hazards.md R280): every register 0
or `OK`, `EWS` and `BLIST` empty, the canvas unspecified, and the input memories as before the host
has loaded anything (log 6). -/
def State.reset : State :=
  { status := .ok, rejCause := .none, anom := 0
    lstat1 := .ok, lstat2 := .ok, lstat3 := .ok, lstat4 := .ok, lstat5 := .ok
    word := 0, code := 0, xf := 0, yf := 0, pali := 0, tx := 0, ty := 0, nib := 0, px := 0, py := 0
    cur := 0, base := 0, consumed := 0, sel := 0, off := 0
    lvl := 0, bgsel := 0, tersel := 0, folsel := 0, blptr := 0, nbld := 0
    rom := Buffer.empty, tile := Buffer.empty, pal := Buffer.empty
    canvas := { base := none, cells := [] }
    ews := [], blist := []
    par := Params.default
    bus := [], hostData := 0, site := .command
    rle := RleCursor.start 0
    blr := ListCursor.start 0
    bld := { off := 0, x := 0, palCode := 0, painted := false, ended := false }
    aww := { pos := 0, decoded := { code := 0, xf := 0, yf := 0, pal := 0 } }
    canvasEra := 0, ewsEra := 0, blistEra := 0 }

end Sys2Proof.Machine
end

