-- ==== Sys2Proof/Machine/Flags.lean ====
section
/-! DEFINITION. The codes of the outcome registers, the bits of `ANOM`, and the rules that compute an
outcome (10_state.md R27 to R30; 45_compositor.md R215, R217, R221, R225). -/

namespace Sys2Proof.Machine

/-- The code of an outcome in `STATUS` and `LSTAT[i]` (10_state.md R27). -/
def OpOutcome.code : OpOutcome → Nat
  | .ok => 0
  | .partialEnd => 1
  | .skipped => 2
  | .rejected => 3
  | .badOp => 4

/-- The code of a cause in `REJCAUSE` (10_state.md R28). -/
def RejCause.code : RejCause → Nat
  | .none => 0
  | .badLevel => 1
  | .emptyBank => 2
  | .contract => 3

/-- The bit of an anomaly in `ANOM` (10_state.md R29, 60_exceptions.md R251). -/
def Anomaly.bit : Anomaly → BitVec 4
  | .trunc => 0b0001
  | .badSel => 0b0010
  | .badTile => 0b0100
  | .badPal => 0b1000

/-- Setting an anomaly's bit; the others stay (10_state.md R29: "An operation only ever sets bits"). -/
def raiseBit (anom : BitVec 4) (a : Anomaly) : BitVec 4 := anom ||| a.bit

/-- Raise `TRUNC` if the outcome is `PARTIAL` (42_rle_decompressor.md R151; 44_level_descriptor.md
R190; 45_compositor.md R214, R220). -/
def raiseIfPartial (anom : BitVec 4) : OpOutcome → BitVec 4
  | .partialEnd => raiseBit anom .trunc
  | .ok => anom
  | .skipped => anom
  | .rejected => anom
  | .badOp => anom

/-- `STATUS` of `COMPOSE` and `COMPOSED`: `OK` if no anomaly bit is set (45_compositor.md R221). -/
def finalOutcome (anom : BitVec 4) : OpOutcome := if anom = 0 then .ok else .partialEnd

/-- Outcome of the sky strip from the number of pairs its stream gave (45_compositor.md R215). -/
def skyOutcome (nPairs : Nat) : OpOutcome :=
  if nPairs < Config.skyPairs then .partialEnd else .ok

/-- Outcome of the buildings layer from the number of buildings skipped (45_compositor.md R217). -/
def buildingsOutcome (nSkipped : Nat) : OpOutcome := if nSkipped = 0 then .ok else .partialEnd

end Sys2Proof.Machine
end

