-- ==== Sys2Proof/Machine/Operands.lean ====
section
/-! DEFINITION. Every value a rule assembles from stored bits (30_encoding.md R104): attribute words,
tile-word forms, palette indices, flips, cells and positions, the level entry, and the widths of the
host's accesses. -/

namespace Sys2Proof.Machine

/-! ## Attribute words -/

/-- `AWD(w)` (40_attribute_word.md R130), in the source's shifts and masks. -/
def awd (w : Half) : Decoded :=
  { code := ((w &&& 0x03FF#16) ||| ((w >>> 4) &&& 0x0400#16)).setWidth 11
    xf := (w >>> 10).setWidth 1
    yf := (w >>> 11).setWidth 1
    pal := (3#16 - ((w >>> 12) &&& 0x03#16)).setWidth 2 }

/-- The codec's answer from the fields of format AW (30_encoding.md R91): `code` is bit 14 above
bits 9:0, the palette selector is stored inverted. -/
def fieldsDecoded (h : BitVec 1) (p : BitVec 2) (y x : BitVec 1) (l : BitVec 10) : Decoded :=
  { code := h ++ l, xf := x, yf := y, pal := 3 - p }

/-- The word a pair spells (30_encoding.md R104): `lowByte | (highByte << 8)`. -/
def pairWord (p : Pair) : Half := p.hi ++ p.lo

/-- A pair as the decompressor emits it: the framing bits of the high byte dropped
(30_encoding.md R92). -/
def maskPair (p : Pair) : Pair := { lo := p.lo, hi := p.hi &&& 0x3F }

/-! ## Building tiles -/

/-- Bytes per tile: 2 for mode `0xFF`, else 1 (30_encoding.md R99). -/
def bytesPerTile (m : Byte) : Nat := if m = 0xFF then 2 else 1

/-- Declared size of a building: its header and its tile words (45_compositor.md R218). -/
def buildingSize (m w h : Byte) : Nat := 3 + bytesPerTile m * w.toNat * h.toNat

/-- The `TW8` word: the mode byte above the tile's byte (30_encoding.md R99). -/
def tw8Word (m b : Byte) : Half := m ++ b

/-- A building's palette index: 3 − the high nibble of its palette code, −12 to 3
(45_compositor.md R219). -/
def buildingPal (pc : Byte) : Int := 3 - ((pc >>> 4).toNat : Int)

/-- `BLD_ROW_FN(h, r)`: the parameter's value where it departs from the default, else the source's
expression `28 − h − r − 1` (45_compositor.md R219; log 11). -/
def bldRow (par : Params) (h r : Nat) : Int :=
  match par.bldRows.find? (fun e => e.1 = (h, r)) with
  | some e => e.2
  | none => 28 - (h : Int) - (r : Int) - 1

/-! ## Tiles, cells and colours -/

/-- A coordinate mirrored in a tile whose last coordinate is `last`, if the flip flag is set
(41_tile_sampler.md R140, R143). -/
def mirror (last : Nat) (f : BitVec 1) (x : Nat) : Nat := if f = 1 then last - x else x

/-- The nibble of a tile byte: high for an even column, low for an odd one (20_memory.md R61). -/
def nibbleOf (b : Byte) (x : Nat) : BitVec 4 :=
  if x % 2 = 0 then b.extractLsb' 4 4 else b.extractLsb' 0 4

/-- Component `c` of a colour: 0 R, 1 G, 2 B (10_state.md R43). -/
def channel (col : Colour) : Nat → Byte
  | 0 => col.r
  | 1 => col.g
  | _ => col.b

/-- Linear address of component 0 of a pixel (10_state.md R43). -/
def pixelAddr (x y : Nat) : Nat := (y * Config.canvasW + x) * 3

/-- Number of addresses of the canvas. -/
def canvasBytes : Nat := Config.canvasW * Config.canvasH * 3

/-- Rows of a foliage block and the tile row it starts at (00_scope.md R7; 45_compositor.md R216). -/
def folRows (sel : Byte) : Nat := if sel.toNat ≤ 4 then 3 else 2
def folRow0 (sel : Byte) : Nat := if sel.toNat ≤ 4 then 26 else 27

/-! ## Level entry -/

/-- `LEVEL_ENTRY_DECODE` (30_encoding.md R96, decision D20): one of the ten bytes has `BGSEL` for its high
nibble, and two adjacent ones are the list pointer, low byte at the lower address (20_memory.md R60,
decision D22). Which ones, and how the other selectors are formed, is open. That the pointer's two bytes
are adjacent is DEDUCED (log 12). -/
def levelEntryDecode (e : List Byte) : LevelFields :=
  { bg := (e.getD Config.levelBgIndex.val 0).extractLsb' 4 4
    ter := Config.levelTer e
    fol := Config.levelFol e
    ptr :=
      pairWord
        { lo := e.getD Config.levelPtrIndex.val 0, hi := e.getD (Config.levelPtrIndex.val + 1) 0 } }

/-! ## Sizes derived from the memories (00_scope.md R7) -/

/-- `NTILES`. -/
def nTiles (tile : Buffer) : Nat := tile.len / 32

/-- `NTILES32`. -/
def nTiles32 (tile : Buffer) : Nat := tile.len / 512

/-- `PAL_LEN`. -/
def palLen (pal : Buffer) : Nat := pal.len / 3

/-- `TOTAL_LEVELS`: the entries that lie wholly inside the ROM, at most 132. -/
def totalLevels (rom : Buffer) : Nat :=
  min Config.levelMax ((rom.len - Config.levelBase) / Config.levelStride)

/-- Number of bits of a natural number. -/
def bitLength (n : Nat) : Nat := if n = 0 then 0 else n.log2 + 1

/-- `ADDR_W`, `max(18, ceil(log2(ROM_LEN + 1)))` (10_state.md R21). -/
def addrW (rom : Buffer) : Nat := max 18 (bitLength rom.len)

end Sys2Proof.Machine
end

