-- ==== Sys2Proof/Machine/Ops.lean ====
section
/-! DEFINITION. The named operations over memories and registers: cells in canonical form, reads of
the input memories, the canvas, raising an anomaly and rejecting an operation. -/

namespace Sys2Proof.Machine

/-! ## Cells -/

/-- The byte listed at an address. -/
def cellsGet : List Host.Cell → Nat → Option Byte
  | [], _ => none
  | c :: cs, a => if c.1 = a then some c.2 else cellsGet cs a

/-- List byte `v` at address `a`, unless it is the byte `bg` that an unlisted `a` reads as; then `a`
is not listed. -/
def cellsPut (bg : Option Byte) (a : Nat) (v : Byte) : List Host.Cell → List Host.Cell
  | [] => if bg = some v then [] else [(a, v)]
  | c :: cs =>
    if a < c.1 then (if bg = some v then c :: cs else (a, v) :: c :: cs)
    else if a = c.1 then (if bg = some v then cs else (a, v) :: cs)
    else c :: cellsPut bg a v cs

/-- Addresses strictly rise and all lie at or above `lo`. -/
def cellsRise : Nat → List Host.Cell → Bool
  | _, [] => true
  | lo, c :: cs => decide (lo ≤ c.1) && cellsRise (c.1 + 1) cs

/-! ## Input memories (10_state.md R40 to R42; 20_memory.md R64) -/

/-- The byte of a buffer at an address below its length. -/
def Buffer.at (b : Buffer) (a : Nat) : Byte := (cellsGet b.cells a).getD 0

/-- `MemRead(a, 1)` (00_scope.md R10). -/
def Buffer.read (b : Buffer) (a : Nat) : Option Byte := if a < b.len then some (b.at a) else none

/-- The two bytes of `MemRead(a, 2)`, lower address first; both must lie below the length
(00_scope.md R10). -/
def Buffer.readPair (b : Buffer) (a : Nat) : Option Pair :=
  if a + 1 < b.len then some { lo := b.at a, hi := b.at (a + 1) } else none

/-- `MemRead(a, 2)`: little-endian (20_memory.md R60, R63). -/
def Buffer.readWord (b : Buffer) (a : Nat) : Option Half := (b.readPair a).map pairWord

/-- The canonical form of a buffer: addresses strictly rise below the length and no byte `0x00` is
listed. -/
def Buffer.wf (b : Buffer) : Bool :=
  cellsRise 0 b.cells && b.cells.all (fun c => decide (c.1 < b.len) && c.2 != 0)

/-- The cells of a list of bytes from an address on. -/
def cellsOf : Nat → List Byte → List Host.Cell
  | _, [] => []
  | a, v :: vs => if v = 0 then cellsOf (a + 1) vs else (a, v) :: cellsOf (a + 1) vs

/-- The buffer that holds a list of bytes (70_reset_and_hazards.md R282). -/
def Buffer.ofBytes (bytes : List Byte) : Buffer :=
  { len := bytes.length, cells := cellsOf 0 bytes }

/-- Place bytes at an address, the buffer grown to hold them. -/
def Buffer.place (b : Buffer) (a : Nat) : List Byte → Buffer
  | [] => b
  | v :: vs =>
    Buffer.place { len := max b.len (a + 1), cells := cellsPut (some 0) a v b.cells } (a + 1) vs

/-- Palette entry `i` (10_state.md R42): bytes `3i`, `3i+1`, `3i+2` in the order R, G, B; none at or
beyond `PAL_LEN`, or below 0. -/
def palEntry (pal : Buffer) (o : Int) : Option Colour :=
  if 0 ≤ o ∧ o < palLen pal then
    some { r := pal.at (3 * o.toNat), g := pal.at (3 * o.toNat + 1), b := pal.at (3 * o.toNat + 2) }
  else none

/-! ## Canvas (10_state.md R43) -/

/-- What an unlisted address of the canvas reads as: nothing before the first clear, then the
component of the colour cleared to. -/
def Canvas.unlisted (c : Canvas) (a : Nat) : Option Byte := c.base.map (fun col => channel col (a % 3))

/-- The byte of the canvas at a linear address, if it holds one. -/
def Canvas.get (c : Canvas) (a : Nat) : Option Byte :=
  match cellsGet c.cells a with
  | some v => some v
  | none => c.unlisted a

/-- Store one byte of the canvas. -/
def Canvas.put (c : Canvas) (a : Nat) (v : Byte) : Canvas :=
  { base := c.base, cells := cellsPut (c.unlisted a) a v c.cells }

/-- `CANVAS[y][x] <- colour`: the three bytes of one pixel (20_memory.md R64). -/
def Canvas.setPixel (c : Canvas) (x y : Nat) (col : Colour) : Canvas :=
  ((c.put (pixelAddr x y) col.r).put (pixelAddr x y + 1) col.g).put (pixelAddr x y + 2) col.b

/-- `CANVAS[y][x]`, if its three bytes hold values. -/
def Canvas.pixel (c : Canvas) (x y : Nat) : Option Colour :=
  match c.get (pixelAddr x y), c.get (pixelAddr x y + 1), c.get (pixelAddr x y + 2) with
  | some r, some g, some b => some { r := r, g := g, b := b }
  | _, _, _ => none

/-- Every pixel at one colour (45_compositor.md R210). -/
def Canvas.filled (col : Colour) : Canvas := { base := some col, cells := [] }

/-- The canonical form of the canvas: addresses strictly rise inside the canvas and no byte equal to
what its unlisted address reads as is listed. -/
def Canvas.wf (c : Canvas) : Bool :=
  cellsRise 0 c.cells && c.cells.all (fun e => decide (e.1 < canvasBytes) && c.unlisted e.1 != some e.2)

/-! ## Building placement list (10_state.md R45) -/

/-- The canonical form of `BLIST`: an unlisted byte holds no value, so only the order is asked. -/
def blistWf (cells : List Host.Cell) : Bool := cellsRise 0 cells

/-- The cells of a list of triples from triple `i` on, byte `k` of triple `i` at address `3·i + k`. -/
def blistCells : Nat → List Placement → List Host.Cell
  | _, [] => []
  | i, p :: ps => (3 * i, p.id) :: (3 * i + 1, p.x) :: (3 * i + 2, p.pal) :: blistCells (i + 1) ps

/-- A byte of `BLIST`: the one written there, else a free value, the same at every read until the list is
replaced (93_implementation_defined.md U5; 20_memory.md R64; log 8). -/
def blistByte (cells : List Host.Cell) (era a : Nat) : Byte :=
  (cellsGet cells a).getD (Config.anyBlistByte era a)

/-- Triple `i` of `BLIST`. -/
def blistAt (cells : List Host.Cell) (era i : Nat) : Placement :=
  { id := blistByte cells era (3 * i)
    x := blistByte cells era (3 * i + 1)
    pal := blistByte cells era (3 * i + 2) }

/-! ## Raising and rejecting (60_exceptions.md R250 to R256) -/

/-- `raise a`: one bit of `ANOM` and nothing else (60_exceptions.md R253). -/
def Surface.raise (f : Surface) (a : Anomaly) : Surface :=
  { canvas := f.canvas, anom := raiseBit f.anom a }

/-- `raise a` by an operation. -/
def State.raise (s : State) (a : Anomaly) : State := { s with anom := raiseBit s.anom a }

/-- `reject cause` (60_exceptions.md R256): `STATUS` and `REJCAUSE`, and nothing else. The block has
no other exception entry, and no return from one (R258). -/
def State.reject (s : State) (cause : RejCause) : State :=
  { s with status := .rejected, rejCause := cause }

/-! ## Views of the state -/

/-- What the painter reads. -/
def State.env (s : State) : Env := { rom := s.rom, tile := s.tile, pal := s.pal, par := s.par }

/-- What the painter writes. -/
def State.surface (s : State) : Surface := { canvas := s.canvas, anom := s.anom }

/-- The state with the painter's result. -/
def State.withSurface (s : State) (f : Surface) : State :=
  { s with canvas := f.canvas, anom := f.anom }

/-- `EWSN`: the number of pairs in `EWS` (10_state.md R21; log 15). -/
def State.ewsn (s : State) : Nat := s.ews.length

end Sys2Proof.Machine
end

