-- ==== Sys2Proof/Machine/BadOp.lean ====
section
/-! DEFINITION. A select code that selects nothing (30_encoding.md R114; 60_exceptions.md R257). -/

namespace Sys2Proof.Machine

/-- `BADOP` (R114): `STATUS <- BADOP`, and nothing else changes, whatever the value. -/
def execBadop (_v : Byte) (s : State) : Host.Outcome State Fault Refusal :=
  .next { s with status := .badOp }

end Sys2Proof.Machine
end

