-- ==== Sys2Proof/Machine/Codec.lean ====
section
/-! DEFINITION. The attribute-word decoder (40_attribute_word.md). -/

namespace Sys2Proof.Machine

/-- `AW` (R130; 30_encoding.md R91): the codec's answer for one attribute word read at the word
cursor. No register is written (10_state.md R22); the cursor passes the word's two bytes
(logs 4, 18). -/
def execAw (h : BitVec 1) (p : BitVec 2) (y x : BitVec 1) (l : BitVec 10) (s : State) :
    Host.Outcome State Fault Refusal :=
  .next { s with aww := { pos := s.aww.pos + 2, decoded := fieldsDecoded h p y x l } }

/-- `AWDEC` (R131). -/
def execAwdec (s : State) : Host.Outcome State Fault Refusal :=
  .next
    { s with
      code := (awd s.word).code
      xf := (awd s.word).xf
      yf := (awd s.word).yf
      pali := (awd s.word).pal.setWidth 5
      status := .ok }

end Sys2Proof.Machine
end

