-- ==== Sys2Proof/WellFormed.lean ====
section
/-! DEFINITION. Which terms of `Instr` a decoder of the spec can answer: the rows that the earlier
rows of their format cut short (30_encoding.md R115). -/

namespace Sys2Proof

/-- The select codes of 30_encoding.md R113. -/
def selectCodes : List Byte :=
  [0x01, 0x02, 0x03, 0x04, 0x05, 0x06, 0x07, 0x08, 0x09, 0x0A, 0x0B, 0x0C,
   0x10, 0x11, 0x12, 0x13, 0x14, 0x1E, 0x1F]

/-- The first bytes of the building list that are no building id (30_encoding.md R97). -/
def listMarks : List Byte := [0xFA, 0xFB, 0xFC, 0xFD, 0xFF]

/-- `RUN 0` is `END`, a marked first byte is no `BREC`, mode `0xFF` is `TW16`, a select code is no
`BADOP`; every other term is well-formed. -/
def Instr.wf : Instr → Bool
  | .aw _ _ _ _ _ => true
  | .endItem => true
  | .lit _ => true
  | .run n => n != 0
  | .bend => true
  | .bskipLow _ => true
  | .bskipHigh _ => true
  | .brec id => !listMarks.contains id
  | .tw16 => true
  | .tw8 m => m != 0xFF
  | .awdec => true
  | .samp8 => true
  | .samp32 => true
  | .rld => true
  | .rsvlvl => true
  | .rsvbg => true
  | .rsvter => true
  | .rsvfol => true
  | .rsvbld => true
  | .ldlvl => true
  | .paint8 => true
  | .clear => true
  | .drawbg => true
  | .drawsky => true
  | .drawfol => true
  | .drawbld => true
  | .drawter => true
  | .composed => true
  | .compose => true
  | .badop v => !selectCodes.contains v

end Sys2Proof
end

