-- ==== Sys2Proof/Decode.lean ====
section
/-! DEFINITION. The decoder, total on any bytes, written as the spec's table of rows
(30_encoding.md R115: within a format the rows are tested in order and the first whose
`byte & mask` is its value is taken), and after it the encoder. -/

namespace Sys2Proof

/-- A row of the opcode table for a format selected by one byte. -/
structure Row where
  mask  : Byte
  value : Byte
  make  : Byte → Instr

/-- Run-length items (30_encoding.md R93). -/
def rleRows : List Row :=
  [⟨0xFF, 0x00, fun _ => .endItem⟩,
   ⟨0x80, 0x80, fun c => .lit (c.setWidth 7)⟩,
   ⟨0x80, 0x00, fun c => .run (c.setWidth 7)⟩]

/-- Building-list records (30_encoding.md R97). -/
def blrRows : List Row :=
  [⟨0xFF, 0xFF, fun _ => .bend⟩,
   ⟨0xFE, 0xFA, fun c => .bskipLow (c.setWidth 1)⟩,
   ⟨0xFE, 0xFC, fun c => .bskipHigh (c.setWidth 1)⟩,
   ⟨0x00, 0x00, fun c => .brec c⟩]

/-- Building tile-word forms (30_encoding.md R99). -/
def bldRows : List Row :=
  [⟨0xFF, 0xFF, fun _ => .tw16⟩,
   ⟨0x00, 0x00, fun c => .tw8 c⟩]

/-- Operation-select codes (30_encoding.md R113, R114). -/
def opRows : List Row :=
  [⟨0xFF, 0x01, fun _ => .awdec⟩,
   ⟨0xFF, 0x02, fun _ => .samp8⟩,
   ⟨0xFF, 0x03, fun _ => .samp32⟩,
   ⟨0xFF, 0x04, fun _ => .rld⟩,
   ⟨0xFF, 0x05, fun _ => .rsvlvl⟩,
   ⟨0xFF, 0x06, fun _ => .rsvbg⟩,
   ⟨0xFF, 0x07, fun _ => .rsvter⟩,
   ⟨0xFF, 0x08, fun _ => .rsvfol⟩,
   ⟨0xFF, 0x09, fun _ => .rsvbld⟩,
   ⟨0xFF, 0x0A, fun _ => .ldlvl⟩,
   ⟨0xFF, 0x0B, fun _ => .paint8⟩,
   ⟨0xFF, 0x0C, fun _ => .clear⟩,
   ⟨0xFF, 0x10, fun _ => .drawbg⟩,
   ⟨0xFF, 0x11, fun _ => .drawsky⟩,
   ⟨0xFF, 0x12, fun _ => .drawfol⟩,
   ⟨0xFF, 0x13, fun _ => .drawbld⟩,
   ⟨0xFF, 0x14, fun _ => .drawter⟩,
   ⟨0xFF, 0x1E, fun _ => .composed⟩,
   ⟨0xFF, 0x1F, fun _ => .compose⟩,
   ⟨0x00, 0x00, fun v => .badop v⟩]

/-- The instruction of the first row that the byte falls under. -/
def firstRow : List Row → Byte → Option Instr
  | [], _ => none
  | r :: rs, c => if c &&& r.mask = r.value then some (r.make c) else firstRow rs c

/-- The fields of an attribute word (30_encoding.md R91); bit 15 is in none. -/
def decodeWord (w : Half) : Instr :=
  .aw (w.extractLsb' 14 1) (w.extractLsb' 12 2) (w.extractLsb' 11 1) (w.extractLsb' 10 1)
    (w.extractLsb' 0 10)

/-- What the decoder answers: an instruction and the bytes after the ones it was decoded from, or a
rejection by name. -/
inductive DecodeResult where
  | ok (i : Instr) (rest : List Byte)
  /-- there is no byte to decode -/
  | noByte
  /-- an attribute word needs two bytes and only one is there -/
  | halfWord
  /-- the byte falls under no row of its format (no byte does) -/
  | noRow
  deriving DecidableEq, Repr

/-- Decode by a table of rows. -/
def decodeByte (rows : List Row) : List Byte → DecodeResult
  | [] => .noByte
  | c :: rest =>
    match firstRow rows c with
    | some i => .ok i rest
    | none => .noRow

/-- The decoder of a format. An attribute word is stored low byte first (30_encoding.md R92). -/
def decode : Format → List Byte → DecodeResult
  | .aw, [] => .noByte
  | .aw, [_] => .halfWord
  | .aw, lo :: hi :: rest => .ok (decodeWord (hi ++ lo)) rest
  | .rle, bs => decodeByte rleRows bs
  | .blr, bs => decodeByte blrRows bs
  | .bld, bs => decodeByte bldRows bs
  | .op, bs => decodeByte opRows bs

/-- The bytes that select an instruction, in the order of their addresses; written from the patterns
of spec/opcode_table.json, bit 15 of an attribute word, which the rules ignore, as 0 (DESIGN CHOICE,
log 25). -/
def encode : Instr → List Byte
  | .aw h p y x l =>
    let w : Half := 0#1 ++ h ++ p ++ y ++ x ++ l
    [w.extractLsb' 0 8, w.extractLsb' 8 8]
  | .endItem => [0x00]
  | .lit n => [1#1 ++ n]
  | .run n => [0#1 ++ n]
  | .bend => [0xFF]
  | .bskipLow m => [0b1111101#7 ++ m]
  | .bskipHigh m => [0b1111110#7 ++ m]
  | .brec id => [id]
  | .tw16 => [0xFF]
  | .tw8 m => [m]
  | .awdec => [0x01]
  | .samp8 => [0x02]
  | .samp32 => [0x03]
  | .rld => [0x04]
  | .rsvlvl => [0x05]
  | .rsvbg => [0x06]
  | .rsvter => [0x07]
  | .rsvfol => [0x08]
  | .rsvbld => [0x09]
  | .ldlvl => [0x0A]
  | .paint8 => [0x0B]
  | .clear => [0x0C]
  | .drawbg => [0x10]
  | .drawsky => [0x11]
  | .drawfol => [0x12]
  | .drawbld => [0x13]
  | .drawter => [0x14]
  | .composed => [0x1E]
  | .compose => [0x1F]
  | .badop v => [v]

/-- The formats of the table share byte values and a table word carries no format. A 16-bit word is
an attribute word; a byte is read as an operation if it is a select code, else as a building-list
record if it is one of the list's marks, else as a run-length item (DESIGN CHOICE, log 5). -/
def tableFormat (nbits w : Nat) : Option Format :=
  if nbits = 16 then some .aw
  else if nbits = 8 then
    if selectCodes.contains (BitVec.ofNat 8 w) then some .op
    else if listMarks.contains (BitVec.ofNat 8 w) then some .blr
    else some .rle
  else none

/-- The first two bytes of an instruction whose bits are `w`, lowest address first. -/
def tableBytes (w : Nat) : List Byte := [BitVec.ofNat 8 w, BitVec.ofNat 8 (w / 256)]

/-- The instruction the decoder reads from a word of the opcode table. -/
def decodeTableWord (nbits w : Nat) : Option Instr :=
  match tableFormat nbits w with
  | none => none
  | some f =>
    match decode f (tableBytes w) with
    | .ok i _ => some i
    | .noByte => none
    | .halfWord => none
    | .noRow => none

end Sys2Proof
end

