-- ==== Sys2Proof/Machine/Decompressor.lean ====
section
/-! DEFINITION. The run-length decompressor (42_rle_decompressor.md): the three items as steps of a
cursor (R159), the function `RLD(a)` as their iteration (R150), and the operation (R151). -/

namespace Sys2Proof.Machine

/-! ## Items -/

/-- `END` (R152): the control byte is passed and the stream stops. -/
def rleEnd (r : RleCursor) : RleCursor := { r with pos := r.pos + 1, ended := true }

/-- A stop inside an item (R155): the outcome is `PARTIAL`. -/
def rleCut (r : RleCursor) : RleCursor := { r with outcome := .partialEnd, ended := true }

/-- `RUN n` (R153): one pair, emitted `n` times. -/
def rleRun (rom : Buffer) (n : Nat) (r : RleCursor) : RleCursor :=
  match rom.readPair (r.pos + 1) with
  | none => rleCut { r with pos := r.pos + 1 }
  | some p => { r with pos := r.pos + 3, pairs := r.pairs ++ List.replicate n (maskPair p) }

/-- The pairs of a `LIT` (R154), read one after another until `n` are read or one is cut. -/
def rlePairs (rom : Buffer) : (n : Nat) → RleCursor → RleCursor
  | 0, r => r
  | n + 1, r =>
    match rom.readPair r.pos with
    | none => rleCut r
    | some p => rlePairs rom n { r with pos := r.pos + 2, pairs := r.pairs ++ [maskPair p] }

/-- `LIT n` (R154). -/
def rleLit (rom : Buffer) (n : Nat) (r : RleCursor) : RleCursor :=
  rlePairs rom n { r with pos := r.pos + 1 }

/-- No byte remains where a control byte is due (R155): the stream stops, its outcome unchanged. -/
def rleExhausted (r : RleCursor) : RleCursor := { r with ended := true }

/-! ## The function -/

/-- One pass of the loop of R150: the control byte at the cursor selects the item. -/
def rleItem (rom : Buffer) (r : RleCursor) : RleCursor :=
  match rom.read r.pos with
  | none => rleExhausted r
  | some c =>
    if c = 0x00 then rleEnd r
    else if c &&& 0x80 ≠ 0 then rleLit rom (c &&& 0x7F).toNat r
    else rleRun rom c.toNat r

/-- The loop of R150, at most `fuel` passes. -/
def rleLoop (rom : Buffer) : (fuel : Nat) → RleCursor → RleCursor
  | 0, r => r
  | fuel + 1, r => if r.ended then r else rleLoop rom fuel (rleItem rom r)

/-- `RLD(a)` (R150) as the cursor it leaves. Every pass stops or advances by at least one byte and none
begins beyond the ROM's end, so `ROM_LEN + 1` passes always suffice. -/
def rld (rom : Buffer) (a : Nat) : RleCursor := rleLoop rom (rom.len + 1) (RleCursor.start a)

/-! ## The operation -/

/-- The registers after `RLD` (R151), from the cursor the function leaves; `EWS` is replaced, so what lies
beyond it is free anew (log 8). -/
def State.decompressed (s : State) (r : RleCursor) : State :=
  { s with
    base := s.cur
    ews := r.pairs
    ewsEra := s.ewsEra + 1
    cur := r.pos
    consumed := r.pos - s.cur
    anom := raiseIfPartial s.anom r.outcome
    status := r.outcome }

/-- `RLD` (R151). -/
def execRld (s : State) : Host.Outcome State Fault Refusal :=
  .next (s.decompressed (rld s.rom s.cur))

/-! ## The items as instructions (R159) -/

/-- `END` (R152) at the stream cursor. -/
def execEndItem (s : State) : Host.Outcome State Fault Refusal := .next { s with rle := rleEnd s.rle }

/-- `LIT n` (R154) at the stream cursor. -/
def execLit (n : BitVec 7) (s : State) : Host.Outcome State Fault Refusal :=
  .next { s with rle := rleLit s.rom n.toNat s.rle }

/-- `RUN n` (R153) at the stream cursor. -/
def execRun (n : BitVec 7) (s : State) : Host.Outcome State Fault Refusal :=
  .next { s with rle := rleRun s.rom n.toNat s.rle }

end Sys2Proof.Machine
end

