-- ==== Sys2Proof/Machine/LevelReader.lean ====
section
/-! DEFINITION. The level-descriptor reader (44_level_descriptor.md): the building-list records as
steps of a cursor, `READLIST` as their iteration (R192), `READLEVEL` (R191) and the operation
(R190). -/

namespace Sys2Proof.Machine

/-! ## Records -/

/-- `BEND` (R193): the list ends. -/
def listEnd (r : ListCursor) : ListCursor := { r with ended := true }

/-- A stop for any other reason (R196): `PARTIAL`, what was read whole is kept. -/
def listCut (r : ListCursor) : ListCursor := { r with outcome := .partialEnd, ended := true }

/-- `BSKIP` (R194): two bytes passed, nothing added. -/
def listSkip (rom : Buffer) (r : ListCursor) : ListCursor :=
  if rom.len < r.pos + 2 then listCut r else { r with pos := r.pos + 2 }

/-- `BREC` (R195) whose first byte is `id`: three bytes, one triple. -/
def listRecord (rom : Buffer) (id : Byte) (r : ListCursor) : ListCursor :=
  if rom.len < r.pos + 3 then listCut r
  else
    { r with
      pos := r.pos + 3
      list := r.list ++ [{ id := id, x := rom.at (r.pos + 1), pal := rom.at (r.pos + 2) }] }

/-! ## The functions -/

/-- One pass of the loop of R192: the first byte at the cursor selects the record. -/
def listItem (rom : Buffer) (r : ListCursor) : ListCursor :=
  match rom.read r.pos with
  | none => listCut r
  | some b0 =>
    if b0 = 0xFF then listEnd r
    else if b0 = 0xFA ∨ b0 = 0xFB ∨ b0 = 0xFC ∨ b0 = 0xFD then listSkip rom r
    else listRecord rom b0 r

/-- The loop of R192, at most `fuel` passes. -/
def listLoop (rom : Buffer) : (fuel : Nat) → ListCursor → ListCursor
  | 0, r => r
  | fuel + 1, r => if r.ended then r else listLoop rom fuel (listItem rom r)

/-- `READLIST(p)` (R192) as the cursor it leaves. Every pass stops or advances by at least two bytes
and none begins beyond the ROM's end, so `ROM_LEN + 1` passes always suffice. -/
def readList (rom : Buffer) (p : Nat) : ListCursor := listLoop rom (rom.len + 1) (ListCursor.start p)

/-- The ten bytes of level entry `n` (R191). -/
def levelEntry (rom : Buffer) (n : Nat) : List Byte :=
  (List.range Config.levelStride).map
    (fun i => rom.at (Config.levelBase + Config.levelStride * n + i))

/-- The descriptor registers after `READLEVEL` (R190, R191, R221): the entry's fields, the list read
from the entry's pointer (the previous list discarded: bytes beyond it are free anew, log 8), `TRUNC` if
it was cut. `dec` is `LEVEL_ENTRY_DECODE`. -/
def State.loadLevel (s : State) (dec : List Byte → LevelFields) (n : Nat) : State :=
  let d := dec (levelEntry s.rom n)
  let r := readList s.rom d.ptr.toNat
  { s with
    bgsel := d.bg
    tersel := d.ter
    folsel := d.fol
    blptr := d.ptr
    blist := blistCells 0 r.list
    blistEra := s.blistEra + 1
    nbld := r.list.length
    anom := raiseIfPartial s.anom r.outcome }

/-- The outcome of `READLEVEL` (R191): that of its list. -/
def levelOutcome (rom : Buffer) (dec : List Byte → LevelFields) (n : Nat) : OpOutcome :=
  (readList rom (dec (levelEntry rom n)).ptr.toNat).outcome

/-- `LDLVL` (R190). -/
def execLdlvl (s : State) : Host.Outcome State Fault Refusal :=
  .next
    (if totalLevels s.rom ≤ s.lvl.toNat then s.reject .badLevel
     else
      { s.loadLevel levelEntryDecode s.lvl.toNat with
        status := levelOutcome s.rom levelEntryDecode s.lvl.toNat })

/-! ## The records as instructions -/

/-- `BEND` (R193) at the list cursor. -/
def execBend (s : State) : Host.Outcome State Fault Refusal := .next { s with blr := listEnd s.blr }

/-- `BSKIP` (R194), markers `0xFA`, `0xFB`, at the list cursor. The marker's value is not used. -/
def execBskipLow (_m : BitVec 1) (s : State) : Host.Outcome State Fault Refusal :=
  .next { s with blr := listSkip s.rom s.blr }

/-- `BSKIP` (R194), markers `0xFC`, `0xFD`, at the list cursor. The marker's value is not used. -/
def execBskipHigh (_m : BitVec 1) (s : State) : Host.Outcome State Fault Refusal :=
  .next { s with blr := listSkip s.rom s.blr }

/-- `BREC` (R195) at the list cursor. -/
def execBrec (id : Byte) (s : State) : Host.Outcome State Fault Refusal :=
  .next { s with blr := listRecord s.rom id s.blr }

end Sys2Proof.Machine
end

