-- ==== Sys2Proof/Machine/Resolver.lean ====
section
/-! DEFINITION. The pointer-table resolver (43_pointer_tables.md). -/

namespace Sys2Proof.Machine

/-- What `RESOLVE` returns (R171). -/
inductive Resolved where
  | found (off : Nat)
  | skip (cause : Anomaly)
  deriving DecidableEq, Repr

/-- `ENTRY(B, S, s)` (R170). -/
def tableEntry (rom : Buffer) (b stride s : Nat) : Option Half := rom.readWord (b + s * stride)

/-- `RESOLVE(B, S, s, valid)` (R171), `valid` being the outcome of the table's selector test, which a
negative selector never passes. -/
def resolve (rom : Buffer) (b stride : Nat) (s : Int) (valid : Bool) : Resolved :=
  if valid = false then .skip .badSel
  else
    match tableEntry rom b stride s.toNat with
    | none => .skip .trunc
    | some e => if rom.len ≤ e.toNat then .skip .badSel else .found e.toNat

/-- The background table (R173). -/
def resolveBg (rom : Buffer) (s : Nat) : Resolved :=
  resolve rom Config.bgBase Config.bgStride s (decide (s < Config.bgEntries))

/-- The terrain table (R174): stride 1. -/
def resolveTer (rom : Buffer) (s : Nat) : Resolved :=
  resolve rom Config.terBase Config.terStride s (decide (s ≤ Config.terSelMax))

/-- The foliage table (R175). -/
def resolveFol (rom : Buffer) (s : Nat) : Resolved :=
  resolve rom Config.folBase Config.folStride s (Config.folValid.contains s)

/-- The building table (R176), from a building id: the selector is `id − 1`. -/
def resolveBld (rom : Buffer) (id : Nat) : Resolved :=
  resolve rom Config.bldBase Config.bldStride ((id : Int) - 1) (decide (0 ≤ (id : Int) - 1))

/-- What the resolving operations do with `RESOLVE`'s answer (R179). -/
def State.resolved (s : State) : Resolved → State
  | .found off => { s with off := BitVec.ofNat 16 off, status := .ok }
  | .skip cause => { s.raise cause with status := .skipped }

/-- `RSVLVL` (R172): the entry's address, nothing read. -/
def execRsvlvl (s : State) : Host.Outcome State Fault Refusal :=
  .next
    (if totalLevels s.rom ≤ s.sel.toNat then s.reject .badLevel
     else
      { s with
        off := BitVec.ofNat 16 (Config.levelBase + s.sel.toNat * Config.levelStride)
        status := .ok })

/-- `RSVBG` (R173). -/
def execRsvbg (s : State) : Host.Outcome State Fault Refusal :=
  .next (s.resolved (resolveBg s.rom s.sel.toNat))

/-- `RSVTER` (R174). -/
def execRsvter (s : State) : Host.Outcome State Fault Refusal :=
  .next (s.resolved (resolveTer s.rom s.sel.toNat))

/-- `RSVFOL` (R175). -/
def execRsvfol (s : State) : Host.Outcome State Fault Refusal :=
  .next (s.resolved (resolveFol s.rom s.sel.toNat))

/-- `RSVBLD` (R176): `SEL` holds the building id. -/
def execRsvbld (s : State) : Host.Outcome State Fault Refusal :=
  .next (s.resolved (resolveBld s.rom s.sel.toNat))

end Sys2Proof.Machine
end

