-- ==== Sys2Proof/Machine/Sampler.lean ====
section
/-! DEFINITION. The tile-bitmap samplers (41_tile_sampler.md). -/

namespace Sys2Proof.Machine

/-- The pixel at column `x`, row `y` of the tile whose bytes start at `a`, `rowBytes` bytes a row
(30_encoding.md R101, R102). -/
def tileNibble (tile : Buffer) (a rowBytes x y : Nat) : BitVec 4 :=
  nibbleOf (tile.at (a + y * rowBytes + x / 2)) x

/-- `SAMPLE8(t, x, y, xf, yf)` (R140); no value outside its domain (R145). -/
def sample8 (tile : Buffer) (t x y : Nat) (xf yf : BitVec 1) : Option (BitVec 4) :=
  if t < nTiles tile ∧ x < 8 ∧ y < 8 then
    some (tileNibble tile (32 * t) 4 (mirror 7 xf x) (mirror 7 yf y))
  else none

/-- `SAMPLE32(t, x, y, xf, yf)` (R143); no value outside its domain (R145). -/
def sample32 (tile : Buffer) (t x y : Nat) (xf yf : BitVec 1) : Option (BitVec 4) :=
  if t < nTiles32 tile ∧ x < 32 ∧ y < 32 then
    some (tileNibble tile (512 * t) 16 (mirror 31 xf x) (mirror 31 yf y))
  else none

/-- What both sampling operations do with the sampler's answer (R141, R144, R145): the colour index
into `NIB`, or `CONTRACT`. -/
def State.sampled (s : State) : Option (BitVec 4) → State
  | some n => { s with nib := n, status := .ok }
  | none => s.reject .contract

/-- `SAMP8` (R141). -/
def execSamp8 (s : State) : Host.Outcome State Fault Refusal :=
  .next (s.sampled (sample8 s.tile s.code.toNat s.tx.toNat s.ty.toNat s.xf s.yf))

/-- `SAMP32` (R144). -/
def execSamp32 (s : State) : Host.Outcome State Fault Refusal :=
  .next (s.sampled (sample32 s.tile s.code.toNat s.tx.toNat s.ty.toNat s.xf s.yf))

end Sys2Proof.Machine
end

