-- ==== Sys2Proof/Machine/Compositor.lean ====
section
/-! DEFINITION. The layer compositor (45_compositor.md): painting a tile, a grid of words, a building;
the five layers; compositing a level. -/

namespace Sys2Proof.Machine

/-! ## Painting -/

/-- Pixel `(tx, ty)` of a tile painted at `(px, py)` (R211): clipped first, then sampled, then looked
up; a lookup outside the palette paints `MAGENTA` and raises `BADPAL`. -/
def paintPixel (e : Env) (code : BitVec 11) (xf yf : BitVec 1) (pal px py : Int) (tx ty : Nat)
    (f : Surface) : Surface :=
  let x := px + tx
  let y := py + ty
  if 0 ≤ x ∧ x < Config.canvasW ∧ 0 ≤ y ∧ y < Config.canvasH then
    match sample8 e.tile code.toNat tx ty xf yf with
    | none => f
    | some ci =>
      match palEntry e.pal (pal * 16 + (ci.toNat : Int)) with
      | some col => { f with canvas := f.canvas.setPixel x.toNat y.toNat col }
      | none =>
        { canvas := f.canvas.setPixel x.toNat y.toNat e.par.magenta
          anom := raiseBit f.anom .badPal }
  else f

/-- The 64 pixels of a tile as `(tx, ty)`, row by row (R211). -/
def tilePixels : List (Nat × Nat) :=
  (List.range 8).flatMap (fun ty => (List.range 8).map (fun tx => (tx, ty)))

/-- `PAINT(code, xf, yf, pal, px, py)` (R211): a tile code at or beyond `NTILES` paints nothing and
raises `BADTILE`. -/
def paint (e : Env) (code : BitVec 11) (xf yf : BitVec 1) (pal px py : Int) (f : Surface) : Surface :=
  if nTiles e.tile ≤ code.toNat then f.raise .badTile
  else tilePixels.foldl (fun g t => paintPixel e code xf yf pal px py t.1 t.2 g) f

/-- Word `k` of a grid that starts at tile row `row0` (R213): column `k mod 32`, row
`row0 + k div 32`; a row below the canvas is not painted. The palette index is the word's own. -/
def paintCell (e : Env) (row0 k : Nat) (w : Half) (f : Surface) : Surface :=
  let col := k % Config.gridCols
  let row := row0 + k / Config.gridCols
  if row < Config.gridRows then
    paint e (awd w).code (awd w).xf (awd w).yf ((awd w).pal.toNat : Int) ((col * 8 : Nat) : Int)
      ((row * 8 : Nat) : Int) f
  else f

/-- `PAINTGRID(words, row0)` (R213) for the words from the `k`-th on. -/
def paintGrid (e : Env) (row0 : Nat) : (k : Nat) → List Half → Surface → Surface
  | _, [], f => f
  | k, w :: ws, f => paintGrid e row0 (k + 1) ws (paintCell e row0 k w f)

/-! ## Layers -/

/-- What a layer answers: the surface and the outcome for its `LSTAT`. -/
structure LayerRun where
  surface : Surface
  outcome : OpOutcome
  deriving DecidableEq, Repr

/-- A layer that `RESOLVE` refused (R171): the cause is raised and nothing painted. -/
def layerSkipped (cause : Anomaly) (f : Surface) : LayerRun :=
  { surface := f.raise cause, outcome := .skipped }

/-- A layer painted from a run-length stream at `off` (R214, R220). -/
def layerStream (e : Env) (row0 off : Nat) (f : Surface) : LayerRun :=
  let r := rld e.rom off
  let g := paintGrid e row0 0 (r.pairs.map pairWord) f
  { surface := { g with anom := raiseIfPartial g.anom r.outcome }, outcome := r.outcome }

/-- Layer 1, background (R214). -/
def layerBg (e : Env) (nbld : Nat) (bgsel : BitVec 4) (f : Surface) : LayerRun :=
  if nbld = 0 then { surface := f, outcome := .skipped }
  else
    match resolveBg e.rom bgsel.toNat with
    | .skip cause => layerSkipped cause f
    | .found off => layerStream e Config.bgRow0 off f

/-- Layer 2, sky strip (R215). -/
def layerSky (e : Env) (f : Surface) : LayerRun :=
  if e.rom.len ≤ Config.skyOff then layerSkipped .trunc f
  else
    let r := rld e.rom Config.skyOff
    let g := paintGrid e Config.skyRow0 0 ((r.pairs.take Config.skyPairs).map pairWord) f
    { surface := { g with anom := raiseIfPartial g.anom (skyOutcome r.pairs.length) }
      outcome := skyOutcome r.pairs.length }

/-- The words of a foliage block (30_encoding.md R100): little-endian, unmasked. -/
def foliageWords (rom : Buffer) (off n : Nat) : List Half :=
  (List.range n).map (fun k => pairWord { lo := rom.at (off + 2 * k), hi := rom.at (off + 2 * k + 1) })

/-- Layer 3, foliage (R216). -/
def layerFol (e : Env) (folsel : Byte) (f : Surface) : LayerRun :=
  match resolveFol e.rom folsel.toNat with
  | .skip cause => layerSkipped cause f
  | .found off =>
    if e.rom.len < off + folRows folsel * 64 then layerSkipped .badSel f
    else
      { surface :=
          paintGrid e (folRow0 folsel) 0 (foliageWords e.rom off (folRows folsel * Config.gridCols)) f
        outcome := .ok }

/-- The word of tile `j` of the descriptor at `off` with mode `m` (30_encoding.md R99). -/
def tileWord (rom : Buffer) (m : Byte) (off j : Nat) : Half :=
  if m = 0xFF then pairWord { lo := rom.at (off + 3 + 2 * j), hi := rom.at (off + 3 + 2 * j + 1) }
  else tw8Word m (rom.at (off + 3 + j))

/-- Tile `(r, c)` of a building (R219). -/
def paintTile (e : Env) (off : Nat) (w h m xc pc : Byte) (r c : Nat) (f : Surface) : Surface :=
  let d := awd (tileWord e.rom m off (r * w.toNat + c))
  paint e d.code d.xf d.yf (buildingPal pc) ((xc.toNat * 4 + c * 8 : Nat) : Int)
    (bldRow e.par h.toNat r * 8) f

/-- The tiles of a building as `(r, c)`, row by row (R219). -/
def buildingTiles (w h : Byte) : List (Nat × Nat) :=
  (List.range h.toNat).flatMap (fun r => (List.range w.toNat).map (fun c => (r, c)))

/-- `PAINTBUILDING(off, w, h, m, xc, pc)` (R219). -/
def paintBuilding (e : Env) (off : Nat) (w h m xc pc : Byte) (f : Surface) : Surface :=
  (buildingTiles w h).foldl (fun g t => paintTile e off w h m xc pc t.1 t.2 g) f

/-- A building after its descriptor is located: the surface, and whether it was painted. -/
structure BuildingRun where
  surface : Surface
  painted : Bool
  deriving DecidableEq, Repr

/-- A building that is skipped (R218). -/
def buildingSkipped (cause : Anomaly) (f : Surface) : BuildingRun :=
  { surface := f.raise cause, painted := false }

/-- The body of the building at `off` with mode `m` (R218, R219): painted if the header and the
declared size fit below `ROM_LEN`, else skipped whole. The declared size is at least 3, so the one
test refuses a header that does not fit as well. -/
def drawBody (e : Env) (off : Nat) (m xc pc : Byte) (f : Surface) : BuildingRun :=
  if e.rom.len < off + buildingSize m (e.rom.at off) (e.rom.at (off + 1)) then
    buildingSkipped .badSel f
  else
    { surface := paintBuilding e off (e.rom.at off) (e.rom.at (off + 1)) m xc pc f, painted := true }

/-- `DRAWONE(id, xc, pc)` (R218). -/
def drawOne (e : Env) (p : Placement) (f : Surface) : BuildingRun :=
  match resolveBld e.rom p.id.toNat with
  | .skip cause => buildingSkipped cause f
  | .found off =>
    match e.rom.read (off + 2) with
    | none => buildingSkipped .badSel f
    | some m => drawBody e off m p.x p.pal f

/-- The buildings of a list in placement order (R217): the surface and the number skipped. -/
def drawBuildings (e : Env) : List Placement → Surface → Nat → Surface × Nat
  | [], f, n => (f, n)
  | p :: ps, f, n =>
    drawBuildings e ps (drawOne e p f).surface (if (drawOne e p f).painted then n else n + 1)

/-- Layer 4, buildings (R217). -/
def layerBld (e : Env) (ps : List Placement) (f : Surface) : LayerRun :=
  { surface := (drawBuildings e ps f 0).1, outcome := buildingsOutcome (drawBuildings e ps f 0).2 }

/-- Layer 5, terrain strip (R220). -/
def layerTer (e : Env) (tersel : Byte) (f : Surface) : LayerRun :=
  match resolveTer e.rom tersel.toNat with
  | .skip cause => layerSkipped cause f
  | .found off => layerStream e Config.terRow0 off f

/-! ## The layers on the state: canvas, `ANOM` and the layer's `LSTAT` -/

/-- The triples of `BLIST` that layer 4 walks: `NBLD` of them (10_state.md R45). -/
def State.placements (s : State) : List Placement :=
  (List.range s.nbld).map (fun i => blistAt s.blist s.blistEra i)

/-- `CLEAR`'s effect on the canvas (R210). -/
def State.runClear (s : State) : State := { s with canvas := Canvas.filled s.par.canvasInit }

def State.runBg (s : State) : State :=
  { s.withSurface (layerBg s.env s.nbld s.bgsel s.surface).surface with
    lstat1 := (layerBg s.env s.nbld s.bgsel s.surface).outcome }

def State.runSky (s : State) : State :=
  { s.withSurface (layerSky s.env s.surface).surface with
    lstat2 := (layerSky s.env s.surface).outcome }

def State.runFol (s : State) : State :=
  { s.withSurface (layerFol s.env s.folsel s.surface).surface with
    lstat3 := (layerFol s.env s.folsel s.surface).outcome }

def State.runBld (s : State) : State :=
  { s.withSurface (layerBld s.env s.placements s.surface).surface with
    lstat4 := (layerBld s.env s.placements s.surface).outcome }

def State.runTer (s : State) : State :=
  { s.withSurface (layerTer s.env s.tersel s.surface).surface with
    lstat5 := (layerTer s.env s.tersel s.surface).outcome }

/-- `CLEAR` and the five layers in the fixed order, then `STATUS` (R221, R222, R223). -/
def State.runAll (s : State) : State :=
  let t := s.runClear.runBg.runSky.runFol.runBld.runTer
  { t with status := finalOutcome t.anom }

/-! ## Operations -/

/-- `TW16` (R219) at the building cursor: the body of the located building with mode `0xFF`. -/
def execTw16 (s : State) : Host.Outcome State Fault Refusal :=
  let r := drawBody s.env s.bld.off 0xFF s.bld.x s.bld.palCode s.surface
  .next { s.withSurface r.surface with bld := { s.bld with painted := r.painted, ended := true } }

/-- `TW8` (R219) at the building cursor: the body of the located building with mode `m`. -/
def execTw8 (m : Byte) (s : State) : Host.Outcome State Fault Refusal :=
  let r := drawBody s.env s.bld.off m s.bld.x s.bld.palCode s.surface
  .next { s.withSurface r.surface with bld := { s.bld with painted := r.painted, ended := true } }

/-- `PAINT8` (R212). -/
def execPaint8 (s : State) : Host.Outcome State Fault Refusal :=
  .next
    { s.withSurface (paint s.env s.code s.xf s.yf s.pali.toInt s.px.toInt s.py.toInt s.surface) with
      status := .ok }

/-- `CLEAR` (R210). -/
def execClear (s : State) : Host.Outcome State Fault Refusal :=
  .next { s.runClear with status := .ok }

/-- `DRAWBG` (R214). -/
def execDrawbg (s : State) : Host.Outcome State Fault Refusal :=
  .next { s.runBg with status := s.runBg.lstat1 }

/-- `DRAWSKY` (R215). -/
def execDrawsky (s : State) : Host.Outcome State Fault Refusal :=
  .next { s.runSky with status := s.runSky.lstat2 }

/-- `DRAWFOL` (R216). -/
def execDrawfol (s : State) : Host.Outcome State Fault Refusal :=
  .next { s.runFol with status := s.runFol.lstat3 }

/-- `DRAWBLD` (R217). -/
def execDrawbld (s : State) : Host.Outcome State Fault Refusal :=
  .next { s.runBld with status := s.runBld.lstat4 }

/-- `DRAWTER` (R220). -/
def execDrawter (s : State) : Host.Outcome State Fault Refusal :=
  .next { s.runTer with status := s.runTer.lstat5 }

/-- `COMPOSED` (R222). -/
def execComposed (s : State) : Host.Outcome State Fault Refusal :=
  .next (if nTiles s.tile = 0 then s.reject .emptyBank else State.runAll { s with anom := 0 })

/-- `COMPOSE` (R221). -/
def execCompose (s : State) : Host.Outcome State Fault Refusal :=
  .next
    (if totalLevels s.rom ≤ s.lvl.toNat then s.reject .badLevel
     else if nTiles s.tile = 0 then s.reject .emptyBank
     else (State.loadLevel { s with anom := 0 } levelEntryDecode s.lvl.toNat).runAll)

end Sys2Proof.Machine
end

