-- ==== Sys2Proof/Machine/Dispatch.lean ====
section
/-! DEFINITION. One arm per constructor of `Instr`, each a call of its meaning. -/

namespace Sys2Proof.Machine

def exec (i : Instr) (s : State) : Host.Outcome State Fault Refusal :=
  match i with
  | .aw h p y x l => Sys2Proof.Machine.execAw h p y x l s
  | .endItem => Sys2Proof.Machine.execEndItem s
  | .lit n => Sys2Proof.Machine.execLit n s
  | .run n => Sys2Proof.Machine.execRun n s
  | .bend => Sys2Proof.Machine.execBend s
  | .bskipLow m => Sys2Proof.Machine.execBskipLow m s
  | .bskipHigh m => Sys2Proof.Machine.execBskipHigh m s
  | .brec id => Sys2Proof.Machine.execBrec id s
  | .tw16 => Sys2Proof.Machine.execTw16 s
  | .tw8 m => Sys2Proof.Machine.execTw8 m s
  | .awdec => Sys2Proof.Machine.execAwdec s
  | .samp8 => Sys2Proof.Machine.execSamp8 s
  | .samp32 => Sys2Proof.Machine.execSamp32 s
  | .rld => Sys2Proof.Machine.execRld s
  | .rsvlvl => Sys2Proof.Machine.execRsvlvl s
  | .rsvbg => Sys2Proof.Machine.execRsvbg s
  | .rsvter => Sys2Proof.Machine.execRsvter s
  | .rsvfol => Sys2Proof.Machine.execRsvfol s
  | .rsvbld => Sys2Proof.Machine.execRsvbld s
  | .ldlvl => Sys2Proof.Machine.execLdlvl s
  | .paint8 => Sys2Proof.Machine.execPaint8 s
  | .clear => Sys2Proof.Machine.execClear s
  | .drawbg => Sys2Proof.Machine.execDrawbg s
  | .drawsky => Sys2Proof.Machine.execDrawsky s
  | .drawfol => Sys2Proof.Machine.execDrawfol s
  | .drawbld => Sys2Proof.Machine.execDrawbld s
  | .drawter => Sys2Proof.Machine.execDrawter s
  | .composed => Sys2Proof.Machine.execComposed s
  | .compose => Sys2Proof.Machine.execCompose s
  | .badop v => Sys2Proof.Machine.execBadop v s

end Sys2Proof.Machine
end

