-- ==== Sys2Proof/Machine/HostPort.lean ====
section
/-! DEFINITION. The host's accesses (10_state.md R20, R22, R32, R34, R43 to R45;
70_reset_and_hazards.md R280, R282): registers by number, the spaces the host reads and writes, the
loading of the memories, and reset. A write to `OP` is not served here: it is a fetch. -/

namespace Sys2Proof.Machine

/-- The numbers of the operand, result, outcome and descriptor registers (10_state.md R21, R23, R26 to
R31). -/
def workingRegs : List (Nat × Reg) :=
  [(0x00, .op), (0x01, .status), (0x02, .rejCause), (0x03, .anom), (0x04, .lstat1), (0x05, .lstat2),
   (0x06, .lstat3), (0x07, .lstat4), (0x08, .lstat5),
   (0x10, .word), (0x11, .code), (0x12, .xf), (0x13, .yf), (0x14, .pali), (0x16, .tx), (0x17, .ty),
   (0x18, .nib), (0x19, .px), (0x1A, .py), (0x20, .cur), (0x21, .base), (0x22, .consumed),
   (0x23, .ewsn), (0x28, .sel), (0x29, .off),
   (0x30, .lvl), (0x31, .bgsel), (0x32, .tersel), (0x33, .folsel), (0x34, .blptr), (0x35, .nbld)]

/-- The numbers of the constant registers (10_state.md R32). -/
def constantRegs : List (Nat × Reg) :=
  [(0x40, .levelBase), (0x41, .levelStride), (0x42, .levelMax), (0x43, .bgBase), (0x44, .bgStride),
   (0x45, .bgEntries), (0x46, .terBase), (0x47, .terStride), (0x48, .terSelMax), (0x49, .folBase),
   (0x4A, .folStride), (0x4B, .bldBase), (0x4C, .bldStride), (0x4D, .skyOff), (0x4E, .skyPairs),
   (0x4F, .bgRow0), (0x50, .terRow0), (0x51, .skyRow0), (0x52, .totalLevels), (0x53, .ntiles)]

/-- Every assigned register number (10_state.md R34). -/
def regTable : List (Nat × Reg) := workingRegs ++ constantRegs

/-- The register with a number, if one is assigned (10_state.md R34). -/
def regOf (n : Nat) : Option Reg := (regTable.find? (fun e => e.1 == n)).map (fun e => e.2)

/-- A host read (10_state.md R22): zero-extended, sign-extended for `PALI`, `PX`, `PY`; `OP` reads 0. -/
def readReg (s : State) : Reg → Int
  | .op => 0
  | .status => s.status.code
  | .rejCause => s.rejCause.code
  | .anom => s.anom.toNat
  | .lstat1 => s.lstat1.code
  | .lstat2 => s.lstat2.code
  | .lstat3 => s.lstat3.code
  | .lstat4 => s.lstat4.code
  | .lstat5 => s.lstat5.code
  | .word => s.word.toNat
  | .code => s.code.toNat
  | .xf => s.xf.toNat
  | .yf => s.yf.toNat
  | .pali => s.pali.toInt
  | .tx => s.tx.toNat
  | .ty => s.ty.toNat
  | .nib => s.nib.toNat
  | .px => s.px.toInt
  | .py => s.py.toInt
  | .cur => s.cur
  | .base => s.base
  | .consumed => s.consumed
  | .ewsn => s.ewsn
  | .sel => s.sel.toNat
  | .off => s.off.toNat
  | .lvl => s.lvl.toNat
  | .bgsel => s.bgsel.toNat
  | .tersel => s.tersel.toNat
  | .folsel => s.folsel.toNat
  | .blptr => s.blptr.toNat
  | .nbld => s.nbld
  | .levelBase => Config.levelBase
  | .levelStride => Config.levelStride
  | .levelMax => Config.levelMax
  | .bgBase => Config.bgBase
  | .bgStride => Config.bgStride
  | .bgEntries => Config.bgEntries
  | .terBase => Config.terBase
  | .terStride => Config.terStride
  | .terSelMax => Config.terSelMax
  | .folBase => Config.folBase
  | .folStride => Config.folStride
  | .bldBase => Config.bldBase
  | .bldStride => Config.bldStride
  | .skyOff => Config.skyOff
  | .skyPairs => Config.skyPairs
  | .bgRow0 => Config.bgRow0
  | .terRow0 => Config.terRow0
  | .skyRow0 => Config.skyRow0
  | .totalLevels => totalLevels s.rom
  | .ntiles => nTiles s.tile

/-- What a host read of a number answers: 0 for an unassigned one (10_state.md R34). -/
def readNumber (s : State) (n : Nat) : Int :=
  match regOf n with
  | some r => readReg s r
  | none => 0

/-- A host write of the bits `v` (10_state.md R22): truncated to the width of a register marked R/W,
ignored for one marked R. `OP` is written by a fetch, never here. `NBLD` has no width (log 14). -/
def writeReg (s : State) (v : Nat) : Reg → State
  | .anom => { s with anom := BitVec.ofNat 4 v }
  | .word => { s with word := BitVec.ofNat 16 v }
  | .code => { s with code := BitVec.ofNat 11 v }
  | .xf => { s with xf := BitVec.ofNat 1 v }
  | .yf => { s with yf := BitVec.ofNat 1 v }
  | .pali => { s with pali := BitVec.ofNat 5 v }
  | .tx => { s with tx := BitVec.ofNat 5 v }
  | .ty => { s with ty := BitVec.ofNat 5 v }
  | .px => { s with px := BitVec.ofNat 13 v }
  | .py => { s with py := BitVec.ofNat 13 v }
  | .cur => { s with cur := v % 2 ^ addrW s.rom }
  | .sel => { s with sel := BitVec.ofNat 8 v }
  | .lvl => { s with lvl := BitVec.ofNat 8 v }
  | .bgsel => { s with bgsel := BitVec.ofNat 4 v }
  | .tersel => { s with tersel := BitVec.ofNat 8 v }
  | .folsel => { s with folsel := BitVec.ofNat 8 v }
  | .blptr => { s with blptr := BitVec.ofNat 16 v }
  | .nbld => { s with nbld := v }
  | .op => s
  | .status => s
  | .rejCause => s
  | .lstat1 => s
  | .lstat2 => s
  | .lstat3 => s
  | .lstat4 => s
  | .lstat5 => s
  | .nib => s
  | .base => s
  | .consumed => s
  | .ewsn => s
  | .off => s
  | .levelBase => s
  | .levelStride => s
  | .levelMax => s
  | .bgBase => s
  | .bgStride => s
  | .bgEntries => s
  | .terBase => s
  | .terStride => s
  | .terSelMax => s
  | .folBase => s
  | .folStride => s
  | .bldBase => s
  | .bldStride => s
  | .skyOff => s
  | .skyPairs => s
  | .bgRow0 => s
  | .terRow0 => s
  | .skyRow0 => s
  | .totalLevels => s
  | .ntiles => s

/-- A host write to a number: ignored for an unassigned one (10_state.md R34). -/
def writeNumber (s : State) (n v : Nat) : State :=
  match regOf n with
  | some r => writeReg s v r
  | none => s

/-- A byte of the canvas as the host reads it: a free value where the canvas holds none, and beyond
its last address (10_state.md R50; log 3, log 7). -/
def canvasByte (s : State) (a : Nat) : Byte :=
  (if a < canvasBytes then s.canvas.get a else none).getD (Config.anyCanvasByte s.canvasEra a)

/-- A pair of `EWS` as the host reads it, as a word; a free value beyond `EWSN` (log 3). -/
def ewsWord (s : State) (k : Nat) : Half :=
  pairWord ((s.ews[k]?).getD
    { lo := Config.anyEwsByte s.ewsEra (2 * k), hi := Config.anyEwsByte s.ewsEra (2 * k + 1) })

/-- The state after a host read that answers `v`: nothing but the answer changes (20_memory.md R64). -/
def State.answer (s : State) (v : Int) : State := { s with hostData := v }

/-- The reset event (70_reset_and_hazards.md R280): every register as `State.reset` has it, the canvas
unspecified, the input memories untouched; the parameters and the host's pending accesses are no part
of it (log 16). The bytes of the canvas, `EWS` and `BLIST` are free anew (log 8). -/
def State.applyReset (s : State) : State :=
  { State.reset with
    rom := s.rom, tile := s.tile, pal := s.pal, par := s.par, bus := s.bus
    canvasEra := s.canvasEra + 1, ewsEra := s.ewsEra + 1, blistEra := s.blistEra + 1 }

/-- One host access that starts no operation. -/
def serveAccess (s : State) : HostAccess → State
  | .write n v => writeNumber s n v
  | .read n => s.answer (readNumber s n)
  | .writeBlist a b => { s with blist := cellsPut none a b s.blist }
  | .readBlist a => s.answer (blistByte s.blist s.blistEra a).toNat
  | .readEws k => s.answer (ewsWord s k).toNat
  | .readCanvas a => s.answer (canvasByte s a).toNat
  | .loadRom bytes => { s with rom := Buffer.ofBytes bytes }
  | .loadTile bytes => { s with tile := Buffer.ofBytes bytes }
  | .loadPal bytes => { s with pal := Buffer.ofBytes bytes }
  | .reset => s.applyReset

end Sys2Proof.Machine
end

