-- ==== Sys2Proof/Machine/Fetch.lean ====
section
/-! DEFINITION. Fetching: what the next step runs. At the command interface it is the host's next
access, an operation if it writes `OP` (10_state.md R23); at an item decoder it is the byte or word
that selects the next item (42_rle_decompressor.md R159; log 4). -/

namespace Sys2Proof.Machine

/-- The instruction at the head of some bytes, to be run in `s`. Every format decodes every byte, so
the rejections never occur here. -/
def fetchDecoded (f : Format) (bytes : List Byte) (s : State) : Fetched :=
  match decode f bytes with
  | .ok i _ => .run i s
  | .noByte => .done s
  | .halfWord => .done s
  | .noRow => .done s

/-- The host's next access, already taken off the queue. -/
def fetchAccess (s : State) : HostAccess → Fetched
  | .write n v =>
    if n = 0 then fetchDecoded .op [BitVec.ofNat 8 v] s else .done (serveAccess s (.write n v))
  | .read n => .done (serveAccess s (.read n))
  | .writeBlist a b => .done (serveAccess s (.writeBlist a b))
  | .readBlist a => .done (serveAccess s (.readBlist a))
  | .readEws k => .done (serveAccess s (.readEws k))
  | .readCanvas a => .done (serveAccess s (.readCanvas a))
  | .loadRom bytes => .done (serveAccess s (.loadRom bytes))
  | .loadTile bytes => .done (serveAccess s (.loadTile bytes))
  | .loadPal bytes => .done (serveAccess s (.loadPal bytes))
  | .reset => .done (serveAccess s .reset)

/-- The command interface: idle without an access (60_exceptions.md R275; log 2). -/
def fetchCommand (s : State) : Fetched :=
  match s.bus with
  | [] => .done s
  | a :: rest => fetchAccess { s with bus := rest } a

/-- The run-length item at the stream cursor (42_rle_decompressor.md R150). -/
def fetchStream (s : State) : Fetched :=
  if s.rle.ended then .done { s with site := .command }
  else
    match s.rom.read s.rle.pos with
    | none => .done { s with rle := rleExhausted s.rle }
    | some c => fetchDecoded .rle [c] s

/-- The building-list record at the list cursor (44_level_descriptor.md R192). -/
def fetchList (s : State) : Fetched :=
  if s.blr.ended then .done { s with site := .command }
  else
    match s.rom.read s.blr.pos with
    | none => .done { s with blr := listCut s.blr }
    | some b0 => fetchDecoded .blr [b0] s

/-- The tile-word form of the building at the building cursor (45_compositor.md R218): the mode byte
is byte 2 of its header; a header that does not fit skips the building. -/
def fetchBuilding (s : State) : Fetched :=
  if s.bld.ended then .done { s with site := .command }
  else
    match s.rom.read (s.bld.off + 2) with
    | none =>
      .done { s.raise .badSel with bld := { s.bld with painted := false, ended := true } }
    | some m => fetchDecoded .bld [m] s

/-- The attribute word at the word cursor (30_encoding.md R92). -/
def fetchWord (s : State) : Fetched :=
  match s.rom.readPair s.aww.pos with
  | none => .done { s with site := .command }
  | some p => fetchDecoded .aw [p.lo, p.hi] s

/-- What the next step runs. -/
def fetch (s : State) : Fetched :=
  match s.site with
  | .command => fetchCommand s
  | .stream => fetchStream s
  | .list => fetchList s
  | .building => fetchBuilding s
  | .word => fetchWord s

/-- How many bytes a run-length item has after its control byte (30_encoding.md R93), and a
building-list record after its first byte (R97). -/
def tailBytes : Instr → Nat
  | .lit n => 2 * n.toNat
  | .run _ => 2
  | .bskipLow _ => 1
  | .bskipHigh _ => 1
  | .brec _ => 2
  | _ => 0

/-- The selecting byte `c` of a format followed by as many zero bytes as its item goes on. -/
def itemBytes (f : Format) (c : Byte) : List Byte :=
  match decode f [c] with
  | .ok i _ => c :: List.replicate (tailBytes i) 0
  | .noByte => [c]
  | .halfWord => [c]
  | .noRow => [c]

/-- Store a word of the opcode table where the next step fetches it (log 5): a select code as the
host's next access, an item in `ROM` at the cursor of its decoder. -/
def placeWord (s : State) (nbits w : Nat) : State :=
  match tableFormat nbits w with
  | none => s
  | some .op => { s with site := .command, bus := .write 0 (w % 256) :: s.bus }
  | some .rle =>
    { s with
      site := .stream
      rle := { s.rle with ended := false }
      rom := s.rom.place s.rle.pos (itemBytes .rle (BitVec.ofNat 8 w)) }
  | some .blr =>
    { s with
      site := .list
      blr := { s.blr with ended := false }
      rom := s.rom.place s.blr.pos (itemBytes .blr (BitVec.ofNat 8 w)) }
  | some .bld =>
    { s with
      site := .building
      bld := { s.bld with ended := false }
      rom := s.rom.place s.bld.off [0, 0, BitVec.ofNat 8 w] }
  | some .aw => { s with site := .word, rom := s.rom.place s.aww.pos (tableBytes w) }

end Sys2Proof.Machine
end

