-- ==== Sys2Proof/Safety.lean ====
section
/-! DEFINITION. What counts as a safe run, in the terms the statements use: the machine never stops
(60_exceptions.md R258), its memories keep their canonical form, and its outcome registers and its
pairs hold only what the rules let them hold. -/

namespace Sys2Proof.Machine

/-- The machine goes on: no fault, no refusal (60_exceptions.md R258: "There is no double fault, no
fatal state, no halted state"). -/
def State.GoesOn (s : State) : Prop := ∃ t, step s = .next t

/-- Every memory of the state is in its canonical form. -/
def State.MemoriesCanonical (s : State) : Prop :=
  s.rom.wf = true ∧ s.tile.wf = true ∧ s.pal.wf = true ∧ s.canvas.wf = true ∧
    blistWf s.blist = true

/-- A pair as the decompressor emits it: the framing bits are 0 (42_rle_decompressor.md R157). -/
abbrev pairMasked (p : Pair) : Prop := p.hi.toNat ≤ 0x3F

/-- Every pair in `EWS`, and every pair of a stream being decoded, is masked. -/
def State.PairsMasked (s : State) : Prop :=
  (∀ p ∈ s.ews, pairMasked p) ∧ (∀ p ∈ s.rle.pairs, pairMasked p)

/-- The outcomes 45_compositor.md R225 allows in `LSTAT[1..5]`: background, sky and terrain end `OK`,
`PARTIAL` or `SKIPPED`, foliage is never `PARTIAL`, buildings are never `SKIPPED`. -/
def State.LayerOutcomesLegal (s : State) : Prop :=
  (s.lstat1 = .ok ∨ s.lstat1 = .partialEnd ∨ s.lstat1 = .skipped) ∧
  (s.lstat2 = .ok ∨ s.lstat2 = .partialEnd ∨ s.lstat2 = .skipped) ∧
  (s.lstat3 = .ok ∨ s.lstat3 = .skipped) ∧
  (s.lstat4 = .ok ∨ s.lstat4 = .partialEnd) ∧
  (s.lstat5 = .ok ∨ s.lstat5 = .partialEnd ∨ s.lstat5 = .skipped)

/-! ## What a painted tile shows, in plain arithmetic -/

/-- The palette offset of pixel `(tx, ty)` of an 8×8 tile: the mirrored coordinate's byte, its high or
low half, 16 entries a palette index (41_tile_sampler.md R140; 45_compositor.md R211). -/
def shownOffset (e : Env) (code : Nat) (xf yf : BitVec 1) (pal : Int) (tx ty : Nat) : Int :=
  let x := if xf = 1 then 7 - tx else tx
  let y := if yf = 1 then 7 - ty else ty
  let b := (e.tile.at (32 * code + y * 4 + x / 2)).toNat
  pal * 16 + ((if x % 2 = 0 then b / 16 else b % 16 : Nat) : Int)

/-- The offset names a palette entry. -/
abbrev paletteHas (e : Env) (o : Int) : Prop := 0 ≤ o ∧ o < (e.pal.len / 3 : Nat)

/-- The colour at a palette offset: three bytes R, G, B, or `MAGENTA` where there is no entry
(45_compositor.md R211). -/
def shownColour (e : Env) (o : Int) : Colour :=
  if 0 ≤ o ∧ o < (e.pal.len / 3 : Nat) then
    { r := e.pal.at (3 * o.toNat), g := e.pal.at (3 * o.toNat + 1), b := e.pal.at (3 * o.toNat + 2) }
  else e.par.magenta

/-- Canvas byte `a` belongs to a visible pixel of the 8×8 tile at `(px, py)`. -/
def tileCovers (px py : Int) (a : Nat) : Prop :=
  ∃ x y : Nat, x < 256 ∧ y < 240 ∧ px ≤ x ∧ (x : Int) < px + 8 ∧ py ≤ y ∧ (y : Int) < py + 8 ∧
    pixelAddr x y ≤ a ∧ a ≤ pixelAddr x y + 2

/-- Every bit set in `a` is set in `b`. -/
abbrev bitsKept (a b : BitVec 4) : Prop := a &&& b = a

end Sys2Proof.Machine
end

