-- ==== Sys2Proof/Certificates/Slice0/Obligations.lean ====
section
/-! DEFINITION. The statements for the provers. Each docstring names the rules of spec/ it rests on;
OBLIGATIONS.json lists them. Many rules carry the spec's own mark "[decision: see 92_eei_decisions.md
D<n>]" or "[derived]"; a docstring names the decision a statement rests on, and the log entry
(notes/assumptions) of every choice that is the model's. -/

open Sys2Proof Sys2Proof.Machine

/-! ## Encoding -/

/-- Decode and encode agree on every well-formed instruction, whatever bytes follow (30_encoding.md R91,
R93, R97, R99, R113 to R115). -/
def Obligations.DecodeOfEncodeIsTheInstruction : Prop :=
  ∀ (i : Instr) (rest : List Byte), i.wf = true → decode i.format (encode i ++ rest) = .ok i rest

/-- Every byte is exactly one well-formed item of each byte-selected format, and it is that item's
encoding (30_encoding.md R93 "Every byte value is a legal control byte", R97, R99, R114); every two bytes
are an attribute word, whose encoding is those bytes with bit 15 clear (R91 says that bit 15 is ignored;
that the encoder writes it as 0 is the model's choice, log 25). -/
def Obligations.EveryByteIsOneItem : Prop :=
  (∀ (f : Format) (c : Byte) (rest : List Byte), f ≠ .aw →
    ∃ i, i.wf = true ∧ i.format = f ∧ decode f (c :: rest) = .ok i rest ∧ encode i = [c]) ∧
  (∀ (lo hi : Byte) (rest : List Byte),
    ∃ i, i.wf = true ∧ i.format = .aw ∧ decode .aw (lo :: hi :: rest) = .ok i rest ∧
      encode i = [lo, hi &&& 0x7F])

/-- A few words written out from the patterns of 30_encoding.md R91, R93, R97, R99, R113, R114. -/
def Obligations.SampleWordsDecode : Prop :=
  decode .aw [0xBC, 0x5A] = .ok (.aw 1 1 1 0 0x2BC) [] ∧
  decode .rle [0b00000000] = .ok .endItem [] ∧
  decode .rle [0b10000010] = .ok (.lit 2) [] ∧
  decode .rle [0b01111111] = .ok (.run 127) [] ∧
  decode .blr [0b11111111] = .ok .bend [] ∧
  decode .blr [0b11111011] = .ok (.bskipLow 1) [] ∧
  decode .blr [0b11111101] = .ok (.bskipHigh 1) [] ∧
  decode .blr [0b11111110] = .ok (.brec 0xFE) [] ∧
  decode .bld [0b11111111] = .ok .tw16 [] ∧
  decode .op [0b00000100] = .ok .rld [] ∧
  decode .op [0b00011111] = .ok .compose [] ∧
  decode .op [0b00001101] = .ok (.badop 0x0D) []

/-! ## Reset -/

/-- After reset every register below the constants reads 0, `EWS` and `BLIST` are empty, no pixel of the
canvas has a value, and nothing runs until the host's first access (10_state.md R50, decision D24; a
canvas byte without a value and the idle step are the model's forms, logs 7 and 2). -/
def Obligations.ResetRegistersReadZero : Prop :=
  (∀ n : Nat, n < 0x40 → readNumber State.reset n = 0) ∧
  State.reset.ews = [] ∧ State.reset.blist = [] ∧
  (∀ x y : Nat, State.reset.canvas.pixel x y = none) ∧
  step State.reset = .next State.reset

/-- The reset event: registers as after reset, input memories untouched, the canvas unspecified
(70_reset_and_hazards.md R280; that the parameters and the host's pending accesses stay is the model's
choice, log 16). -/
def Obligations.ResetEventKeepsInputMemories : Prop :=
  ∀ (s : State) (rest : List HostAccess), s.site = .command → s.bus = .reset :: rest →
    ∃ t, step s = .next t ∧
      t.rom = s.rom ∧ t.tile = s.tile ∧ t.pal = s.pal ∧ t.par = s.par ∧ t.bus = rest ∧
      (∀ n : Nat, n < 0x40 → readNumber t n = 0) ∧ t.ews = [] ∧ t.blist = [] ∧
      (∀ x y : Nat, t.canvas.pixel x y = none)

/-! ## Steps -/

/-- A write of `OP` runs the operation its value decodes to, the access taken off the queue
(10_state.md R23; the queue is the model's form of the host's accesses, log 1). -/
def Obligations.StepRunsTheOperationWritten : Prop :=
  ∀ (s : State) (v : Nat) (rest : List HostAccess) (i : Instr),
    s.site = .command → s.bus = .write 0 v :: rest →
    decode .op [BitVec.ofNat 8 v] = .ok i [] → step s = exec i { s with bus := rest }

/-- At an item decoder, a step runs the item that the byte (or word) at its cursor decodes to; past the
end of the ROM, after an item that ended, and at an idle command interface it does what the rule says
there (42_rle_decompressor.md R155, R159; 44_level_descriptor.md R192, R196; 45_compositor.md R218;
60_exceptions.md R275; the sites are the model's choice, log 4, and the idle step, log 2). -/
def Obligations.StepRunsTheItemAtTheCursor : Prop :=
  (∀ (s : State) (i : Instr) (c : Byte), s.site = .stream → s.rle.ended = false →
    s.rom.read s.rle.pos = some c → decode .rle [c] = .ok i [] → step s = exec i s) ∧
  (∀ (s : State) (i : Instr) (c : Byte), s.site = .list → s.blr.ended = false →
    s.rom.read s.blr.pos = some c → decode .blr [c] = .ok i [] → step s = exec i s) ∧
  (∀ (s : State) (i : Instr) (c : Byte), s.site = .building → s.bld.ended = false →
    s.rom.read (s.bld.off + 2) = some c → decode .bld [c] = .ok i [] → step s = exec i s) ∧
  (∀ (s : State) (i : Instr) (p : Pair), s.site = .word → s.rom.readPair s.aww.pos = some p →
    decode .aw [p.lo, p.hi] = .ok i [] → step s = exec i s) ∧
  (∀ s : State, s.site = .stream → s.rle.ended = false → s.rom.len ≤ s.rle.pos →
    step s = .next { s with rle := { s.rle with ended := true } }) ∧
  (∀ s : State, s.site = .list → s.blr.ended = false → s.rom.len ≤ s.blr.pos →
    step s = .next { s with blr := { s.blr with outcome := .partialEnd, ended := true } }) ∧
  (∀ s : State, s.site = .building → s.bld.ended = false → s.rom.len < s.bld.off + 3 →
    step s = .next
      { s with anom := s.anom ||| 0b0010, bld := { s.bld with painted := false, ended := true } }) ∧
  (∀ s : State, (s.site = .stream ∧ s.rle.ended = true) ∨ (s.site = .list ∧ s.blr.ended = true) ∨
    (s.site = .building ∧ s.bld.ended = true) ∨ (s.site = .word ∧ s.rom.len ≤ s.aww.pos + 1) →
    step s = .next { s with site := .command }) ∧
  (∀ s : State, s.site = .command → s.bus = [] → step s = .next s)

/-- The machine never stops: from every state, any number of steps answers a next state
(60_exceptions.md R258; that nothing faults or is refused is log 24). -/
def Obligations.EveryRunGoesOn : Prop :=
  ∀ (n : Nat) (s : State), ∃ t, Sys2Proof.core.run n s = .next t

/-! ## Invariants and whole-machine rules -/

/-- The three invariants hold after reset: memories in canonical form (the model's form, logs 6 to 8),
pairs masked, layer outcomes in the table (10_state.md R50). -/
def Obligations.ResetMeetsTheInvariants : Prop :=
  State.reset.MemoriesCanonical ∧ State.reset.PairsMasked ∧ State.reset.LayerOutcomesLegal

/-- Every step keeps every memory in its canonical form (20_memory.md R64; the form is the model's, logs
6 to 8). -/
def Obligations.StepKeepsMemoriesCanonical : Prop :=
  ∀ s t : State, s.MemoriesCanonical → step s = .next t → t.MemoriesCanonical

/-- Every step keeps the framing bits of emitted pairs clear (42_rle_decompressor.md R157). -/
def Obligations.StepKeepsPairsMasked : Prop :=
  ∀ s t : State, s.PairsMasked → step s = .next t → t.PairsMasked

/-- Every step keeps the layer outcomes inside the table of 45_compositor.md R225. -/
def Obligations.StepKeepsLayerOutcomesLegal : Prop :=
  ∀ s t : State, s.LayerOutcomesLegal → step s = .next t → t.LayerOutcomesLegal

/-- No instruction writes an input memory, a parameter, or the host's port (10_state.md R20, R40 to R42;
60_exceptions.md R263). -/
def Obligations.NoInstructionWritesInputMemories : Prop :=
  ∀ (i : Instr) (s t : State), exec i s = .next t →
    t.rom = s.rom ∧ t.tile = s.tile ∧ t.pal = s.pal ∧ t.par = s.par ∧ t.bus = s.bus ∧
      t.site = s.site ∧ t.hostData = s.hostData

/-- Every instruction but the two that clear `ANOM` only sets bits of it (10_state.md R29). -/
def Obligations.AnomaliesAreSticky : Prop :=
  ∀ (i : Instr) (s t : State), i ≠ .compose → i ≠ .composed → exec i s = .next t →
    bitsKept s.anom t.anom

/-- A rejected operation has changed `STATUS` and `REJCAUSE` and nothing else; an instruction that does
not reject leaves `REJCAUSE` alone (60_exceptions.md R256; 10_state.md R28). -/
def Obligations.RejectionChangesOnlyStatusAndCause : Prop :=
  (∀ (i : Instr) (s t : State), i.format = .op → exec i s = .next t → t.status = .rejected →
    t = { s with status := .rejected, rejCause := t.rejCause }) ∧
  (∀ (i : Instr) (s t : State), exec i s = .next t → t.status ≠ .rejected → t.rejCause = s.rejCause)

/-- Which instructions write which state: everything not named by an instruction's rule stays
(10_state.md R22, R24, R30, R31, R43 to R45; the eras `canvasEra`, `ewsEra` and `blistEra`, which name the
free values of those spaces, and that they stay where the space stays, are the model's, log 8). -/
def Obligations.OnlyNamedRegistersChange : Prop :=
  ∀ (i : Instr) (s t : State), exec i s = .next t →
    t.canvasEra = s.canvasEra ∧
    (t.word = s.word ∧ t.tx = s.tx ∧ t.ty = s.ty ∧ t.px = s.px ∧ t.py = s.py ∧ t.sel = s.sel ∧
      t.lvl = s.lvl) ∧
    (i ≠ .awdec → t.code = s.code ∧ t.xf = s.xf ∧ t.yf = s.yf ∧ t.pali = s.pali) ∧
    (i ≠ .samp8 → i ≠ .samp32 → t.nib = s.nib) ∧
    (i ≠ .rld → t.cur = s.cur ∧ t.base = s.base ∧ t.consumed = s.consumed ∧ t.ews = s.ews ∧
      t.ewsEra = s.ewsEra) ∧
    (i ∉ [Instr.rsvlvl, .rsvbg, .rsvter, .rsvfol, .rsvbld] → t.off = s.off) ∧
    (i ∉ [Instr.ldlvl, .compose] → t.bgsel = s.bgsel ∧ t.tersel = s.tersel ∧ t.folsel = s.folsel ∧
      t.blptr = s.blptr ∧ t.nbld = s.nbld ∧ t.blist = s.blist ∧ t.blistEra = s.blistEra) ∧
    (i.format ≠ .bld →
      i ∉ [Instr.paint8, .clear, .drawbg, .drawsky, .drawfol, .drawbld, .drawter, .composed, .compose] →
      t.canvas = s.canvas) ∧
    (i ∉ [Instr.drawbg, .composed, .compose] → t.lstat1 = s.lstat1) ∧
    (i ∉ [Instr.drawsky, .composed, .compose] → t.lstat2 = s.lstat2) ∧
    (i ∉ [Instr.drawfol, .composed, .compose] → t.lstat3 = s.lstat3) ∧
    (i ∉ [Instr.drawbld, .composed, .compose] → t.lstat4 = s.lstat4) ∧
    (i ∉ [Instr.drawter, .composed, .compose] → t.lstat5 = s.lstat5) ∧
    (i.format ≠ .op → t.status = s.status ∧ t.rejCause = s.rejCause)

/-! ## Attribute words -/

/-- `AWDEC` (40_attribute_word.md R131): the four fields of `WORD` by division, `STATUS` `OK`, nothing
else; the register interface is the spec's decision D2, that bit 15 has no effect D30. -/
def Obligations.AwdecResult : Prop :=
  ∀ s : State, exec .awdec s = .next
    { s with
      code := BitVec.ofNat 11 (s.word.toNat % 1024 + 1024 * (s.word.toNat / 16384 % 2))
      xf := BitVec.ofNat 1 (s.word.toNat / 1024)
      yf := BitVec.ofNat 1 (s.word.toNat / 2048)
      pali := BitVec.ofNat 5 (3 - s.word.toNat / 4096 % 4)
      status := .ok }

/-- The palette index of every word (40_attribute_word.md R132). -/
def Obligations.PaletteIndexOfEveryWord : Prop :=
  ∀ w : Half, (awd w).pal.toNat ∈ [0, 1, 2, 3] ∧ w.toNat / 4096 % 4 ≤ 3 ∧
    (awd w).pal.toNat = 3 - w.toNat / 4096 % 4

/-- An attribute word decoded field by field gives what the codec's shifts and masks give, whatever bit
15 is; only the word cursor changes (30_encoding.md R91; 40_attribute_word.md R130; the cursor is the
model's choice, log 18). -/
def Obligations.AttributeWordItemAgreesWithCodec : Prop :=
  ∀ (b h : BitVec 1) (p : BitVec 2) (y x : BitVec 1) (l : BitVec 10) (s : State),
    exec (.aw h p y x l) s = .next
      { s with aww := { pos := s.aww.pos + 2, decoded := awd (b ++ h ++ p ++ y ++ x ++ l) } }

/-- The codec ignores bit 15 and is injective below it (40_attribute_word.md R134). -/
def Obligations.CodecInjectiveBelowBit15 : Prop :=
  (∀ w : Half, awd (w ^^^ 0x8000) = awd w) ∧
  (∀ v w : Half, v.toNat < 0x8000 → w.toNat < 0x8000 → awd v = awd w → v = w)

/-! ## Samplers -/

/-- `SAMP8` inside its domain (41_tile_sampler.md R140, R141): the half of the mirrored pixel's byte into
`NIB`, `STATUS` `OK`, nothing else (decision D2). -/
def Obligations.Samp8Result : Prop :=
  ∀ s : State, s.code.toNat < s.tile.len / 32 → s.tx.toNat < 8 → s.ty.toNat < 8 →
    let x := if s.xf = 1 then 7 - s.tx.toNat else s.tx.toNat
    let y := if s.yf = 1 then 7 - s.ty.toNat else s.ty.toNat
    let b := (s.tile.at (32 * s.code.toNat + y * 4 + x / 2)).toNat
    exec .samp8 s = .next
      { s with nib := BitVec.ofNat 4 (if x % 2 = 0 then b / 16 else b % 16), status := .ok }

/-- `SAMP32` inside its domain (41_tile_sampler.md R143, R144): as `SAMP8` with 16 bytes a row, 512 a tile
and flips `31 − x`, `31 − y` (decision D19). -/
def Obligations.Samp32Result : Prop :=
  ∀ s : State, s.code.toNat < s.tile.len / 512 →
    let x := if s.xf = 1 then 31 - s.tx.toNat else s.tx.toNat
    let y := if s.yf = 1 then 31 - s.ty.toNat else s.ty.toNat
    let b := (s.tile.at (512 * s.code.toNat + y * 16 + x / 2)).toNat
    exec .samp32 s = .next
      { s with nib := BitVec.ofNat 4 (if x % 2 = 0 then b / 16 else b % 16), status := .ok }

/-- Outside their domains the samplers reject with `CONTRACT` and change nothing else
(41_tile_sampler.md R145; 60_exceptions.md R255). -/
def Obligations.SamplersRejectOutsideTheirDomain : Prop :=
  (∀ s : State, s.tile.len / 32 ≤ s.code.toNat ∨ 8 ≤ s.tx.toNat ∨ 8 ≤ s.ty.toNat →
    exec .samp8 s = .next { s with status := .rejected, rejCause := .contract }) ∧
  (∀ s : State, s.tile.len / 512 ≤ s.code.toNat →
    exec .samp32 s = .next { s with status := .rejected, rejCause := .contract })

/-- Sampling is flip-symmetric, each flip by itself and both together (41_tile_sampler.md R142). -/
def Obligations.SamplingIsFlipSymmetric : Prop :=
  ∀ (tile : Buffer) (t x y : Nat) (xf yf : BitVec 1), x < 8 → y < 8 →
    sample8 tile t x y 1 yf = sample8 tile t (7 - x) y 0 yf ∧
    sample8 tile t x y xf 1 = sample8 tile t x (7 - y) xf 0 ∧
    sample8 tile t x y 1 1 = sample8 tile t (7 - x) (7 - y) 0 0

/-! ## Run-length decompression -/

/-- `END` and `RUN n` at the stream cursor (42_rle_decompressor.md R152, R153, R155): `END` passes its
byte and ends; `RUN` emits its one pair `n` times, or is cut with its control byte consumed (decisions
D5 to D7; the cursor is the model's, log 4). -/
def Obligations.EndAndRunItems : Prop :=
  (∀ s : State, exec .endItem s = .next
    { s with rle := { s.rle with pos := s.rle.pos + 1, ended := true } }) ∧
  (∀ (s : State) (n : BitVec 7), s.rle.pos + 2 < s.rom.len →
    exec (.run n) s = .next
      { s with
        rle :=
          { s.rle with
            pos := s.rle.pos + 3
            pairs := s.rle.pairs ++ List.replicate n.toNat
              { lo := s.rom.at (s.rle.pos + 1), hi := s.rom.at (s.rle.pos + 2) &&& 0x3F } } }) ∧
  (∀ (s : State) (n : BitVec 7), s.rom.len ≤ s.rle.pos + 2 →
    exec (.run n) s = .next
      { s with
        rle := { s.rle with pos := s.rle.pos + 1, outcome := .partialEnd, ended := true } })

/-- `LIT n` at the stream cursor (42_rle_decompressor.md R154, R155): `n` literal pairs if they lie wholly
below `ROM_LEN`; else the pairs that do, the last half pair not consumed (decision D7; the cursor is the
model's, log 4). -/
def Obligations.LitItem : Prop :=
  (∀ (s : State) (n : BitVec 7), s.rle.pos + 1 + 2 * n.toNat ≤ s.rom.len →
    exec (.lit n) s = .next
      { s with
        rle :=
          { s.rle with
            pos := s.rle.pos + 1 + 2 * n.toNat
            pairs := s.rle.pairs ++ (List.range n.toNat).map (fun k =>
              { lo := s.rom.at (s.rle.pos + 1 + 2 * k)
                hi := s.rom.at (s.rle.pos + 2 + 2 * k) &&& 0x3F }) } }) ∧
  (∀ (s : State) (n : BitVec 7), s.rle.pos < s.rom.len → s.rom.len < s.rle.pos + 1 + 2 * n.toNat →
    let k := (s.rom.len - (s.rle.pos + 1)) / 2
    exec (.lit n) s = .next
      { s with
        rle :=
          { pos := s.rle.pos + 1 + 2 * k
            pairs := s.rle.pairs ++ (List.range k).map (fun j =>
              { lo := s.rom.at (s.rle.pos + 1 + 2 * j)
                hi := s.rom.at (s.rle.pos + 2 + 2 * j) &&& 0x3F })
            outcome := .partialEnd
            ended := true } })

/-- `RLD` is the iteration of its items (42_rle_decompressor.md R151, R159): stepping the machine item by
item from `CUR` ends the stream, changing only the stream cursor, and the operation writes to its
registers what the cursor then holds (the stream site is the model's form of R159's steps, log 4;
`ewsEra` is the model's, log 8). -/
def Obligations.RldIsItsItemsStepped : Prop :=
  ∀ s : State, ∃ (n : Nat) (t : State),
    Sys2Proof.core.run n
      { s with site := .stream, rle := { pos := s.cur, pairs := [], outcome := .ok, ended := false } } =
        .next t ∧
    t = { s with site := .stream, rle := t.rle } ∧ t.rle.ended = true ∧
    exec .rld s = .next
      { s with
        base := s.cur
        ews := t.rle.pairs
        ewsEra := s.ewsEra + 1
        cur := t.rle.pos
        consumed := t.rle.pos - s.cur
        anom := if t.rle.outcome = .partialEnd then s.anom ||| 0b0001 else s.anom
        status := t.rle.outcome }

/-- The registers after `RLD` (10_state.md R24, R25; 42_rle_decompressor.md R150, R151): `CONSUMED` is
`CUR − BASE`, the cursor never moves back nor beyond the ROM, a start at or beyond the end reads nothing,
the outcome is `OK` or `PARTIAL`, and a `PARTIAL` one raises `TRUNC`. -/
def Obligations.RldRegisters : Prop :=
  ∀ s : State, ∃ t, exec .rld s = .next t ∧
    t.base = s.cur ∧ t.cur = t.base + t.consumed ∧ readNumber t 0x23 = t.ews.length ∧
    (s.cur ≤ s.rom.len → t.cur ≤ s.rom.len) ∧
    (s.rom.len ≤ s.cur → t.cur = s.cur ∧ t.ews = [] ∧ t.status = .ok) ∧
    ((t.status = .ok ∧ t.anom = s.anom) ∨ (t.status = .partialEnd ∧ t.anom = s.anom ||| 0b0001))

/-! ## Pointer tables -/

/-- `RSVLVL` (43_pointer_tables.md R172): the entry's address, or `BADLEVEL` (decision
D21 for `TOTAL_LEVELS`). -/
def Obligations.RsvlvlResult : Prop :=
  ∀ s : State,
    (s.sel.toNat < min 132 ((s.rom.len - 0x8DAE) / 10) →
      exec .rsvlvl s = .next { s with off := BitVec.ofNat 16 (0x8DAE + 10 * s.sel.toNat), status := .ok }) ∧
    (min 132 ((s.rom.len - 0x8DAE) / 10) ≤ s.sel.toNat →
      exec .rsvlvl s = .next { s with status := .rejected, rejCause := .badLevel })

/-- `RSVBG` (43_pointer_tables.md R171, R173, decision D2): the three tests in their order, then the
offset (decision D34). -/
def Obligations.RsvbgResult : Prop :=
  ∀ s : State,
    let a := 0x8934 + 2 * s.sel.toNat
    let e := (s.rom.at a).toNat + 256 * (s.rom.at (a + 1)).toNat
    exec .rsvbg s = .next
      (if 16 ≤ s.sel.toNat then { s with anom := s.anom ||| 0b0010, status := .skipped }
       else if s.rom.len ≤ a + 1 then { s with anom := s.anom ||| 0b0001, status := .skipped }
       else if s.rom.len ≤ e then { s with anom := s.anom ||| 0b0010, status := .skipped }
       else { s with off := BitVec.ofNat 16 e, status := .ok })

/-- `RSVTER` (43_pointer_tables.md R171, R174): stride 1, selectors 0 to 10
(decisions D23, D34). -/
def Obligations.RsvterResult : Prop :=
  ∀ s : State,
    let a := 0x8928 + s.sel.toNat
    let e := (s.rom.at a).toNat + 256 * (s.rom.at (a + 1)).toNat
    exec .rsvter s = .next
      (if 10 < s.sel.toNat then { s with anom := s.anom ||| 0b0010, status := .skipped }
       else if s.rom.len ≤ a + 1 then { s with anom := s.anom ||| 0b0001, status := .skipped }
       else if s.rom.len ≤ e then { s with anom := s.anom ||| 0b0010, status := .skipped }
       else { s with off := BitVec.ofNat 16 e, status := .ok })

/-- `RSVFOL` (43_pointer_tables.md R171, R175): stride 2, selectors 0, 2, 4, 6, 8
(decisions D23, D34). -/
def Obligations.RsvfolResult : Prop :=
  ∀ s : State,
    let a := 0x95AA + 2 * s.sel.toNat
    let e := (s.rom.at a).toNat + 256 * (s.rom.at (a + 1)).toNat
    exec .rsvfol s = .next
      (if 8 < s.sel.toNat ∨ s.sel.toNat % 2 = 1 then
         { s with anom := s.anom ||| 0b0010, status := .skipped }
       else if s.rom.len ≤ a + 1 then { s with anom := s.anom ||| 0b0001, status := .skipped }
       else if s.rom.len ≤ e then { s with anom := s.anom ||| 0b0010, status := .skipped }
       else { s with off := BitVec.ofNat 16 e, status := .ok })

/-- `RSVBLD` (43_pointer_tables.md R171, R176): the entry of building id `SEL`; id 0 is refused
(decisions D17, D34). -/
def Obligations.RsvbldResult : Prop :=
  ∀ s : State,
    let a := 0x95B6 + 2 * (s.sel.toNat - 1)
    let e := (s.rom.at a).toNat + 256 * (s.rom.at (a + 1)).toNat
    exec .rsvbld s = .next
      (if s.sel.toNat = 0 then { s with anom := s.anom ||| 0b0010, status := .skipped }
       else if s.rom.len ≤ a + 1 then { s with anom := s.anom ||| 0b0001, status := .skipped }
       else if s.rom.len ≤ e then { s with anom := s.anom ||| 0b0010, status := .skipped }
       else { s with off := BitVec.ofNat 16 e, status := .ok })

/-! ## Level descriptor -/

/-- The three records at the list cursor (44_level_descriptor.md R193 to R196): the end
mark ends the list, a skip passes two bytes, a record adds its triple, and a record or skip that does not
fit ends the list `PARTIAL` (the cursor, left at the end mark, is the model's, log 4). -/
def Obligations.ListRecordItems : Prop :=
  (∀ s : State, exec .bend s = .next { s with blr := { s.blr with ended := true } }) ∧
  (∀ (s : State) (m : BitVec 1), s.blr.pos + 2 ≤ s.rom.len →
    exec (.bskipLow m) s = .next { s with blr := { s.blr with pos := s.blr.pos + 2 } } ∧
    exec (.bskipHigh m) s = .next { s with blr := { s.blr with pos := s.blr.pos + 2 } }) ∧
  (∀ (s : State) (id : Byte), s.blr.pos + 3 ≤ s.rom.len →
    exec (.brec id) s = .next
      { s with
        blr :=
          { s.blr with
            pos := s.blr.pos + 3
            list := s.blr.list ++
              [{ id := id, x := s.rom.at (s.blr.pos + 1), pal := s.rom.at (s.blr.pos + 2) }] } }) ∧
  (∀ (s : State) (m : BitVec 1), s.rom.len < s.blr.pos + 2 →
    exec (.bskipLow m) s = .next { s with blr := { s.blr with outcome := .partialEnd, ended := true } } ∧
    exec (.bskipHigh m) s =
      .next { s with blr := { s.blr with outcome := .partialEnd, ended := true } }) ∧
  (∀ (s : State) (id : Byte), s.rom.len < s.blr.pos + 3 →
    exec (.brec id) s = .next { s with blr := { s.blr with outcome := .partialEnd, ended := true } })

/-- `READLIST` is the iteration of its records (44_level_descriptor.md R192): stepping the machine record
by record ends the list, changes only the list cursor, and leaves what `READLIST` answers (the list site is
the model's, log 4). -/
def Obligations.ReadListIsItsRecordsStepped : Prop :=
  ∀ (s : State) (p : Nat), ∃ (n : Nat) (t : State),
    Sys2Proof.core.run n
      { s with site := .list, blr := { pos := p, list := [], outcome := .ok, ended := false } } =
        .next t ∧
    t = { s with site := .list, blr := readList s.rom p } ∧ (readList s.rom p).ended = true

/-- `LDLVL` (44_level_descriptor.md R190, R191): rejected with `BADLEVEL` at or beyond `TOTAL_LEVELS`;
else the descriptor registers from the ten bytes of the entry and the list its pointer names, `TRUNC` if
the list was cut, nothing else (decisions D2, D20, D21; the fields come from `LEVEL_ENTRY_DECODE`, whose
layout is open, log 12; `blistEra`, by which bytes beyond the list are free anew, is the model's, log 8). -/
def Obligations.LdlvlResult : Prop :=
  (∀ s : State, min 132 ((s.rom.len - 0x8DAE) / 10) ≤ s.lvl.toNat →
    exec .ldlvl s = .next { s with status := .rejected, rejCause := .badLevel }) ∧
  (∀ s : State, s.lvl.toNat < min 132 ((s.rom.len - 0x8DAE) / 10) →
    let d := levelEntryDecode ((List.range 10).map (fun i => s.rom.at (0x8DAE + 10 * s.lvl.toNat + i)))
    let r := readList s.rom d.ptr.toNat
    exec .ldlvl s = .next
      { s with
        bgsel := d.bg
        tersel := d.ter
        folsel := d.fol
        blptr := d.ptr
        blist := blistCells 0 r.list
        blistEra := s.blistEra + 1
        nbld := r.list.length
        anom := if r.outcome = .partialEnd then s.anom ||| 0b0001 else s.anom
        status := r.outcome })

/-- After `LDLVL`, and whatever the free values are, the triples of `BLIST` are the list read, in its
order (10_state.md R45; 44_level_descriptor.md R190). -/
def Obligations.LdlvlPlacementsAreTheList : Prop :=
  ∀ (s : State) (d : Nat), s.lvl.toNat < min 132 ((s.rom.len - 0x8DAE) / 10) →
    ∃ t, exec .ldlvl s = .next t ∧ t.nbld = (readList s.rom t.blptr.toNat).list.length ∧
      (List.range t.nbld).map (fun i => blistAt t.blist d i) = (readList s.rom t.blptr.toNat).list

/-- Whatever the layout (open, log 12), some one byte of the level entry has the background selector for
its high nibble (30_encoding.md R96, decision D20), and some two adjacent bytes are the building-list
pointer, low byte first (20_memory.md R60, decision D22; that the two are adjacent is DEDUCED, log 12). -/
def Obligations.BackgroundSelectorIsAHighNibble : Prop :=
  ∃ i j : Nat, i < 10 ∧ j + 1 < 10 ∧
    ∀ s : State, s.lvl.toNat < min 132 ((s.rom.len - 0x8DAE) / 10) →
      ∃ t, exec .ldlvl s = .next t ∧
        t.bgsel.toNat = (s.rom.at (0x8DAE + 10 * s.lvl.toNat + i)).toNat / 16 ∧
        t.blptr.toNat = (s.rom.at (0x8DAE + 10 * s.lvl.toNat + j)).toNat +
          256 * (s.rom.at (0x8DAE + 10 * s.lvl.toNat + j + 1)).toNat

/-- The pre-flight rejections, in their order (44_level_descriptor.md R197; 60_exceptions.md R254, R255):
a level index at or beyond `TOTAL_LEVELS` first, then an empty tile bank (the order is decision D4). -/
def Obligations.PreflightRejections : Prop :=
  (∀ s : State, min 132 ((s.rom.len - 0x8DAE) / 10) ≤ s.lvl.toNat →
    exec .ldlvl s = .next { s with status := .rejected, rejCause := .badLevel } ∧
    exec .compose s = .next { s with status := .rejected, rejCause := .badLevel }) ∧
  (∀ s : State, s.tile.len < 32 → s.lvl.toNat < min 132 ((s.rom.len - 0x8DAE) / 10) →
    exec .compose s = .next { s with status := .rejected, rejCause := .emptyBank }) ∧
  (∀ s : State, s.tile.len < 32 →
    exec .composed s = .next { s with status := .rejected, rejCause := .emptyBank })

/-! ## Painting -/

/-- `PAINT8` (45_compositor.md R211, R212). A tile the bank holds: every visible pixel takes its colour,
every other byte of the canvas stays, `BADPAL` is raised exactly if a visible pixel has no palette entry;
a tile it does not hold: nothing painted, `BADTILE` (decisions D2, D10, D18, D32; `MAGENTA`'s value is a
parameter, log 10; the canvas in canonical form, an invariant of its own). -/
def Obligations.Paint8Result : Prop :=
  (∀ s : State, s.canvas.wf = true → s.code.toNat < s.tile.len / 32 →
    ∃ t, exec .paint8 s = .next t ∧
      t = { s with canvas := t.canvas, anom := t.anom, status := .ok } ∧
      (∀ tx ty x y : Nat, tx < 8 → ty < 8 → x < 256 → y < 240 →
        (x : Int) = s.px.toInt + tx → (y : Int) = s.py.toInt + ty →
        t.canvas.pixel x y =
          some (shownColour s.env (shownOffset s.env s.code.toNat s.xf s.yf s.pali.toInt tx ty))) ∧
      (∀ a : Nat, ¬ tileCovers s.px.toInt s.py.toInt a → t.canvas.get a = s.canvas.get a) ∧
      ((∀ tx ty x y : Nat, tx < 8 → ty < 8 → x < 256 → y < 240 →
          (x : Int) = s.px.toInt + tx → (y : Int) = s.py.toInt + ty →
          paletteHas s.env (shownOffset s.env s.code.toNat s.xf s.yf s.pali.toInt tx ty)) →
        t.anom = s.anom) ∧
      (∀ tx ty x y : Nat, tx < 8 → ty < 8 → x < 256 → y < 240 →
        (x : Int) = s.px.toInt + tx → (y : Int) = s.py.toInt + ty →
        ¬ paletteHas s.env (shownOffset s.env s.code.toNat s.xf s.yf s.pali.toInt tx ty) →
        t.anom = s.anom ||| 0b1000)) ∧
  (∀ s : State, s.tile.len / 32 ≤ s.code.toNat →
    exec .paint8 s = .next { s with anom := s.anom ||| 0b0100, status := .ok })

/-- A grid of words (45_compositor.md R213; 60_exceptions.md R251). It is the painting of its words in
order, word `k` at cell `(k mod 32, row0 + k div 32)` if that row is on the canvas. So in the cell of every
word on the canvas whose tile the bank holds, each pixel has the colour of that word's tile, and every byte
outside those cells stays, the cells of blank tiles among them. `BADTILE` is raised exactly if the bank
lacks the tile of a word on the canvas, `BADPAL` exactly if a pixel of a tile it holds has no palette
entry; the other bits of `ANOM` stay (row-major order is decision D12, rows below the canvas D10). -/
def Obligations.GridShowsItsWords : Prop :=
  ∀ (e : Env) (row0 : Nat) (ws : List Half) (f : Surface),
    paintGrid e row0 0 ws f =
      (List.range ws.length).foldl
        (fun g k =>
          let d := awd (ws.getD k 0)
          if row0 + k / 32 < 30 then
            paint e d.code d.xf d.yf (d.pal.toNat : Int) (k % 32 * 8 : Nat) ((row0 + k / 32) * 8 : Nat) g
          else g)
        f ∧
    (f.canvas.wf = true → ∀ (k tx ty : Nat) (w : Half), ws[k]? = some w → row0 + k / 32 < 30 →
      tx < 8 → ty < 8 → (awd w).code.toNat < e.tile.len / 32 →
      (paintGrid e row0 0 ws f).canvas.pixel (k % 32 * 8 + tx) ((row0 + k / 32) * 8 + ty) =
        some (shownColour e
          (shownOffset e (awd w).code.toNat (awd w).xf (awd w).yf (awd w).pal.toNat tx ty))) ∧
    (∀ a : Nat,
      (∀ (k : Nat) (w : Half), ws[k]? = some w → row0 + k / 32 < 30 →
        (awd w).code.toNat < e.tile.len / 32 →
        ¬ tileCovers (k % 32 * 8 : Nat) ((row0 + k / 32) * 8 : Nat) a) →
      (paintGrid e row0 0 ws f).canvas.get a = f.canvas.get a) ∧
    ((paintGrid e row0 0 ws f).anom.getLsbD 0 = f.anom.getLsbD 0 ∧
      (paintGrid e row0 0 ws f).anom.getLsbD 1 = f.anom.getLsbD 1) ∧
    ((paintGrid e row0 0 ws f).anom.getLsbD 2 = true ↔ f.anom.getLsbD 2 = true ∨
      ∃ (k : Nat) (w : Half), ws[k]? = some w ∧ row0 + k / 32 < 30 ∧
        e.tile.len / 32 ≤ (awd w).code.toNat) ∧
    ((paintGrid e row0 0 ws f).anom.getLsbD 3 = true ↔ f.anom.getLsbD 3 = true ∨
      ∃ (k tx ty : Nat) (w : Half), ws[k]? = some w ∧ row0 + k / 32 < 30 ∧ tx < 8 ∧ ty < 8 ∧
        (awd w).code.toNat < e.tile.len / 32 ∧
        ¬ paletteHas e
          (shownOffset e (awd w).code.toNat (awd w).xf (awd w).yf (awd w).pal.toNat tx ty))

/-- `CLEAR` (45_compositor.md R210): every pixel is `CANVAS_INIT`, `STATUS` `OK`, nothing else (that
untouched pixels have the colour of a parameter is decision D9; log 9). -/
def Obligations.ClearResult : Prop :=
  ∀ s : State, ∃ t, exec .clear s = .next t ∧ t = { s with canvas := t.canvas, status := .ok } ∧
    ∀ x y : Nat, x < 256 → y < 240 → t.canvas.pixel x y = some s.par.canvasInit

/-! ## Layers -/

/-- `DRAWBG` (45_compositor.md R214): skipped without an anomaly if there are no buildings (decision D38),
skipped with its cause if `RESOLVE` refuses the selector, else the words of the stream painted from row 3,
`TRUNC` raised if the stream was cut. -/
def Obligations.DrawbgResult : Prop :=
  (∀ s : State, s.nbld = 0 →
    exec .drawbg s = .next { s with lstat1 := .skipped, status := .skipped }) ∧
  (∀ (s : State) (cause : Anomaly), s.nbld ≠ 0 → resolveBg s.rom s.bgsel.toNat = .skip cause →
    exec .drawbg s = .next
      { s with anom := s.anom ||| cause.bit, lstat1 := .skipped, status := .skipped }) ∧
  (∀ (s : State) (off : Nat), s.nbld ≠ 0 → resolveBg s.rom s.bgsel.toNat = .found off →
    let r := rld s.rom off
    let f := paintGrid s.env 3 0 (r.pairs.map pairWord) s.surface
    exec .drawbg s = .next
      { s with
        canvas := f.canvas
        anom := if r.outcome = .partialEnd then f.anom ||| 0b0001 else f.anom
        lstat1 := r.outcome
        status := r.outcome })

/-- `DRAWSKY` (45_compositor.md R215): skipped if no byte is at the sky's offset, else the first 64 pairs
from row 0 (that these are the top rows is decision D11), `PARTIAL` with `TRUNC` if there are fewer. -/
def Obligations.DrawskyResult : Prop :=
  (∀ s : State, s.rom.len ≤ 0x7613 →
    exec .drawsky s = .next
      { s with anom := s.anom ||| 0b0001, lstat2 := .skipped, status := .skipped }) ∧
  (∀ s : State, 0x7613 < s.rom.len →
    let pairs := (rld s.rom 0x7613).pairs
    let f := paintGrid s.env 0 0 ((pairs.take 64).map pairWord) s.surface
    exec .drawsky s = .next
      (if pairs.length < 64 then
        { s with
          canvas := f.canvas, anom := f.anom ||| 0b0001, lstat2 := .partialEnd, status := .partialEnd }
      else { s with canvas := f.canvas, anom := f.anom, lstat2 := .ok, status := .ok }))

/-- `DRAWFOL` (45_compositor.md R216): three rows from 26 for selectors to 4, two from 27 above; a block
that does not fit is skipped whole; its words are little-endian and unmasked (decisions D13, D37, D40). -/
def Obligations.DrawfolResult : Prop :=
  (∀ (s : State) (cause : Anomaly), resolveFol s.rom s.folsel.toNat = .skip cause →
    exec .drawfol s = .next
      { s with anom := s.anom ||| cause.bit, lstat3 := .skipped, status := .skipped }) ∧
  (∀ (s : State) (off : Nat), resolveFol s.rom s.folsel.toNat = .found off →
    let rows := if s.folsel.toNat ≤ 4 then 3 else 2
    let row0 := if s.folsel.toNat ≤ 4 then 26 else 27
    let ws := (List.range (rows * 32)).map (fun k =>
      BitVec.ofNat 16 ((s.rom.at (off + 2 * k)).toNat + 256 * (s.rom.at (off + 2 * k + 1)).toNat))
    let f := paintGrid s.env row0 0 ws s.surface
    exec .drawfol s = .next
      (if s.rom.len < off + rows * 64 then
        { s with anom := s.anom ||| 0b0010, lstat3 := .skipped, status := .skipped }
      else { s with canvas := f.canvas, anom := f.anom, lstat3 := .ok, status := .ok }))

/-- `DRAWTER` (45_compositor.md R220): as the background, from row 29, whatever `NBLD`. -/
def Obligations.DrawterResult : Prop :=
  (∀ (s : State) (cause : Anomaly), resolveTer s.rom s.tersel.toNat = .skip cause →
    exec .drawter s = .next
      { s with anom := s.anom ||| cause.bit, lstat5 := .skipped, status := .skipped }) ∧
  (∀ (s : State) (off : Nat), resolveTer s.rom s.tersel.toNat = .found off →
    let r := rld s.rom off
    let f := paintGrid s.env 29 0 (r.pairs.map pairWord) s.surface
    exec .drawter s = .next
      { s with
        canvas := f.canvas
        anom := if r.outcome = .partialEnd then f.anom ||| 0b0001 else f.anom
        lstat5 := r.outcome
        status := r.outcome })

/-- `DRAWBLD` (45_compositor.md R217): the buildings of the list one over the other in placement order,
`PARTIAL` exactly if one was skipped (decision D4; a triple nothing has written is free, log 8). -/
def Obligations.DrawbldResult : Prop :=
  ∀ s : State,
    let run := ((List.range s.nbld).map (fun i => blistAt s.blist s.blistEra i)).foldl
      (fun (acc : Surface × Bool) p =>
        ((drawOne s.env p acc.1).surface, acc.2 || !(drawOne s.env p acc.1).painted))
      (s.surface, false)
    exec .drawbld s = .next
      { s with
        canvas := run.1.canvas
        anom := run.1.anom
        lstat4 := if run.2 then .partialEnd else .ok
        status := if run.2 then .partialEnd else .ok }

/-- Locating and checking one building (45_compositor.md R218): skipped with the cause its table gives,
or with `BADSEL` if its header or its declared size does not fit, else painted whole. -/
def Obligations.BuildingIsPaintedWholeOrSkipped : Prop :=
  (∀ (e : Env) (p : Placement) (f : Surface) (cause : Anomaly),
    resolveBld e.rom p.id.toNat = .skip cause →
    drawOne e p f = { surface := { f with anom := f.anom ||| cause.bit }, painted := false }) ∧
  (∀ (e : Env) (p : Placement) (f : Surface) (off : Nat), resolveBld e.rom p.id.toNat = .found off →
    let w := e.rom.at off
    let h := e.rom.at (off + 1)
    let m := e.rom.at (off + 2)
    let size := 3 + (if m = 0xFF then 2 * w.toNat * h.toNat else w.toNat * h.toNat)
    drawOne e p f =
      if e.rom.len < off + 3 ∨ e.rom.len < off + size then
        { surface := { f with anom := f.anom ||| 0b0010 }, painted := false }
      else { surface := paintBuilding e off w h m p.x p.pal f, painted := true })

/-- The tiles of a building are painted in row-major order of their index `j` (45_compositor.md R219;
30_encoding.md R98, R99), tile `j` at column `j mod w`, row `j div w`, its word two bytes for mode `0xFF`
and else one byte under the mode byte, the palette index from the placement; the row is the parameter
`BLD_ROW_FN`, whatever it is (decision D14, log 11). -/
def Obligations.BuildingTilesAreRowMajor : Prop :=
  ∀ (e : Env) (off : Nat) (w h m xc pc : Byte) (f : Surface),
    paintBuilding e off w h m xc pc f =
      (List.range (w.toNat * h.toNat)).foldl
        (fun g j =>
          let word : Nat :=
            if m = 0xFF then
              (e.rom.at (off + 3 + 2 * j)).toNat + 256 * (e.rom.at (off + 3 + 2 * j + 1)).toNat
            else 256 * m.toNat + (e.rom.at (off + 3 + j)).toNat
          let d := awd (BitVec.ofNat 16 word)
          paint e d.code d.xf d.yf (3 - (pc.toNat / 16 : Nat))
            ((4 * xc.toNat + 8 * (j % w.toNat) : Nat) : Int)
            (8 * bldRow e.par h.toNat (j / w.toNat)) g)
        f

/-- `TW16` and `TW8` at the building cursor (30_encoding.md R99; 45_compositor.md R218, R219): the body
whose declared size fits is painted; one that does not fit is skipped with
`BADSEL` (the cursor is the model's, log 4). -/
def Obligations.TileWordForms : Prop :=
  (∀ (s : State) (m : Byte),
    let w := s.rom.at s.bld.off
    let h := s.rom.at (s.bld.off + 1)
    s.bld.off + 3 + w.toNat * h.toNat ≤ s.rom.len → m ≠ 0xFF →
    let f := paintBuilding s.env s.bld.off w h m s.bld.x s.bld.palCode s.surface
    exec (.tw8 m) s = .next
      { s with canvas := f.canvas, anom := f.anom, bld := { s.bld with painted := true, ended := true } }) ∧
  (∀ s : State,
    let w := s.rom.at s.bld.off
    let h := s.rom.at (s.bld.off + 1)
    s.bld.off + 3 + 2 * w.toNat * h.toNat ≤ s.rom.len →
    let f := paintBuilding s.env s.bld.off w h 0xFF s.bld.x s.bld.palCode s.surface
    exec .tw16 s = .next
      { s with canvas := f.canvas, anom := f.anom, bld := { s.bld with painted := true, ended := true } }) ∧
  (∀ (s : State) (m : Byte),
    s.rom.len < s.bld.off + 3 + (s.rom.at s.bld.off).toNat * (s.rom.at (s.bld.off + 1)).toNat →
    m ≠ 0xFF →
    exec (.tw8 m) s = .next
      { s with anom := s.anom ||| 0b0010, bld := { s.bld with painted := false, ended := true } }) ∧
  (∀ s : State,
    s.rom.len < s.bld.off + 3 + 2 * (s.rom.at s.bld.off).toNat * (s.rom.at (s.bld.off + 1)).toNat →
    exec .tw16 s = .next
      { s with anom := s.anom ||| 0b0010, bld := { s.bld with painted := false, ended := true } })

/-- Where each layer may write (45_compositor.md R213 to R220, R224), 768 bytes a pixel row: the
background from tile row 3 on, the sky in rows 0 and 1, foliage in rows 26 to 28 (27 and 28 for selectors
above 4), terrain in row 29, buildings only in the tiles of the buildings they list. -/
def Obligations.LayersStayInTheirRows : Prop :=
  (∀ s : State, ∃ t, exec .drawbg s = .next t ∧
    ∀ a : Nat, a < 24 * 768 → t.canvas.get a = s.canvas.get a) ∧
  (∀ s : State, ∃ t, exec .drawsky s = .next t ∧
    ∀ a : Nat, 16 * 768 ≤ a → t.canvas.get a = s.canvas.get a) ∧
  (∀ s : State, ∃ t, exec .drawfol s = .next t ∧
    ∀ a : Nat, a < 208 * 768 ∨ 232 * 768 ≤ a ∨ (4 < s.folsel.toNat ∧ a < 216 * 768) →
      t.canvas.get a = s.canvas.get a) ∧
  (∀ s : State, ∃ t, exec .drawter s = .next t ∧
    ∀ a : Nat, a < 232 * 768 → t.canvas.get a = s.canvas.get a) ∧
  (∀ s : State, ∃ t, exec .drawbld s = .next t ∧
    ∀ a : Nat,
      (∀ (i off r c : Nat), i < s.nbld →
        resolveBld s.rom (blistAt s.blist s.blistEra i).id.toNat = .found off →
        r < (s.rom.at (off + 1)).toNat → c < (s.rom.at off).toNat →
        ¬ tileCovers ((4 * (blistAt s.blist s.blistEra i).x.toNat + 8 * c : Nat) : Int)
          (8 * bldRow s.par (s.rom.at (off + 1)).toNat r) a) →
      t.canvas.get a = s.canvas.get a)

/-! ## Compositing -/

/-- `COMPOSED` with tiles in the bank is `CLEAR` and the five layer operations run one after the other
from `ANOM = 0`, and `STATUS` is `OK` exactly if no anomaly was raised (45_compositor.md R222, R223;
decisions D2, D4). -/
def Obligations.ComposedIsItsSixOperations : Prop :=
  ∀ s : State, 32 ≤ s.tile.len →
    ∃ s1 s2 s3 s4 s5 s6 : State,
      exec .clear { s with anom := 0 } = .next s1 ∧ exec .drawbg s1 = .next s2 ∧
      exec .drawsky s2 = .next s3 ∧ exec .drawfol s3 = .next s4 ∧ exec .drawbld s4 = .next s5 ∧
      exec .drawter s5 = .next s6 ∧
      exec .composed s = .next { s6 with status := if s6.anom = 0 then .ok else .partialEnd }

/-- `COMPOSE` is `LDLVL` and then `COMPOSED`, but that an anomaly of `LDLVL` stays (45_compositor.md R221,
R222). -/
def Obligations.ComposeIsLdlvlThenComposed : Prop :=
  ∀ s : State, s.lvl.toNat < min 132 ((s.rom.len - 0x8DAE) / 10) → 32 ≤ s.tile.len →
    ∃ u v : State, exec .ldlvl s = .next u ∧ exec .composed u = .next v ∧
      exec .compose s = .next
        (if u.status = .partialEnd then
          { v with anom := v.anom ||| 0b0001, status := .partialEnd }
        else v)

/-- Compositing a level is a function of the input memories, the parameters and the level index alone
(10_state.md R33; 45_compositor.md R221): two states that agree on these end with the same canvas,
descriptor, `ANOM`, `LSTAT` and `STATUS`, whatever else they hold. -/
def Obligations.ComposeDependsOnlyOnItsInputs : Prop :=
  ∀ s s' : State, s.rom = s'.rom → s.tile = s'.tile → s.pal = s'.pal → s.par = s'.par →
    s.lvl = s'.lvl → s.lvl.toNat < min 132 ((s.rom.len - 0x8DAE) / 10) → 32 ≤ s.tile.len →
    ∃ t t' : State, exec .compose s = .next t ∧ exec .compose s' = .next t' ∧
      t.canvas = t'.canvas ∧ t.anom = t'.anom ∧ t.status = t'.status ∧
      t.lstat1 = t'.lstat1 ∧ t.lstat2 = t'.lstat2 ∧ t.lstat3 = t'.lstat3 ∧ t.lstat4 = t'.lstat4 ∧
      t.lstat5 = t'.lstat5 ∧ t.bgsel = t'.bgsel ∧ t.tersel = t'.tersel ∧ t.folsel = t'.folsel ∧
      t.blptr = t'.blptr ∧ t.nbld = t'.nbld ∧ t.blist = t'.blist

/-! ## Bad select codes and the host's accesses -/

/-- A select code that selects nothing (30_encoding.md R114; 60_exceptions.md R257): `STATUS` is `BADOP`
and nothing else changes, from the instruction and from the host's write of the value (decision D29; the
queue is the model's, log 1). -/
def Obligations.BadSelectCodeOnlySetsStatus : Prop :=
  (∀ (v : Byte) (s : State), exec (.badop v) s = .next { s with status := .badOp }) ∧
  (∀ (s : State) (v : Nat) (rest : List HostAccess), s.site = .command → s.bus = .write 0 v :: rest →
    (v % 256 = 0 ∨ (0x0D ≤ v % 256 ∧ v % 256 ≤ 0x0F) ∨ (0x15 ≤ v % 256 ∧ v % 256 ≤ 0x1D) ∨
      0x20 ≤ v % 256) →
    step s = .next { s with bus := rest, status := .badOp })

/-- What the host writes to a register it reads back, truncated to the register's width and sign-extended
where the register is signed (10_state.md R21, R22, R31, decision D3), in two steps; `NBLD` is kept whole
(log 14), `CUR` at the width `ADDR_W` (log 13). -/
def Obligations.HostReadsBackWhatItWrote : Prop :=
  ∀ (s : State) (n v : Nat) (rest : List HostAccess),
    s.site = .command → s.bus = .write n v :: .read n :: rest →
    ∀ w : Nat,
      (((n, w) ∈ [(0x03, 4), (0x10, 16), (0x11, 11), (0x12, 1), (0x13, 1), (0x16, 5), (0x17, 5),
          (0x28, 8), (0x30, 8), (0x31, 4), (0x32, 8), (0x33, 8), (0x34, 16)] ∨
          (n = 0x20 ∧ 18 ≤ w ∧ s.rom.len < 2 ^ w ∧ (w = 18 ∨ 2 ^ (w - 1) ≤ s.rom.len))) →
        ∃ t, Sys2Proof.core.run 2 s = .next t ∧ t.bus = rest ∧ t.hostData = ((v % 2 ^ w : Nat) : Int)) ∧
      ((n, w) ∈ [(0x14, 5), (0x19, 13), (0x1A, 13)] →
        ∃ t, Sys2Proof.core.run 2 s = .next t ∧ t.bus = rest ∧
          t.hostData = if v % 2 ^ w < 2 ^ (w - 1) then ((v % 2 ^ w : Nat) : Int)
            else ((v % 2 ^ w : Nat) : Int) - ((2 ^ w : Nat) : Int)) ∧
      (n = 0x35 → ∃ t, Sys2Proof.core.run 2 s = .next t ∧ t.bus = rest ∧ t.hostData = v)

/-- A host write changes what no other register number reads (10_state.md R22, decision D3; the step that
serves one access and leaves the others waiting is the model's, log 1). -/
def Obligations.HostWriteTouchesOneRegister : Prop :=
  ∀ (s : State) (n m v : Nat) (rest : List HostAccess), n ≠ 0 → m ≠ n →
    s.site = .command → s.bus = .write n v :: rest →
    ∃ t, step s = .next t ∧ readNumber t m = readNumber s m ∧ t.rom = s.rom ∧ t.tile = s.tile ∧
      t.pal = s.pal ∧ t.canvas = s.canvas ∧ t.ews = s.ews ∧ t.blist = s.blist ∧ t.bus = rest

/-- A host read of a number answers the value of the register with that number and changes nothing else:
zero-extended, sign-extended for `PALI`, `PX` and `PY`, an outcome or a cause as its code (10_state.md R21,
R22, R26 to R31, decisions D3 and D4). The constant registers read their constants in every state, and a
write to them, to a read-only register or to an unassigned number is ignored; an unassigned number reads 0,
and so does `OP` (R32, R34). The step that serves one access and leaves the others waiting, and the latch a
read answers in, are the model's, logs 1 and 3. -/
def Obligations.ConstantsAndIgnoredWrites : Prop :=
  (∀ (s : State) (n : Nat) (rest : List HostAccess), s.site = .command → s.bus = .read n :: rest →
    step s = .next { s with bus := rest, hostData := readNumber s n }) ∧
  (∀ s : State,
    [0x01, 0x02, 0x03, 0x04, 0x05, 0x06, 0x07, 0x08].map (readNumber s) =
      ([s.status.code, s.rejCause.code, s.anom.toNat, s.lstat1.code, s.lstat2.code, s.lstat3.code,
        s.lstat4.code, s.lstat5.code] : List Int) ∧
    [0x10, 0x11, 0x12, 0x13, 0x14, 0x16, 0x17, 0x18, 0x19, 0x1A].map (readNumber s) =
      ([s.word.toNat, s.code.toNat, s.xf.toNat, s.yf.toNat, s.pali.toInt, s.tx.toNat, s.ty.toNat,
        s.nib.toNat, s.px.toInt, s.py.toInt] : List Int) ∧
    [0x20, 0x21, 0x22, 0x23, 0x28, 0x29].map (readNumber s) =
      ([s.cur, s.base, s.consumed, s.ews.length, s.sel.toNat, s.off.toNat] : List Int) ∧
    [0x30, 0x31, 0x32, 0x33, 0x34, 0x35].map (readNumber s) =
      ([s.lvl.toNat, s.bgsel.toNat, s.tersel.toNat, s.folsel.toNat, s.blptr.toNat, s.nbld] : List Int)) ∧
  [OpOutcome.ok, .partialEnd, .skipped, .rejected, .badOp].map OpOutcome.code = [0, 1, 2, 3, 4] ∧
  [RejCause.none, .badLevel, .emptyBank, .contract].map RejCause.code = [0, 1, 2, 3] ∧
  (∀ s : State,
    (List.range 20).map (fun k => readNumber s (0x40 + k)) =
      [0x8DAE, 10, 132, 0x8934, 2, 16, 0x8928, 1, 10, 0x95AA, 2, 0x95B6, 2, 0x7613, 64, 3, 29, 0,
        ((min 132 ((s.rom.len - 0x8DAE) / 10) : Nat) : Int), ((s.tile.len / 32 : Nat) : Int)]) ∧
  (∀ (s : State) (n v : Nat) (rest : List HostAccess), s.site = .command →
    s.bus = .write n v :: rest →
    ((1 ≤ n ∧ n ≤ 2) ∨ (4 ≤ n ∧ n < 0x10) ∨ n = 0x15 ∨ n = 0x18 ∨ (0x1A < n ∧ n < 0x20) ∨
      (0x21 ≤ n ∧ n < 0x28) ∨ (0x29 ≤ n ∧ n < 0x30) ∨ 0x36 ≤ n) →
    step s = .next { s with bus := rest }) ∧
  (∀ (s : State) (n : Nat),
    (n = 0 ∨ (9 ≤ n ∧ n < 0x10) ∨ n = 0x15 ∨ (0x1A < n ∧ n < 0x20) ∨ (0x24 ≤ n ∧ n < 0x28) ∨
      (0x2A ≤ n ∧ n < 0x30) ∨ (0x36 ≤ n ∧ n < 0x40) ∨ 0x54 ≤ n) →
    readNumber s n = 0)

/-- The host's writes of the spaces. A byte of `BLIST` the host wrote is the byte it reads, in two steps,
and every other byte and all other state stays (10_state.md R22, R45; the host's byte access and its latch
are the model's, log 3, the queue log 1, the era a byte nothing has written is named by log 8). A memory the
host loads has the length of what was loaded and its bytes, and nothing else changes
(70_reset_and_hazards.md R282; 20_memory.md R73; that one access loads a memory whole is the model's,
log 17). -/
def Obligations.BlistReadsBackWhatWasWritten : Prop :=
  (∀ (s : State) (a : Nat) (b : Byte) (rest : List HostAccess), blistWf s.blist = true →
    s.site = .command → s.bus = .writeBlist a b :: .readBlist a :: rest →
    ∃ t, Sys2Proof.core.run 2 s = .next t ∧
      t = { s with bus := rest, blist := t.blist, hostData := b.toNat } ∧
      ∀ (a' d : Nat), a' ≠ a → blistByte t.blist d a' = blistByte s.blist d a') ∧
  (∀ (s : State) (bytes : List Byte) (rest : List HostAccess), s.site = .command →
    (s.bus = .loadRom bytes :: rest →
      ∃ t, step s = .next t ∧ t = { s with bus := rest, rom := t.rom } ∧
        t.rom.len = bytes.length ∧ ∀ i : Nat, t.rom.read i = bytes[i]?) ∧
    (s.bus = .loadTile bytes :: rest →
      ∃ t, step s = .next t ∧ t = { s with bus := rest, tile := t.tile } ∧
        t.tile.len = bytes.length ∧ ∀ i : Nat, t.tile.read i = bytes[i]?) ∧
    (s.bus = .loadPal bytes :: rest →
      ∃ t, step s = .next t ∧ t = { s with bus := rest, pal := t.pal } ∧
        t.pal.len = bytes.length ∧ ∀ i : Nat, t.pal.read i = bytes[i]?))

/-- The host's reads. Component `c` of pixel `(x, y)` of the canvas is at linear address
`(y·256 + x)·3 + c`; pair `k` of `EWS` is read as the word it spells (10_state.md R43, R44; that form of the
read is the model's, log 3). A read of a register or of a space changes nothing but the latch it answers in,
and read again it answers the same, whether or not anything has been written there (20_memory.md R64; the
latch and the queue are the model's, logs 1 and 3). -/
def Obligations.HostReadsCanvasAndWordStream : Prop :=
  (∀ (s : State) (x y : Nat) (col : Colour) (rest : List HostAccess), x < 256 → y < 240 →
    s.canvas.pixel x y = some col → s.site = .command →
    (s.bus = .readCanvas ((y * 256 + x) * 3) :: rest →
      ∃ t, step s = .next t ∧ t.hostData = col.r.toNat) ∧
    (s.bus = .readCanvas ((y * 256 + x) * 3 + 1) :: rest →
      ∃ t, step s = .next t ∧ t.hostData = col.g.toNat) ∧
    (s.bus = .readCanvas ((y * 256 + x) * 3 + 2) :: rest →
      ∃ t, step s = .next t ∧ t.hostData = col.b.toNat)) ∧
  (∀ (s : State) (k : Nat) (p : Pair) (rest : List HostAccess), s.ews[k]? = some p →
    s.site = .command → s.bus = .readEws k :: rest →
    ∃ t, step s = .next t ∧ t.hostData = ((p.lo.toNat + 256 * p.hi.toNat : Nat) : Int)) ∧
  (∀ (s : State) (a : HostAccess) (rest : List HostAccess), s.site = .command →
    s.bus = a :: a :: rest →
    ((∃ n, a = .read n) ∨ (∃ k, a = .readEws k) ∨ (∃ k, a = .readBlist k) ∨
      (∃ k, a = .readCanvas k)) →
    ∃ t, step s = .next t ∧ t = { s with bus := a :: rest, hostData := t.hostData } ∧
      step t = .next { t with bus := rest })
end

