-- ==== Sys2Proof/Laws/Memory.lean ====
section
/-! SUPPORT. The memories: reading after writing, leaving every other address alone, and keeping the
canonical form (20_memory.md R64, R70). -/

namespace Sys2Proof.Machine

/-! ## Cells -/

theorem cellsRise_mono {lo lo' : Nat} {cs : List Host.Cell} (hl : lo' ≤ lo)
    (h : cellsRise lo cs = true) : cellsRise lo' cs = true := by
  cases cs with
  | nil => rfl
  | cons c cs => simp only [cellsRise, Bool.and_eq_true, decide_eq_true_eq] at h ⊢; exact ⟨by omega, h.2⟩

/-- Nothing is listed below the address the cells rise from. -/
theorem cellsGet_below {lo a : Nat} {cs : List Host.Cell} (h : cellsRise lo cs = true) (ha : a < lo) :
    cellsGet cs a = none := by
  induction cs generalizing lo with
  | nil => rfl
  | cons c cs ih =>
    simp only [cellsRise, Bool.and_eq_true, decide_eq_true_eq] at h
    have hne : c.1 ≠ a := by omega
    simp only [cellsGet, hne, if_false]
    exact ih h.2 (by omega)

/-- What a write leaves at its own address: the byte written, listed or as what is unlisted there. -/
theorem cellsGet_put_self {lo a : Nat} {bg : Option Byte} {v : Byte} {cs : List Host.Cell}
    (h : cellsRise lo cs = true) :
    cellsGet (cellsPut bg a v cs) a = if bg = some v then none else some v := by
  induction cs generalizing lo with
  | nil => by_cases hb : bg = some v <;> simp [cellsPut, cellsGet, hb]
  | cons c cs ih =>
    simp only [cellsRise, Bool.and_eq_true, decide_eq_true_eq] at h
    by_cases hlt : a < c.1
    · by_cases hb : bg = some v
      · have hne : c.1 ≠ a := by omega
        simp only [cellsPut, hlt, hb, if_true, cellsGet, hne, if_false]
        exact cellsGet_below h.2 (by omega)
      · simp [cellsPut, hlt, hb, cellsGet]
    · by_cases he : a = c.1
      · by_cases hb : bg = some v
        · simp only [cellsPut, he, hb, if_true, if_false, Nat.lt_irrefl]
          exact cellsGet_below h.2 (by omega)
        · simp [cellsPut, he, hb, cellsGet]
      · have hne : c.1 ≠ a := fun e => he e.symm
        simp only [cellsPut, hlt, he, if_false, cellsGet, hne]
        exact ih h.2

/-- A write leaves every other address alone. -/
theorem cellsGet_put_other {a b : Nat} {bg : Option Byte} {v : Byte} {cs : List Host.Cell}
    (hab : a ≠ b) : cellsGet (cellsPut bg a v cs) b = cellsGet cs b := by
  induction cs with
  | nil => by_cases hb : bg = some v <;> simp [cellsPut, cellsGet, hb, hab]
  | cons c cs ih =>
    by_cases hlt : a < c.1
    · by_cases hb : bg = some v <;> simp [cellsPut, hlt, hb, cellsGet, hab]
    · by_cases he : a = c.1
      · have hcb : c.1 ≠ b := fun e => hab (he.trans e)
        by_cases hb : bg = some v
        · simp [cellsPut, he, hb, cellsGet, hcb]
        · simp [cellsPut, he, hb, cellsGet, hcb]
      · simp only [cellsPut, hlt, he, if_false, cellsGet, ih]

theorem cellsRise_put {lo a : Nat} {bg : Option Byte} {v : Byte} {cs : List Host.Cell}
    (h : cellsRise lo cs = true) (ha : lo ≤ a) : cellsRise lo (cellsPut bg a v cs) = true := by
  induction cs generalizing lo with
  | nil => by_cases hb : bg = some v <;> simp [cellsPut, cellsRise, hb, ha]
  | cons c cs ih =>
    have h' := h
    simp only [cellsRise, Bool.and_eq_true, decide_eq_true_eq] at h
    by_cases hlt : a < c.1
    · by_cases hb : bg = some v
      · simpa [cellsPut, hlt, hb] using h'
      · simp only [cellsPut, hlt, hb, if_true, if_false, cellsRise, Bool.and_eq_true, decide_eq_true_eq]
        exact ⟨ha, by omega, h.2⟩
    · by_cases he : a = c.1
      · by_cases hb : bg = some v
        · simp only [cellsPut, he, hb, if_true, if_false, Nat.lt_irrefl]
          exact cellsRise_mono (by omega) h.2
        · simp only [cellsPut, he, hb, if_true, if_false, Nat.lt_irrefl, cellsRise, Bool.and_eq_true,
            decide_eq_true_eq]
          exact ⟨h.1, h.2⟩
      · simp only [cellsPut, hlt, he, if_false, cellsRise, Bool.and_eq_true, decide_eq_true_eq]
        exact ⟨h.1, ih h.2 (by omega)⟩

/-- What can be listed after a write. -/
theorem mem_cellsPut {a : Nat} {bg : Option Byte} {v : Byte} {cs : List Host.Cell} {e : Host.Cell}
    (h : e ∈ cellsPut bg a v cs) : (e = (a, v) ∧ bg ≠ some v) ∨ e ∈ cs := by
  induction cs with
  | nil =>
    by_cases hb : bg = some v
    · simp [cellsPut, hb] at h
    · simp only [cellsPut, hb, if_false, List.mem_singleton] at h; exact .inl ⟨h, hb⟩
  | cons c cs ih =>
    by_cases hlt : a < c.1
    · by_cases hb : bg = some v
      · simp only [cellsPut, hlt, hb, if_true] at h; exact .inr h
      · simp only [cellsPut, hlt, hb, if_true, if_false, List.mem_cons] at h
        rcases h with h | h | h
        · exact .inl ⟨h, hb⟩
        · exact .inr (by simp [h])
        · exact .inr (by simp [h])
    · by_cases he : a = c.1
      · by_cases hb : bg = some v
        · simp only [cellsPut, he, hb, if_true, if_false, Nat.lt_irrefl] at h
          exact .inr (List.mem_cons_of_mem _ h)
        · rw [cellsPut, if_neg hlt, if_pos he, if_neg hb, List.mem_cons] at h
          rcases h with h | h
          · exact .inl ⟨h, hb⟩
          · exact .inr (List.mem_cons_of_mem _ h)
      · simp only [cellsPut, hlt, he, if_false, List.mem_cons] at h
        rcases h with h | h
        · exact .inr (by simp [h])
        · rcases ih h with h | h
          · exact .inl h
          · exact .inr (List.mem_cons_of_mem _ h)

/-! ## Buffers -/

theorem buffer_wf_iff {b : Buffer} :
    b.wf = true ↔ cellsRise 0 b.cells = true ∧ ∀ c ∈ b.cells, c.1 < b.len ∧ c.2 ≠ 0 := by
  simp [Buffer.wf, List.all_eq_true]

/-- The bytes placed by `Buffer.place` keep the canonical form. -/
theorem buffer_wf_place {b : Buffer} {a : Nat} {vs : List Byte} (h : b.wf = true) :
    (b.place a vs).wf = true := by
  induction vs generalizing a b with
  | nil => exact h
  | cons v vs ih =>
    apply ih
    rw [buffer_wf_iff] at h ⊢
    refine ⟨cellsRise_put h.1 (Nat.zero_le a), fun c hc => ?_⟩
    rcases mem_cellsPut hc with ⟨rfl, hv⟩ | hc
    · exact ⟨by simp, fun e => hv (by simpa using e.symm)⟩
    · exact ⟨Nat.lt_of_lt_of_le (h.2 c hc).1 (Nat.le_max_left _ _), (h.2 c hc).2⟩

theorem cellsOf_zero {v : Byte} {vs : List Byte} {a : Nat} (hv : v = 0) :
    cellsOf a (v :: vs) = cellsOf (a + 1) vs := if_pos hv

theorem cellsOf_nonzero {v : Byte} {vs : List Byte} {a : Nat} (hv : v ≠ 0) :
    cellsOf a (v :: vs) = (a, v) :: cellsOf (a + 1) vs := if_neg hv

theorem cellsOf_spec (vs : List Byte) (a : Nat) :
    cellsRise a (cellsOf a vs) = true ∧ ∀ c ∈ cellsOf a vs, c.1 < a + vs.length ∧ c.2 ≠ 0 := by
  induction vs generalizing a with
  | nil => simp [cellsOf, cellsRise]
  | cons v vs ih =>
    obtain ⟨hr, hc⟩ := ih (a + 1)
    by_cases hv : v = 0
    · rw [cellsOf_zero hv]
      exact ⟨cellsRise_mono (Nat.le_succ a) hr, fun c h =>
        ⟨by have := (hc c h).1; simp only [List.length_cons]; omega, (hc c h).2⟩⟩
    · rw [cellsOf_nonzero hv]
      refine ⟨by simp [cellsRise, hr], fun c h => ?_⟩
      rcases List.mem_cons.1 h with rfl | h
      · exact ⟨by simp, hv⟩
      · exact ⟨by have := (hc c h).1; simp only [List.length_cons]; omega, (hc c h).2⟩

/-- A loaded memory is in canonical form. -/
theorem buffer_wf_ofBytes (vs : List Byte) : (Buffer.ofBytes vs).wf = true := by
  rw [buffer_wf_iff]
  have := cellsOf_spec vs 0
  exact ⟨this.1, fun c hc => by simpa [Buffer.ofBytes] using this.2 c hc⟩

theorem cellsGet_cellsOf (vs : List Byte) (a i : Nat) :
    (cellsGet (cellsOf a vs) (a + i)).getD 0 = vs.getD i 0 := by
  induction vs generalizing a i with
  | nil => simp [cellsOf, cellsGet]
  | cons v vs ih =>
    have hlow : cellsGet (cellsOf (a + 1) vs) a = none :=
      cellsGet_below (cellsOf_spec vs (a + 1)).1 (by omega)
    cases i with
    | zero =>
      by_cases hv : v = 0
      · rw [cellsOf_zero hv, show a + 0 = a from rfl, hlow]
        simp [hv]
      · rw [cellsOf_nonzero hv]
        simp [cellsGet]
    | succ i =>
      have hi := ih (a + 1) i
      rw [show a + 1 + i = a + (i + 1) by omega] at hi
      by_cases hv : v = 0
      · rw [cellsOf_zero hv, hi]
        rfl
      · have hne : a ≠ a + (i + 1) := by omega
        rw [cellsOf_nonzero hv]
        simp only [cellsGet, hne, if_false, hi]
        rfl

/-- A loaded memory holds the bytes it was loaded with (70_reset_and_hazards.md R282). -/
theorem buffer_at_ofBytes (vs : List Byte) (i : Nat) : (Buffer.ofBytes vs).at i = vs.getD i 0 := by
  simpa [Buffer.at, Buffer.ofBytes] using cellsGet_cellsOf vs 0 i

/-- `MemRead(a, 1)` answers a byte exactly below the length. -/
theorem buffer_read_eq_some {b : Buffer} {a : Nat} {v : Byte} :
    b.read a = some v ↔ a < b.len ∧ v = b.at a := by
  unfold Buffer.read
  split <;> rename_i h <;> simp [h, eq_comm]

theorem buffer_read_eq_none {b : Buffer} {a : Nat} : b.read a = none ↔ b.len ≤ a := by
  unfold Buffer.read
  split <;> rename_i h
  · simp; omega
  · simp; omega

/-- A pair is read exactly when both its bytes lie below the length. -/
theorem buffer_readPair_eq_some {b : Buffer} {a : Nat} {p : Pair} :
    b.readPair a = some p ↔ a + 1 < b.len ∧ p = { lo := b.at a, hi := b.at (a + 1) } := by
  unfold Buffer.readPair
  split <;> rename_i h <;> simp [h, eq_comm]

theorem buffer_readPair_eq_none {b : Buffer} {a : Nat} : b.readPair a = none ↔ b.len ≤ a + 1 := by
  unfold Buffer.readPair
  split <;> rename_i h
  · simp; omega
  · simp; omega

/-! ## Canvas -/

theorem canvas_wf_iff {c : Canvas} :
    c.wf = true ↔ cellsRise 0 c.cells = true ∧
      ∀ e ∈ c.cells, e.1 < canvasBytes ∧ c.unlisted e.1 ≠ some e.2 := by
  simp [Canvas.wf, List.all_eq_true]

@[simp] theorem canvas_put_unlisted (c : Canvas) (a b : Nat) (v : Byte) :
    (c.put a v).unlisted b = c.unlisted b := rfl

/-- A write of one canvas byte keeps the canonical form. -/
theorem canvas_wf_put {c : Canvas} {a : Nat} {v : Byte} (h : c.wf = true) (ha : a < canvasBytes) :
    (c.put a v).wf = true := by
  rw [canvas_wf_iff] at h ⊢
  refine ⟨cellsRise_put h.1 (Nat.zero_le a), fun e he => ?_⟩
  rcases mem_cellsPut he with ⟨rfl, hv⟩ | he
  · exact ⟨ha, hv⟩
  · exact h.2 e he

theorem pixelAddr_lt {x y : Nat} (hx : x < Config.canvasW) (hy : y < Config.canvasH) :
    pixelAddr x y + 2 < canvasBytes := by
  simp only [pixelAddr, canvasBytes, Config.canvasW, Config.canvasH] at *; omega

/-- A pixel written inside the canvas keeps the canonical form. -/
theorem canvas_wf_setPixel {c : Canvas} {x y : Nat} {col : Colour} (h : c.wf = true)
    (hx : x < Config.canvasW) (hy : y < Config.canvasH) : (c.setPixel x y col).wf = true := by
  have := pixelAddr_lt hx hy
  exact canvas_wf_put (canvas_wf_put (canvas_wf_put h (by omega)) (by omega)) (by omega)

theorem canvas_wf_filled (col : Colour) : (Canvas.filled col).wf = true := rfl

/-- Reading a canvas byte after writing it. -/
theorem canvas_get_put_self {c : Canvas} {a : Nat} {v : Byte} (h : cellsRise 0 c.cells = true) :
    (c.put a v).get a = some v := by
  unfold Canvas.get
  simp only [canvas_put_unlisted]
  rw [show (c.put a v).cells = cellsPut (c.unlisted a) a v c.cells from rfl, cellsGet_put_self h]
  by_cases hb : c.unlisted a = some v <;> simp [hb]

/-- Writing a canvas byte leaves every other one alone. -/
theorem canvas_get_put_other {c : Canvas} {a b : Nat} {v : Byte} (hab : a ≠ b) :
    (c.put a v).get b = c.get b := by
  unfold Canvas.get
  simp only [canvas_put_unlisted]
  rw [show (c.put a v).cells = cellsPut (c.unlisted a) a v c.cells from rfl, cellsGet_put_other hab]

theorem canvas_rise_put {c : Canvas} {a : Nat} {v : Byte} (h : cellsRise 0 c.cells = true) :
    cellsRise 0 (c.put a v).cells = true := cellsRise_put h (Nat.zero_le a)

theorem canvas_rise_setPixel {c : Canvas} {x y : Nat} {col : Colour}
    (h : cellsRise 0 c.cells = true) : cellsRise 0 (c.setPixel x y col).cells = true :=
  canvas_rise_put (canvas_rise_put (canvas_rise_put h))

/-- Reading a pixel after writing it. -/
theorem canvas_pixel_setPixel_self {c : Canvas} {x y : Nat} {col : Colour}
    (h : cellsRise 0 c.cells = true) : (c.setPixel x y col).pixel x y = some col := by
  have h1 := canvas_rise_put (a := pixelAddr x y) (v := col.r) h
  have h2 := canvas_rise_put (a := pixelAddr x y + 1) (v := col.g) h1
  have e0 : (c.setPixel x y col).get (pixelAddr x y) = some col.r := by
    unfold Canvas.setPixel
    rw [canvas_get_put_other (by omega), canvas_get_put_other (by omega), canvas_get_put_self h]
  have e1 : (c.setPixel x y col).get (pixelAddr x y + 1) = some col.g := by
    unfold Canvas.setPixel
    rw [canvas_get_put_other (by omega), canvas_get_put_self h1]
  have e2 : (c.setPixel x y col).get (pixelAddr x y + 2) = some col.b := by
    unfold Canvas.setPixel
    rw [canvas_get_put_self h2]
  simp [Canvas.pixel, e0, e1, e2]

/-- Writing a pixel leaves every byte outside it alone. -/
theorem canvas_get_setPixel_other {c : Canvas} {x y a : Nat} {col : Colour}
    (h : a < pixelAddr x y ∨ pixelAddr x y + 2 < a) : (c.setPixel x y col).get a = c.get a := by
  unfold Canvas.setPixel
  rw [canvas_get_put_other (by omega), canvas_get_put_other (by omega), canvas_get_put_other (by omega)]

/-- Writing a pixel leaves every other pixel inside the canvas' width alone. -/
theorem canvas_pixel_setPixel_other {c : Canvas} {x y x' y' : Nat} {col : Colour}
    (hx : x < Config.canvasW) (hx' : x' < Config.canvasW) (h : x ≠ x' ∨ y ≠ y') :
    (c.setPixel x y col).pixel x' y' = c.pixel x' y' := by
  have hne : pixelAddr x' y' + 2 < pixelAddr x y ∨ pixelAddr x y + 2 < pixelAddr x' y' := by
    simp only [pixelAddr, Config.canvasW] at *; omega
  unfold Canvas.pixel
  rw [canvas_get_setPixel_other (by omega), canvas_get_setPixel_other (by omega),
    canvas_get_setPixel_other (by omega)]

/-! ## Building list -/

theorem blistCells_rise (ps : List Placement) (i : Nat) :
    cellsRise (3 * i) (blistCells i ps) = true := by
  induction ps generalizing i with
  | nil => rfl
  | cons p ps ih =>
    have h : cellsRise (3 * i + 2 + 1) (blistCells (i + 1) ps) = true :=
      cellsRise_mono (by omega) (ih (i + 1))
    simp [blistCells, cellsRise, h]

theorem blistWf_blistCells (ps : List Placement) : blistWf (blistCells 0 ps) = true := by
  simpa [blistWf] using blistCells_rise ps 0

theorem blistWf_put {cells : List Host.Cell} {a : Nat} {b : Byte} (h : blistWf cells = true) :
    blistWf (cellsPut none a b cells) = true := cellsRise_put h (Nat.zero_le a)

end Sys2Proof.Machine
end

