-- ==== Sys2Proof/Laws/Painting.lean ====
section
/-! SUPPORT. Said once for every painter: all it can do to a surface is write whole pixels inside the
canvas and raise anomaly bits (45_compositor.md R211, R223). A property that these keep is kept by every
tile, grid, building and layer. -/

namespace Sys2Proof.Machine

/-- A property of surfaces that every pixel written inside the canvas keeps and every raised bit keeps. -/
structure PaintKeeps (P : Surface → Prop) : Prop where
  pixel : ∀ (f : Surface) (x y : Nat) (col : Colour), x < Config.canvasW → y < Config.canvasH → P f →
    P { f with canvas := f.canvas.setPixel x y col }
  raise : ∀ (f : Surface) (a : Anomaly), P f → P { f with anom := raiseBit f.anom a }

/-- The same for a painter that stays in the square of eight pixels from `(px, py)`. -/
structure SquareKeeps (px py : Int) (P : Surface → Prop) : Prop where
  pixel : ∀ (f : Surface) (x y : Nat) (col : Colour), x < Config.canvasW → y < Config.canvasH →
    px ≤ x → (x : Int) < px + 8 → py ≤ y → (y : Int) < py + 8 → P f →
    P { f with canvas := f.canvas.setPixel x y col }
  raise : ∀ (f : Surface) (a : Anomaly), P f → P { f with anom := raiseBit f.anom a }

theorem PaintKeeps.square {P : Surface → Prop} (h : PaintKeeps P) (px py : Int) : SquareKeeps px py P :=
  ⟨fun f x y col hx hy _ _ _ _ hf => h.pixel f x y col hx hy hf, h.raise⟩

theorem mem_tilePixels {t : Nat × Nat} : t ∈ tilePixels ↔ t.1 < 8 ∧ t.2 < 8 := by
  obtain ⟨tx, ty⟩ := t
  simp only [tilePixels, List.mem_flatMap, List.mem_map, List.mem_range, Prod.mk.injEq]
  constructor
  · rintro ⟨y, hy, x, hx, rfl, rfl⟩; exact ⟨hx, hy⟩
  · rintro ⟨hx, hy⟩; exact ⟨ty, hy, tx, hx, rfl, rfl⟩

theorem foldl_keeps {α β : Type} {P : α → Prop} {g : α → β → α} (l : List β)
    (h : ∀ a b, b ∈ l → P a → P (g a b)) (a : α) (ha : P a) : P (l.foldl g a) := by
  induction l generalizing a with
  | nil => exact ha
  | cons b l ih =>
    exact ih (fun a c hc => h a c (List.mem_cons_of_mem _ hc)) _ (h a b (List.mem_cons_self ..) ha)

theorem paintPixel_keeps {e : Env} {code : BitVec 11} {xf yf : BitVec 1} {pal px py : Int}
    {tx ty : Nat} {P : Surface → Prop} (h : SquareKeeps px py P) (hx : tx < 8) (hy : ty < 8)
    {f : Surface} (hf : P f) : P (paintPixel e code xf yf pal px py tx ty f) := by
  unfold paintPixel
  simp only
  split
  · rename_i hin
    obtain ⟨h1, h2, h3, h4⟩ := hin
    have hpix : ∀ (g : Surface) (col : Colour), P g →
        P { g with canvas := g.canvas.setPixel (px + tx).toNat (py + ty).toNat col } := by
      intro g col hg
      refine h.pixel g _ _ col ?_ ?_ ?_ ?_ ?_ ?_ hg <;> simp only [Config.canvasW, Config.canvasH] at * <;>
        omega
    split
    · exact hf
    · split
      · exact hpix f _ hf
      · exact h.raise _ .badPal (hpix f _ hf)
  · exact hf

theorem paint_keeps {e : Env} {code : BitVec 11} {xf yf : BitVec 1} {pal px py : Int}
    {P : Surface → Prop} (h : SquareKeeps px py P) {f : Surface} (hf : P f) :
    P (paint e code xf yf pal px py f) := by
  unfold paint
  split
  · exact h.raise _ _ hf
  · exact foldl_keeps _ (fun g t ht hg =>
      paintPixel_keeps h (mem_tilePixels.1 ht).1 (mem_tilePixels.1 ht).2 hg) _ hf

theorem paintCell_keeps {e : Env} {row0 k : Nat} {w : Half} {P : Surface → Prop}
    (h : row0 + k / 32 < 30 → SquareKeeps ((k % 32 * 8 : Nat) : Int) (((row0 + k / 32) * 8 : Nat) : Int) P)
    {f : Surface} (hf : P f) : P (paintCell e row0 k w f) := by
  by_cases hr : row0 + k / 32 < 30
  · have e : paintCell e row0 k w f = paint e (awd w).code (awd w).xf (awd w).yf
        ((awd w).pal.toNat : Int) ((k % 32 * 8 : Nat) : Int) (((row0 + k / 32) * 8 : Nat) : Int) f :=
      if_pos hr
    rw [e]
    exact paint_keeps (h hr) hf
  · have e : paintCell e row0 k w f = f := if_neg hr
    rw [e]
    exact hf

/-- A grid stays in its cells: from word `k` on, rows `row0 + k div 32` and below, inside the canvas. -/
theorem paintGrid_keeps {e : Env} {row0 : Nat} {P : Surface → Prop} (ws : List Half) (k : Nat)
    (h : ∀ j, k ≤ j → j < k + ws.length → row0 + j / 32 < 30 →
      SquareKeeps ((j % 32 * 8 : Nat) : Int) (((row0 + j / 32) * 8 : Nat) : Int) P)
    (f : Surface) (hf : P f) : P (paintGrid e row0 k ws f) := by
  induction ws generalizing k f with
  | nil => exact hf
  | cons w ws ih =>
    refine ih (k + 1) (fun j hj hj' => h j (by omega) (by simp only [List.length_cons]; omega)) _ ?_
    exact paintCell_keeps (h k (Nat.le_refl k) (by simp)) hf

theorem paintBuilding_keeps {e : Env} {off : Nat} {w h m xc pc : Byte} {P : Surface → Prop}
    (hP : PaintKeeps P) {f : Surface} (hf : P f) : P (paintBuilding e off w h m xc pc f) :=
  foldl_keeps _ (fun _ _ _ hg => paint_keeps (hP.square _ _) hg) _ hf

theorem drawBody_keeps {e : Env} {off : Nat} {m xc pc : Byte} {P : Surface → Prop}
    (hP : PaintKeeps P) {f : Surface} (hf : P f) : P (drawBody e off m xc pc f).surface := by
  unfold drawBody
  split
  · exact hP.raise _ _ hf
  · exact paintBuilding_keeps hP hf

theorem drawOne_keeps {e : Env} {p : Placement} {P : Surface → Prop} (hP : PaintKeeps P)
    {f : Surface} (hf : P f) : P (drawOne e p f).surface := by
  unfold drawOne
  split
  · exact hP.raise _ _ hf
  · split
    · exact hP.raise _ _ hf
    · exact drawBody_keeps hP hf

theorem drawBuildings_keeps {e : Env} {P : Surface → Prop} (hP : PaintKeeps P) (ps : List Placement)
    (f : Surface) (n : Nat) (hf : P f) : P (drawBuildings e ps f n).1 := by
  induction ps generalizing f n with
  | nil => exact hf
  | cons p ps ih => exact ih _ _ (drawOne_keeps hP hf)

theorem raiseIfPartial_keeps {P : Surface → Prop} (hr : ∀ (f : Surface) (a : Anomaly), P f →
    P { f with anom := raiseBit f.anom a }) (o : OpOutcome) {f : Surface} (hf : P f) :
    P { f with anom := raiseIfPartial f.anom o } := by
  cases o
  · exact hf
  · exact hr f .trunc hf
  · exact hf
  · exact hf
  · exact hf

theorem layerStream_keeps {e : Env} {row0 off : Nat} {P : Surface → Prop} (hP : PaintKeeps P)
    {f : Surface} (hf : P f) : P (layerStream e row0 off f).surface :=
  raiseIfPartial_keeps hP.raise _ (paintGrid_keeps _ _ (fun _ _ _ _ => hP.square _ _) _ hf)

theorem layerBg_keeps {e : Env} {nbld : Nat} {bgsel : BitVec 4} {P : Surface → Prop}
    (hP : PaintKeeps P) {f : Surface} (hf : P f) : P (layerBg e nbld bgsel f).surface := by
  unfold layerBg
  split
  · exact hf
  · split
    · exact hP.raise _ _ hf
    · exact layerStream_keeps hP hf

theorem layerSky_keeps {e : Env} {P : Surface → Prop} (hP : PaintKeeps P) {f : Surface} (hf : P f) :
    P (layerSky e f).surface := by
  unfold layerSky
  split
  · exact hP.raise _ _ hf
  · exact raiseIfPartial_keeps hP.raise _ (paintGrid_keeps _ _ (fun _ _ _ _ => hP.square _ _) _ hf)

theorem layerFol_keeps {e : Env} {folsel : Byte} {P : Surface → Prop} (hP : PaintKeeps P)
    {f : Surface} (hf : P f) : P (layerFol e folsel f).surface := by
  unfold layerFol
  split
  · exact hP.raise _ _ hf
  · split
    · exact hP.raise _ _ hf
    · exact paintGrid_keeps _ _ (fun _ _ _ _ => hP.square _ _) _ hf

theorem layerBld_keeps {e : Env} {ps : List Placement} {P : Surface → Prop} (hP : PaintKeeps P)
    {f : Surface} (hf : P f) : P (layerBld e ps f).surface := drawBuildings_keeps hP ps f 0 hf

theorem layerTer_keeps {e : Env} {tersel : Byte} {P : Surface → Prop} (hP : PaintKeeps P)
    {f : Surface} (hf : P f) : P (layerTer e tersel f).surface := by
  unfold layerTer
  split
  · exact hP.raise _ _ hf
  · exact layerStream_keeps hP hf

/-- Painting keeps the canvas in canonical form. -/
theorem paintKeeps_canvas_wf : PaintKeeps (fun f => f.canvas.wf = true) :=
  ⟨fun _ _ _ _ hx hy hf => canvas_wf_setPixel hf hx hy, fun _ _ hf => hf⟩

theorem raiseBit_keeps (anom : BitVec 4) (a : Anomaly) : anom &&& raiseBit anom a = anom := by
  cases a <;> revert anom <;> decide

end Sys2Proof.Machine
end

