-- ==== Sys2Proof/Laws/Anomalies.lean ====
section
/-! SUPPORT. What painting one tile does to `ANOM`, said once (45_compositor.md R211; 60_exceptions.md
R251): it raises `BADTILE` exactly if the bank lacks the tile, `BADPAL` exactly if a visible pixel of a tile
it holds has no palette entry, and no other bit. -/

namespace Sys2Proof.Machine

/-- `b` is `a` with `BADTILE` raised exactly if `T`, `BADPAL` exactly if `P`, and nothing else. -/
structure AnomAdds (T P : Prop) (a b : BitVec 4) : Prop where
  trunc : b.getLsbD 0 = a.getLsbD 0
  badSel : b.getLsbD 1 = a.getLsbD 1
  badTile : b.getLsbD 2 = true ↔ a.getLsbD 2 = true ∨ T
  badPal : b.getLsbD 3 = true ↔ a.getLsbD 3 = true ∨ P

theorem AnomAdds.refl (a : BitVec 4) : AnomAdds False False a a :=
  ⟨rfl, rfl, (iff_of_eq (or_false _)).symm, (iff_of_eq (or_false _)).symm⟩

theorem AnomAdds.trans {T P T' P' : Prop} {a b c : BitVec 4} (h : AnomAdds T P a b)
    (h' : AnomAdds T' P' b c) : AnomAdds (T ∨ T') (P ∨ P') a c :=
  ⟨h'.trunc.trans h.trunc, h'.badSel.trans h.badSel,
    h'.badTile.trans ((or_congr_left h.badTile).trans or_assoc),
    h'.badPal.trans ((or_congr_left h.badPal).trans or_assoc)⟩

theorem AnomAdds.congr {T P T' P' : Prop} {a b : BitVec 4} (h : AnomAdds T P a b) (hT : T ↔ T')
    (hP : P ↔ P') : AnomAdds T' P' a b :=
  ⟨h.trunc, h.badSel, h.badTile.trans (or_congr_right hT), h.badPal.trans (or_congr_right hP)⟩

theorem raise_badTile_adds (a : BitVec 4) : AnomAdds True False a (raiseBit a .badTile) := by
  constructor <;> revert a <;> decide

theorem raise_badPal_adds (a : BitVec 4) : AnomAdds False True a (raiseBit a .badPal) := by
  constructor <;> revert a <;> decide

theorem nibbleOf_toNat (b : Byte) (x : Nat) :
    (nibbleOf b x).toNat = if x % 2 = 0 then b.toNat / 16 else b.toNat % 16 := by
  have hi : ∀ b : Byte, (b.extractLsb' 4 4).toNat = b.toNat / 16 := by decide +kernel
  have lo : ∀ b : Byte, (b.extractLsb' 0 4).toNat = b.toNat % 16 := by decide +kernel
  unfold nibbleOf
  split
  · exact hi b
  · exact lo b

/-- What painting one pixel of a tile that the bank holds does. -/
theorem paintPixel_eq {e : Env} {code : BitVec 11} {xf yf : BitVec 1} {pal px py : Int} {tx ty : Nat}
    {f : Surface} (hc : code.toNat < e.tile.len / 32) (hx : tx < 8) (hy : ty < 8) :
    paintPixel e code xf yf pal px py tx ty f =
      if 0 ≤ px + tx ∧ px + tx < 256 ∧ 0 ≤ py + ty ∧ py + ty < 240 then
        { canvas := f.canvas.setPixel (px + tx).toNat (py + ty).toNat
            (shownColour e (shownOffset e code.toNat xf yf pal tx ty))
          anom := if paletteHas e (shownOffset e code.toNat xf yf pal tx ty) then f.anom
            else raiseBit f.anom .badPal }
      else f := by
  have hs : sample8 e.tile code.toNat tx ty xf yf =
      some (tileNibble e.tile (32 * code.toNat) 4 (mirror 7 xf tx) (mirror 7 yf ty)) :=
    if_pos ⟨hc, hx, hy⟩
  have ho : pal * 16 +
      ((tileNibble e.tile (32 * code.toNat) 4 (mirror 7 xf tx) (mirror 7 yf ty)).toNat : Int) =
        shownOffset e code.toNat xf yf pal tx ty := by
    unfold tileNibble
    rw [nibbleOf_toNat]
    rfl
  unfold paintPixel
  simp only [hs, ho]
  refine if_congr Iff.rfl ?_ rfl
  by_cases hp : paletteHas e (shownOffset e code.toNat xf yf pal tx ty)
  · have h1 : palEntry e.pal (shownOffset e code.toNat xf yf pal tx ty) =
        some (shownColour e (shownOffset e code.toNat xf yf pal tx ty)) :=
      (if_pos hp).trans (congrArg some (if_pos hp).symm)
    simp only [h1, if_pos hp]
  · have h1 : palEntry e.pal (shownOffset e code.toNat xf yf pal tx ty) = none := if_neg hp
    have h2 : shownColour e (shownOffset e code.toNat xf yf pal tx ty) = e.par.magenta := if_neg hp
    simp only [h1, h2, if_neg hp]

/-- Pixel `(tx, ty)` of a tile at `(px, py)` is on the canvas and has no palette entry. -/
def LacksEntry (e : Env) (code : Nat) (xf yf : BitVec 1) (pal px py : Int) (tx ty : Nat) : Prop :=
  (0 ≤ px + tx ∧ px + tx < 256 ∧ 0 ≤ py + ty ∧ py + ty < 240) ∧
    ¬ paletteHas e (shownOffset e code xf yf pal tx ty)

theorem paintPixel_adds {e : Env} {code : BitVec 11} {xf yf : BitVec 1} {pal px py : Int} {tx ty : Nat}
    {f : Surface} (hc : code.toNat < e.tile.len / 32) (hx : tx < 8) (hy : ty < 8) :
    AnomAdds False (LacksEntry e code.toNat xf yf pal px py tx ty) f.anom
      (paintPixel e code xf yf pal px py tx ty f).anom := by
  rw [paintPixel_eq hc hx hy]
  by_cases hv : 0 ≤ px + tx ∧ px + tx < 256 ∧ 0 ≤ py + ty ∧ py + ty < 240
  · rw [if_pos hv]
    by_cases hp : paletteHas e (shownOffset e code.toNat xf yf pal tx ty)
    · simp only [if_pos hp]
      exact (AnomAdds.refl _).congr Iff.rfl ⟨False.elim, fun h => h.2 hp⟩
    · simp only [if_neg hp]
      exact (raise_badPal_adds _).congr Iff.rfl ⟨fun _ => ⟨hv, hp⟩, fun _ => trivial⟩
  · rw [if_neg hv]
    exact (AnomAdds.refl _).congr Iff.rfl ⟨False.elim, fun h => hv h.1⟩

theorem foldl_paintPixel_adds {e : Env} {code : BitVec 11} {xf yf : BitVec 1} {pal px py : Int}
    (hc : code.toNat < e.tile.len / 32) (l : List (Nat × Nat)) (hl : ∀ t ∈ l, t.1 < 8 ∧ t.2 < 8)
    (f : Surface) :
    AnomAdds False (∃ t ∈ l, LacksEntry e code.toNat xf yf pal px py t.1 t.2) f.anom
      (l.foldl (fun g t => paintPixel e code xf yf pal px py t.1 t.2 g) f).anom := by
  induction l generalizing f with
  | nil => exact (AnomAdds.refl _).congr Iff.rfl (by simp)
  | cons t l ih =>
    have ht := hl t (List.mem_cons_self ..)
    refine ((paintPixel_adds hc ht.1 ht.2).trans
      (ih (fun u hu => hl u (List.mem_cons_of_mem _ hu)) _)).congr (iff_of_eq (or_false _)) ?_
    simp only [List.mem_cons, exists_eq_or_imp]

/-- What `PAINT` does to `ANOM`. -/
theorem paint_adds {e : Env} {code : BitVec 11} {xf yf : BitVec 1} {pal px py : Int} {f : Surface} :
    AnomAdds (e.tile.len / 32 ≤ code.toNat)
      (code.toNat < e.tile.len / 32 ∧
        ∃ tx ty : Nat, tx < 8 ∧ ty < 8 ∧ LacksEntry e code.toNat xf yf pal px py tx ty)
      f.anom (paint e code xf yf pal px py f).anom := by
  by_cases hc : e.tile.len / 32 ≤ code.toNat
  · have h : paint e code xf yf pal px py f = f.raise .badTile := if_pos hc
    rw [h]
    exact (raise_badTile_adds _).congr ⟨fun _ => hc, fun _ => trivial⟩
      ⟨False.elim, fun h => absurd h.1 (Nat.not_lt.mpr hc)⟩
  · have h : paint e code xf yf pal px py f =
        tilePixels.foldl (fun g t => paintPixel e code xf yf pal px py t.1 t.2 g) f := if_neg hc
    have hc' : code.toNat < e.tile.len / 32 := Nat.not_le.mp hc
    rw [h]
    refine (foldl_paintPixel_adds hc' tilePixels (fun t => mem_tilePixels.1) f).congr
      ⟨False.elim, fun h => hc h⟩ ⟨?_, ?_⟩
    · rintro ⟨t, ht, hp⟩
      exact ⟨hc', t.1, t.2, (mem_tilePixels.1 ht).1, (mem_tilePixels.1 ht).2, hp⟩
    · rintro ⟨_, tx, ty, h1, h2, hp⟩
      exact ⟨(tx, ty), mem_tilePixels.2 ⟨h1, h2⟩, hp⟩

end Sys2Proof.Machine
end

