-- ==== Sys2Proof/Laws/Cursors.lean ====
section
/-! SUPPORT. What one item and one table lookup can do, said once (42_rle_decompressor.md R152 to R155;
44_level_descriptor.md R193 to R196; 43_pointer_tables.md R171). -/

namespace Sys2Proof.Machine

/-! ## Run-length items -/

/-- `RUN` reads its pair or is cut at the byte after its control byte. -/
theorem rleRun_cases (rom : Buffer) (n : Nat) (r : RleCursor) :
    (r.pos + 2 < rom.len ∧ rleRun rom n r =
      { r with
        pos := r.pos + 3
        pairs := r.pairs ++
          List.replicate n { lo := rom.at (r.pos + 1), hi := rom.at (r.pos + 2) &&& 0x3F } }) ∨
    (rom.len ≤ r.pos + 2 ∧
      rleRun rom n r = { r with pos := r.pos + 1, outcome := .partialEnd, ended := true }) := by
  unfold rleRun
  cases h : rom.readPair (r.pos + 1) with
  | none => exact .inr ⟨by have := buffer_readPair_eq_none.1 h; omega, rfl⟩
  | some p =>
    obtain ⟨hl, rfl⟩ := buffer_readPair_eq_some.1 h
    exact .inl ⟨by omega, rfl⟩

/-- What the decompressor's loop relies on: an item of a stream that has not ended ends it or advances
the cursor, and never moves it back or beyond the ROM's end. -/
theorem rlePairs_bounds (rom : Buffer) (n : Nat) (r : RleCursor) (h : r.pos ≤ rom.len) :
    r.pos ≤ (rlePairs rom n r).pos ∧ (rlePairs rom n r).pos ≤ rom.len := by
  induction n generalizing r with
  | zero => exact ⟨Nat.le_refl _, h⟩
  | succ n ih =>
    unfold rlePairs
    cases hp : rom.readPair r.pos with
    | none => exact ⟨Nat.le_refl _, h⟩
    | some p =>
      have hl := (buffer_readPair_eq_some.1 hp).1
      have := ih { r with pos := r.pos + 2, pairs := r.pairs ++ [maskPair p] } (by simp only; omega)
      simp only at this ⊢
      omega

/-- Nothing but the cursor's own fields decides how an item ends: a stream that has not ended and is
`OK` ends `OK` or `PARTIAL`. -/
theorem rlePairs_outcome (rom : Buffer) (n : Nat) (r : RleCursor) :
    (rlePairs rom n r).outcome = r.outcome ∨ (rlePairs rom n r).outcome = .partialEnd := by
  induction n generalizing r with
  | zero => exact .inl rfl
  | succ n ih =>
    unfold rlePairs
    cases hp : rom.readPair r.pos with
    | none => exact .inr rfl
    | some p => exact ih _

theorem rleItem_outcome (rom : Buffer) (r : RleCursor) :
    (rleItem rom r).outcome = r.outcome ∨ (rleItem rom r).outcome = .partialEnd := by
  unfold rleItem
  split
  · exact .inl rfl
  · split
    · exact .inl rfl
    · split
      · exact rlePairs_outcome rom _ _
      · rcases rleRun_cases rom _ r with ⟨_, h⟩ | ⟨_, h⟩
        · exact .inl (by rw [h])
        · exact .inr (by rw [h])

theorem rleLoop_outcome (rom : Buffer) (fuel : Nat) (r : RleCursor) :
    (rleLoop rom fuel r).outcome = r.outcome ∨ (rleLoop rom fuel r).outcome = .partialEnd := by
  induction fuel generalizing r with
  | zero => exact .inl rfl
  | succ fuel ih =>
    unfold rleLoop
    split
    · exact .inl rfl
    · rcases ih (rleItem rom r) with h | h
      · rcases rleItem_outcome rom r with h' | h'
        · exact .inl (h.trans h')
        · exact .inr (h.trans h')
      · exact .inr h

/-- A decompression ends `OK` or `PARTIAL` (R150). -/
theorem rld_outcome (rom : Buffer) (a : Nat) :
    (rld rom a).outcome = .ok ∨ (rld rom a).outcome = .partialEnd :=
  rleLoop_outcome rom _ _

/-! ## Building-list records -/

theorem listItem_outcome (rom : Buffer) (r : ListCursor) :
    (listItem rom r).outcome = r.outcome ∨ (listItem rom r).outcome = .partialEnd := by
  unfold listItem
  split
  · exact .inr rfl
  · split
    · exact .inl rfl
    · split
      · unfold listSkip
        split
        · exact .inr rfl
        · exact .inl rfl
      · unfold listRecord
        split
        · exact .inr rfl
        · exact .inl rfl

theorem listLoop_outcome (rom : Buffer) (fuel : Nat) (r : ListCursor) :
    (listLoop rom fuel r).outcome = r.outcome ∨ (listLoop rom fuel r).outcome = .partialEnd := by
  induction fuel generalizing r with
  | zero => exact .inl rfl
  | succ fuel ih =>
    unfold listLoop
    split
    · exact .inl rfl
    · rcases ih (listItem rom r) with h | h
      · rcases listItem_outcome rom r with h' | h'
        · exact .inl (h.trans h')
        · exact .inr (h.trans h')
      · exact .inr h

/-- A building list ends `OK` or `PARTIAL` (R192). -/
theorem readList_outcome (rom : Buffer) (p : Nat) :
    (readList rom p).outcome = .ok ∨ (readList rom p).outcome = .partialEnd :=
  listLoop_outcome rom _ _

/-! ## Pointer tables -/

/-- Everything `RESOLVE` can answer, and when (R171). -/
theorem resolve_cases (rom : Buffer) (b stride : Nat) (s : Int) (valid : Bool) :
    (valid = false ∧ resolve rom b stride s valid = .skip .badSel) ∨
    (valid = true ∧ rom.len ≤ b + s.toNat * stride + 1 ∧
      resolve rom b stride s valid = .skip .trunc) ∨
    (valid = true ∧ b + s.toNat * stride + 1 < rom.len ∧
      rom.len ≤ (rom.at (b + s.toNat * stride + 1) ++ rom.at (b + s.toNat * stride)).toNat ∧
      resolve rom b stride s valid = .skip .badSel) ∨
    (valid = true ∧ b + s.toNat * stride + 1 < rom.len ∧
      (rom.at (b + s.toNat * stride + 1) ++ rom.at (b + s.toNat * stride)).toNat < rom.len ∧
      resolve rom b stride s valid =
        .found (rom.at (b + s.toNat * stride + 1) ++ rom.at (b + s.toNat * stride)).toNat) := by
  unfold resolve tableEntry Buffer.readWord
  cases valid with
  | false => exact .inl ⟨rfl, rfl⟩
  | true =>
    right
    cases h : rom.readPair (b + s.toNat * stride) with
    | none => exact .inl ⟨rfl, buffer_readPair_eq_none.1 h, rfl⟩
    | some p =>
      obtain ⟨hl, rfl⟩ := buffer_readPair_eq_some.1 h
      right
      by_cases hv : rom.len ≤ (rom.at (b + s.toNat * stride + 1) ++ rom.at (b + s.toNat * stride)).toNat
      · exact .inl ⟨rfl, hl, hv, by simp [pairWord, hv]⟩
      · exact .inr ⟨rfl, hl, by omega, by simp [pairWord, hv]⟩

end Sys2Proof.Machine
end

