-- ==== Sys2Proof/Laws/Layers.lean ====
section
/-! SUPPORT. Which outcomes a layer can answer (45_compositor.md R225), and what drawing one building can
do (R218). -/

namespace Sys2Proof.Machine

theorem layerStream_outcome (e : Env) (row0 off : Nat) (f : Surface) :
    (layerStream e row0 off f).outcome = .ok ∨ (layerStream e row0 off f).outcome = .partialEnd :=
  rld_outcome e.rom off

theorem layerBg_outcome (e : Env) (nbld : Nat) (bgsel : BitVec 4) (f : Surface) :
    (layerBg e nbld bgsel f).outcome = .ok ∨ (layerBg e nbld bgsel f).outcome = .partialEnd ∨
      (layerBg e nbld bgsel f).outcome = .skipped := by
  unfold layerBg
  split
  · exact .inr (.inr rfl)
  · split
    · exact .inr (.inr rfl)
    · exact (layerStream_outcome ..).imp_right .inl

theorem layerSky_outcome (e : Env) (f : Surface) :
    (layerSky e f).outcome = .ok ∨ (layerSky e f).outcome = .partialEnd ∨
      (layerSky e f).outcome = .skipped := by
  unfold layerSky
  split
  · exact .inr (.inr rfl)
  · simp only [skyOutcome]
    split
    · exact .inr (.inl rfl)
    · exact .inl rfl

theorem layerFol_outcome (e : Env) (folsel : Byte) (f : Surface) :
    (layerFol e folsel f).outcome = .ok ∨ (layerFol e folsel f).outcome = .skipped := by
  unfold layerFol
  split
  · exact .inr rfl
  · split
    · exact .inr rfl
    · exact .inl rfl

theorem layerBld_outcome (e : Env) (ps : List Placement) (f : Surface) :
    (layerBld e ps f).outcome = .ok ∨ (layerBld e ps f).outcome = .partialEnd := by
  simp only [layerBld, buildingsOutcome]
  split
  · exact .inl rfl
  · exact .inr rfl

theorem layerTer_outcome (e : Env) (tersel : Byte) (f : Surface) :
    (layerTer e tersel f).outcome = .ok ∨ (layerTer e tersel f).outcome = .partialEnd ∨
      (layerTer e tersel f).outcome = .skipped := by
  unfold layerTer
  split
  · exact .inr (.inr rfl)
  · exact (layerStream_outcome ..).imp_right .inl

/-- A body is skipped if its declared size does not fit, else painted (R218). -/
theorem drawBody_cases (e : Env) (off : Nat) (m xc pc : Byte) (f : Surface) :
    (e.rom.len < off + buildingSize m (e.rom.at off) (e.rom.at (off + 1)) ∧
      drawBody e off m xc pc f = buildingSkipped .badSel f) ∨
    (off + buildingSize m (e.rom.at off) (e.rom.at (off + 1)) ≤ e.rom.len ∧
      drawBody e off m xc pc f =
        { surface := paintBuilding e off (e.rom.at off) (e.rom.at (off + 1)) m xc pc f
          painted := true }) := by
  unfold drawBody
  split
  · exact .inl ⟨by assumption, rfl⟩
  · exact .inr ⟨by omega, rfl⟩

end Sys2Proof.Machine
end

