-- ==== Sys2Proof/Laws/PerInstr.lean ====
section
/-! SUPPORT. The family `EncodeShape`: how many bytes the encoding of each instruction has. -/

namespace Sys2Proof.Laws.EncodeShape

/-- An attribute word is encoded in two bytes, every other instruction's selecting part in one
(30_encoding.md R91, R93, R97, R99, R113). -/
def Statement (i : Instr) : Prop := (encode i).length = if i.format = .aw then 2 else 1

theorem aw (h : BitVec 1) (p : BitVec 2) (y x : BitVec 1) (l : BitVec 10) : Statement (.aw h p y x l) := rfl
theorem endItem : Statement .endItem := rfl
theorem lit (n : BitVec 7) : Statement (.lit n) := rfl
theorem run (n : BitVec 7) : Statement (.run n) := rfl
theorem bend : Statement .bend := rfl
theorem bskipLow (m : BitVec 1) : Statement (.bskipLow m) := rfl
theorem bskipHigh (m : BitVec 1) : Statement (.bskipHigh m) := rfl
theorem brec (id : Byte) : Statement (.brec id) := rfl
theorem tw16 : Statement .tw16 := rfl
theorem tw8 (m : Byte) : Statement (.tw8 m) := rfl
theorem awdec : Statement .awdec := rfl
theorem samp8 : Statement .samp8 := rfl
theorem samp32 : Statement .samp32 := rfl
theorem rld : Statement .rld := rfl
theorem rsvlvl : Statement .rsvlvl := rfl
theorem rsvbg : Statement .rsvbg := rfl
theorem rsvter : Statement .rsvter := rfl
theorem rsvfol : Statement .rsvfol := rfl
theorem rsvbld : Statement .rsvbld := rfl
theorem ldlvl : Statement .ldlvl := rfl
theorem paint8 : Statement .paint8 := rfl
theorem clear : Statement .clear := rfl
theorem drawbg : Statement .drawbg := rfl
theorem drawsky : Statement .drawsky := rfl
theorem drawfol : Statement .drawfol := rfl
theorem drawbld : Statement .drawbld := rfl
theorem drawter : Statement .drawter := rfl
theorem composed : Statement .composed := rfl
theorem compose : Statement .compose := rfl
theorem badop (v : Byte) : Statement (.badop v) := rfl

end Sys2Proof.Laws.EncodeShape
end

