-- ==== Sys2Proof/Laws/State.lean ====
section
/-! SUPPORT. What each named update of the state leaves in each field, so that no proof unfolds a record
update. An update's fields that its definition does not name are the state's own. -/

namespace Sys2Proof.Machine


/-! ## `State.raise` -/

@[simp] theorem State.raise_status (s : State) (a : Anomaly) : (s.raise a).status = s.status := rfl
@[simp] theorem State.raise_rejCause (s : State) (a : Anomaly) : (s.raise a).rejCause = s.rejCause := rfl
@[simp] theorem State.raise_anom (s : State) (a : Anomaly) : (s.raise a).anom = raiseBit s.anom a := rfl
@[simp] theorem State.raise_lstat1 (s : State) (a : Anomaly) : (s.raise a).lstat1 = s.lstat1 := rfl
@[simp] theorem State.raise_lstat2 (s : State) (a : Anomaly) : (s.raise a).lstat2 = s.lstat2 := rfl
@[simp] theorem State.raise_lstat3 (s : State) (a : Anomaly) : (s.raise a).lstat3 = s.lstat3 := rfl
@[simp] theorem State.raise_lstat4 (s : State) (a : Anomaly) : (s.raise a).lstat4 = s.lstat4 := rfl
@[simp] theorem State.raise_lstat5 (s : State) (a : Anomaly) : (s.raise a).lstat5 = s.lstat5 := rfl
@[simp] theorem State.raise_word (s : State) (a : Anomaly) : (s.raise a).word = s.word := rfl
@[simp] theorem State.raise_code (s : State) (a : Anomaly) : (s.raise a).code = s.code := rfl
@[simp] theorem State.raise_xf (s : State) (a : Anomaly) : (s.raise a).xf = s.xf := rfl
@[simp] theorem State.raise_yf (s : State) (a : Anomaly) : (s.raise a).yf = s.yf := rfl
@[simp] theorem State.raise_pali (s : State) (a : Anomaly) : (s.raise a).pali = s.pali := rfl
@[simp] theorem State.raise_tx (s : State) (a : Anomaly) : (s.raise a).tx = s.tx := rfl
@[simp] theorem State.raise_ty (s : State) (a : Anomaly) : (s.raise a).ty = s.ty := rfl
@[simp] theorem State.raise_nib (s : State) (a : Anomaly) : (s.raise a).nib = s.nib := rfl
@[simp] theorem State.raise_px (s : State) (a : Anomaly) : (s.raise a).px = s.px := rfl
@[simp] theorem State.raise_py (s : State) (a : Anomaly) : (s.raise a).py = s.py := rfl
@[simp] theorem State.raise_cur (s : State) (a : Anomaly) : (s.raise a).cur = s.cur := rfl
@[simp] theorem State.raise_base (s : State) (a : Anomaly) : (s.raise a).base = s.base := rfl
@[simp] theorem State.raise_consumed (s : State) (a : Anomaly) : (s.raise a).consumed = s.consumed := rfl
@[simp] theorem State.raise_sel (s : State) (a : Anomaly) : (s.raise a).sel = s.sel := rfl
@[simp] theorem State.raise_off (s : State) (a : Anomaly) : (s.raise a).off = s.off := rfl
@[simp] theorem State.raise_lvl (s : State) (a : Anomaly) : (s.raise a).lvl = s.lvl := rfl
@[simp] theorem State.raise_bgsel (s : State) (a : Anomaly) : (s.raise a).bgsel = s.bgsel := rfl
@[simp] theorem State.raise_tersel (s : State) (a : Anomaly) : (s.raise a).tersel = s.tersel := rfl
@[simp] theorem State.raise_folsel (s : State) (a : Anomaly) : (s.raise a).folsel = s.folsel := rfl
@[simp] theorem State.raise_blptr (s : State) (a : Anomaly) : (s.raise a).blptr = s.blptr := rfl
@[simp] theorem State.raise_nbld (s : State) (a : Anomaly) : (s.raise a).nbld = s.nbld := rfl
@[simp] theorem State.raise_rom (s : State) (a : Anomaly) : (s.raise a).rom = s.rom := rfl
@[simp] theorem State.raise_tile (s : State) (a : Anomaly) : (s.raise a).tile = s.tile := rfl
@[simp] theorem State.raise_pal (s : State) (a : Anomaly) : (s.raise a).pal = s.pal := rfl
@[simp] theorem State.raise_canvas (s : State) (a : Anomaly) : (s.raise a).canvas = s.canvas := rfl
@[simp] theorem State.raise_ews (s : State) (a : Anomaly) : (s.raise a).ews = s.ews := rfl
@[simp] theorem State.raise_blist (s : State) (a : Anomaly) : (s.raise a).blist = s.blist := rfl
@[simp] theorem State.raise_par (s : State) (a : Anomaly) : (s.raise a).par = s.par := rfl
@[simp] theorem State.raise_bus (s : State) (a : Anomaly) : (s.raise a).bus = s.bus := rfl
@[simp] theorem State.raise_hostData (s : State) (a : Anomaly) : (s.raise a).hostData = s.hostData := rfl
@[simp] theorem State.raise_site (s : State) (a : Anomaly) : (s.raise a).site = s.site := rfl
@[simp] theorem State.raise_rle (s : State) (a : Anomaly) : (s.raise a).rle = s.rle := rfl
@[simp] theorem State.raise_blr (s : State) (a : Anomaly) : (s.raise a).blr = s.blr := rfl
@[simp] theorem State.raise_bld (s : State) (a : Anomaly) : (s.raise a).bld = s.bld := rfl
@[simp] theorem State.raise_aww (s : State) (a : Anomaly) : (s.raise a).aww = s.aww := rfl
@[simp] theorem State.raise_canvasEra (s : State) (a : Anomaly) : (s.raise a).canvasEra = s.canvasEra := rfl
@[simp] theorem State.raise_ewsEra (s : State) (a : Anomaly) : (s.raise a).ewsEra = s.ewsEra := rfl
@[simp] theorem State.raise_blistEra (s : State) (a : Anomaly) : (s.raise a).blistEra = s.blistEra := rfl
@[simp] theorem State.raise_env (s : State) (a : Anomaly) : (s.raise a).env = s.env := rfl

/-! ## `State.reject` -/

@[simp] theorem State.reject_status (s : State) (c : RejCause) : (s.reject c).status = .rejected := rfl
@[simp] theorem State.reject_rejCause (s : State) (c : RejCause) : (s.reject c).rejCause = c := rfl
@[simp] theorem State.reject_anom (s : State) (c : RejCause) : (s.reject c).anom = s.anom := rfl
@[simp] theorem State.reject_lstat1 (s : State) (c : RejCause) : (s.reject c).lstat1 = s.lstat1 := rfl
@[simp] theorem State.reject_lstat2 (s : State) (c : RejCause) : (s.reject c).lstat2 = s.lstat2 := rfl
@[simp] theorem State.reject_lstat3 (s : State) (c : RejCause) : (s.reject c).lstat3 = s.lstat3 := rfl
@[simp] theorem State.reject_lstat4 (s : State) (c : RejCause) : (s.reject c).lstat4 = s.lstat4 := rfl
@[simp] theorem State.reject_lstat5 (s : State) (c : RejCause) : (s.reject c).lstat5 = s.lstat5 := rfl
@[simp] theorem State.reject_word (s : State) (c : RejCause) : (s.reject c).word = s.word := rfl
@[simp] theorem State.reject_code (s : State) (c : RejCause) : (s.reject c).code = s.code := rfl
@[simp] theorem State.reject_xf (s : State) (c : RejCause) : (s.reject c).xf = s.xf := rfl
@[simp] theorem State.reject_yf (s : State) (c : RejCause) : (s.reject c).yf = s.yf := rfl
@[simp] theorem State.reject_pali (s : State) (c : RejCause) : (s.reject c).pali = s.pali := rfl
@[simp] theorem State.reject_tx (s : State) (c : RejCause) : (s.reject c).tx = s.tx := rfl
@[simp] theorem State.reject_ty (s : State) (c : RejCause) : (s.reject c).ty = s.ty := rfl
@[simp] theorem State.reject_nib (s : State) (c : RejCause) : (s.reject c).nib = s.nib := rfl
@[simp] theorem State.reject_px (s : State) (c : RejCause) : (s.reject c).px = s.px := rfl
@[simp] theorem State.reject_py (s : State) (c : RejCause) : (s.reject c).py = s.py := rfl
@[simp] theorem State.reject_cur (s : State) (c : RejCause) : (s.reject c).cur = s.cur := rfl
@[simp] theorem State.reject_base (s : State) (c : RejCause) : (s.reject c).base = s.base := rfl
@[simp] theorem State.reject_consumed (s : State) (c : RejCause) : (s.reject c).consumed = s.consumed := rfl
@[simp] theorem State.reject_sel (s : State) (c : RejCause) : (s.reject c).sel = s.sel := rfl
@[simp] theorem State.reject_off (s : State) (c : RejCause) : (s.reject c).off = s.off := rfl
@[simp] theorem State.reject_lvl (s : State) (c : RejCause) : (s.reject c).lvl = s.lvl := rfl
@[simp] theorem State.reject_bgsel (s : State) (c : RejCause) : (s.reject c).bgsel = s.bgsel := rfl
@[simp] theorem State.reject_tersel (s : State) (c : RejCause) : (s.reject c).tersel = s.tersel := rfl
@[simp] theorem State.reject_folsel (s : State) (c : RejCause) : (s.reject c).folsel = s.folsel := rfl
@[simp] theorem State.reject_blptr (s : State) (c : RejCause) : (s.reject c).blptr = s.blptr := rfl
@[simp] theorem State.reject_nbld (s : State) (c : RejCause) : (s.reject c).nbld = s.nbld := rfl
@[simp] theorem State.reject_rom (s : State) (c : RejCause) : (s.reject c).rom = s.rom := rfl
@[simp] theorem State.reject_tile (s : State) (c : RejCause) : (s.reject c).tile = s.tile := rfl
@[simp] theorem State.reject_pal (s : State) (c : RejCause) : (s.reject c).pal = s.pal := rfl
@[simp] theorem State.reject_canvas (s : State) (c : RejCause) : (s.reject c).canvas = s.canvas := rfl
@[simp] theorem State.reject_ews (s : State) (c : RejCause) : (s.reject c).ews = s.ews := rfl
@[simp] theorem State.reject_blist (s : State) (c : RejCause) : (s.reject c).blist = s.blist := rfl
@[simp] theorem State.reject_par (s : State) (c : RejCause) : (s.reject c).par = s.par := rfl
@[simp] theorem State.reject_bus (s : State) (c : RejCause) : (s.reject c).bus = s.bus := rfl
@[simp] theorem State.reject_hostData (s : State) (c : RejCause) : (s.reject c).hostData = s.hostData := rfl
@[simp] theorem State.reject_site (s : State) (c : RejCause) : (s.reject c).site = s.site := rfl
@[simp] theorem State.reject_rle (s : State) (c : RejCause) : (s.reject c).rle = s.rle := rfl
@[simp] theorem State.reject_blr (s : State) (c : RejCause) : (s.reject c).blr = s.blr := rfl
@[simp] theorem State.reject_bld (s : State) (c : RejCause) : (s.reject c).bld = s.bld := rfl
@[simp] theorem State.reject_aww (s : State) (c : RejCause) : (s.reject c).aww = s.aww := rfl
@[simp] theorem State.reject_canvasEra (s : State) (c : RejCause) :
    (s.reject c).canvasEra = s.canvasEra := rfl
@[simp] theorem State.reject_ewsEra (s : State) (c : RejCause) : (s.reject c).ewsEra = s.ewsEra := rfl
@[simp] theorem State.reject_blistEra (s : State) (c : RejCause) : (s.reject c).blistEra = s.blistEra := rfl

/-! ## `State.withSurface` -/

@[simp] theorem State.withSurface_status (s : State) (f : Surface) :
    (s.withSurface f).status = s.status := rfl
@[simp] theorem State.withSurface_rejCause (s : State) (f : Surface) :
    (s.withSurface f).rejCause = s.rejCause := rfl
@[simp] theorem State.withSurface_anom (s : State) (f : Surface) : (s.withSurface f).anom = f.anom := rfl
@[simp] theorem State.withSurface_lstat1 (s : State) (f : Surface) :
    (s.withSurface f).lstat1 = s.lstat1 := rfl
@[simp] theorem State.withSurface_lstat2 (s : State) (f : Surface) :
    (s.withSurface f).lstat2 = s.lstat2 := rfl
@[simp] theorem State.withSurface_lstat3 (s : State) (f : Surface) :
    (s.withSurface f).lstat3 = s.lstat3 := rfl
@[simp] theorem State.withSurface_lstat4 (s : State) (f : Surface) :
    (s.withSurface f).lstat4 = s.lstat4 := rfl
@[simp] theorem State.withSurface_lstat5 (s : State) (f : Surface) :
    (s.withSurface f).lstat5 = s.lstat5 := rfl
@[simp] theorem State.withSurface_word (s : State) (f : Surface) : (s.withSurface f).word = s.word := rfl
@[simp] theorem State.withSurface_code (s : State) (f : Surface) : (s.withSurface f).code = s.code := rfl
@[simp] theorem State.withSurface_xf (s : State) (f : Surface) : (s.withSurface f).xf = s.xf := rfl
@[simp] theorem State.withSurface_yf (s : State) (f : Surface) : (s.withSurface f).yf = s.yf := rfl
@[simp] theorem State.withSurface_pali (s : State) (f : Surface) : (s.withSurface f).pali = s.pali := rfl
@[simp] theorem State.withSurface_tx (s : State) (f : Surface) : (s.withSurface f).tx = s.tx := rfl
@[simp] theorem State.withSurface_ty (s : State) (f : Surface) : (s.withSurface f).ty = s.ty := rfl
@[simp] theorem State.withSurface_nib (s : State) (f : Surface) : (s.withSurface f).nib = s.nib := rfl
@[simp] theorem State.withSurface_px (s : State) (f : Surface) : (s.withSurface f).px = s.px := rfl
@[simp] theorem State.withSurface_py (s : State) (f : Surface) : (s.withSurface f).py = s.py := rfl
@[simp] theorem State.withSurface_cur (s : State) (f : Surface) : (s.withSurface f).cur = s.cur := rfl
@[simp] theorem State.withSurface_base (s : State) (f : Surface) : (s.withSurface f).base = s.base := rfl
@[simp] theorem State.withSurface_consumed (s : State) (f : Surface) :
    (s.withSurface f).consumed = s.consumed := rfl
@[simp] theorem State.withSurface_sel (s : State) (f : Surface) : (s.withSurface f).sel = s.sel := rfl
@[simp] theorem State.withSurface_off (s : State) (f : Surface) : (s.withSurface f).off = s.off := rfl
@[simp] theorem State.withSurface_lvl (s : State) (f : Surface) : (s.withSurface f).lvl = s.lvl := rfl
@[simp] theorem State.withSurface_bgsel (s : State) (f : Surface) : (s.withSurface f).bgsel = s.bgsel := rfl
@[simp] theorem State.withSurface_tersel (s : State) (f : Surface) :
    (s.withSurface f).tersel = s.tersel := rfl
@[simp] theorem State.withSurface_folsel (s : State) (f : Surface) :
    (s.withSurface f).folsel = s.folsel := rfl
@[simp] theorem State.withSurface_blptr (s : State) (f : Surface) : (s.withSurface f).blptr = s.blptr := rfl
@[simp] theorem State.withSurface_nbld (s : State) (f : Surface) : (s.withSurface f).nbld = s.nbld := rfl
@[simp] theorem State.withSurface_rom (s : State) (f : Surface) : (s.withSurface f).rom = s.rom := rfl
@[simp] theorem State.withSurface_tile (s : State) (f : Surface) : (s.withSurface f).tile = s.tile := rfl
@[simp] theorem State.withSurface_pal (s : State) (f : Surface) : (s.withSurface f).pal = s.pal := rfl
@[simp] theorem State.withSurface_canvas (s : State) (f : Surface) :
    (s.withSurface f).canvas = f.canvas := rfl
@[simp] theorem State.withSurface_ews (s : State) (f : Surface) : (s.withSurface f).ews = s.ews := rfl
@[simp] theorem State.withSurface_blist (s : State) (f : Surface) : (s.withSurface f).blist = s.blist := rfl
@[simp] theorem State.withSurface_par (s : State) (f : Surface) : (s.withSurface f).par = s.par := rfl
@[simp] theorem State.withSurface_bus (s : State) (f : Surface) : (s.withSurface f).bus = s.bus := rfl
@[simp] theorem State.withSurface_hostData (s : State) (f : Surface) :
    (s.withSurface f).hostData = s.hostData := rfl
@[simp] theorem State.withSurface_site (s : State) (f : Surface) : (s.withSurface f).site = s.site := rfl
@[simp] theorem State.withSurface_rle (s : State) (f : Surface) : (s.withSurface f).rle = s.rle := rfl
@[simp] theorem State.withSurface_blr (s : State) (f : Surface) : (s.withSurface f).blr = s.blr := rfl
@[simp] theorem State.withSurface_bld (s : State) (f : Surface) : (s.withSurface f).bld = s.bld := rfl
@[simp] theorem State.withSurface_aww (s : State) (f : Surface) : (s.withSurface f).aww = s.aww := rfl
@[simp] theorem State.withSurface_canvasEra (s : State) (f : Surface) :
    (s.withSurface f).canvasEra = s.canvasEra := rfl
@[simp] theorem State.withSurface_ewsEra (s : State) (f : Surface) :
    (s.withSurface f).ewsEra = s.ewsEra := rfl
@[simp] theorem State.withSurface_blistEra (s : State) (f : Surface) :
    (s.withSurface f).blistEra = s.blistEra := rfl
@[simp] theorem State.withSurface_env (s : State) (f : Surface) : (s.withSurface f).env = s.env := rfl

/-! ## `State.decompressed` -/

@[simp] theorem State.decompressed_status (s : State) (r : RleCursor) :
    (s.decompressed r).status = r.outcome := rfl
@[simp] theorem State.decompressed_rejCause (s : State) (r : RleCursor) :
    (s.decompressed r).rejCause = s.rejCause := rfl
@[simp] theorem State.decompressed_anom (s : State) (r : RleCursor) :
    (s.decompressed r).anom = raiseIfPartial s.anom r.outcome := rfl
@[simp] theorem State.decompressed_lstat1 (s : State) (r : RleCursor) :
    (s.decompressed r).lstat1 = s.lstat1 := rfl
@[simp] theorem State.decompressed_lstat2 (s : State) (r : RleCursor) :
    (s.decompressed r).lstat2 = s.lstat2 := rfl
@[simp] theorem State.decompressed_lstat3 (s : State) (r : RleCursor) :
    (s.decompressed r).lstat3 = s.lstat3 := rfl
@[simp] theorem State.decompressed_lstat4 (s : State) (r : RleCursor) :
    (s.decompressed r).lstat4 = s.lstat4 := rfl
@[simp] theorem State.decompressed_lstat5 (s : State) (r : RleCursor) :
    (s.decompressed r).lstat5 = s.lstat5 := rfl
@[simp] theorem State.decompressed_word (s : State) (r : RleCursor) :
    (s.decompressed r).word = s.word := rfl
@[simp] theorem State.decompressed_code (s : State) (r : RleCursor) :
    (s.decompressed r).code = s.code := rfl
@[simp] theorem State.decompressed_xf (s : State) (r : RleCursor) : (s.decompressed r).xf = s.xf := rfl
@[simp] theorem State.decompressed_yf (s : State) (r : RleCursor) : (s.decompressed r).yf = s.yf := rfl
@[simp] theorem State.decompressed_pali (s : State) (r : RleCursor) :
    (s.decompressed r).pali = s.pali := rfl
@[simp] theorem State.decompressed_tx (s : State) (r : RleCursor) : (s.decompressed r).tx = s.tx := rfl
@[simp] theorem State.decompressed_ty (s : State) (r : RleCursor) : (s.decompressed r).ty = s.ty := rfl
@[simp] theorem State.decompressed_nib (s : State) (r : RleCursor) : (s.decompressed r).nib = s.nib := rfl
@[simp] theorem State.decompressed_px (s : State) (r : RleCursor) : (s.decompressed r).px = s.px := rfl
@[simp] theorem State.decompressed_py (s : State) (r : RleCursor) : (s.decompressed r).py = s.py := rfl
@[simp] theorem State.decompressed_cur (s : State) (r : RleCursor) : (s.decompressed r).cur = r.pos := rfl
@[simp] theorem State.decompressed_base (s : State) (r : RleCursor) : (s.decompressed r).base = s.cur := rfl
@[simp] theorem State.decompressed_consumed (s : State) (r : RleCursor) :
    (s.decompressed r).consumed = r.pos - s.cur := rfl
@[simp] theorem State.decompressed_sel (s : State) (r : RleCursor) : (s.decompressed r).sel = s.sel := rfl
@[simp] theorem State.decompressed_off (s : State) (r : RleCursor) : (s.decompressed r).off = s.off := rfl
@[simp] theorem State.decompressed_lvl (s : State) (r : RleCursor) : (s.decompressed r).lvl = s.lvl := rfl
@[simp] theorem State.decompressed_bgsel (s : State) (r : RleCursor) :
    (s.decompressed r).bgsel = s.bgsel := rfl
@[simp] theorem State.decompressed_tersel (s : State) (r : RleCursor) :
    (s.decompressed r).tersel = s.tersel := rfl
@[simp] theorem State.decompressed_folsel (s : State) (r : RleCursor) :
    (s.decompressed r).folsel = s.folsel := rfl
@[simp] theorem State.decompressed_blptr (s : State) (r : RleCursor) :
    (s.decompressed r).blptr = s.blptr := rfl
@[simp] theorem State.decompressed_nbld (s : State) (r : RleCursor) :
    (s.decompressed r).nbld = s.nbld := rfl
@[simp] theorem State.decompressed_rom (s : State) (r : RleCursor) : (s.decompressed r).rom = s.rom := rfl
@[simp] theorem State.decompressed_tile (s : State) (r : RleCursor) :
    (s.decompressed r).tile = s.tile := rfl
@[simp] theorem State.decompressed_pal (s : State) (r : RleCursor) : (s.decompressed r).pal = s.pal := rfl
@[simp] theorem State.decompressed_canvas (s : State) (r : RleCursor) :
    (s.decompressed r).canvas = s.canvas := rfl
@[simp] theorem State.decompressed_ews (s : State) (r : RleCursor) : (s.decompressed r).ews = r.pairs := rfl
@[simp] theorem State.decompressed_blist (s : State) (r : RleCursor) :
    (s.decompressed r).blist = s.blist := rfl
@[simp] theorem State.decompressed_par (s : State) (r : RleCursor) : (s.decompressed r).par = s.par := rfl
@[simp] theorem State.decompressed_bus (s : State) (r : RleCursor) : (s.decompressed r).bus = s.bus := rfl
@[simp] theorem State.decompressed_hostData (s : State) (r : RleCursor) :
    (s.decompressed r).hostData = s.hostData := rfl
@[simp] theorem State.decompressed_site (s : State) (r : RleCursor) :
    (s.decompressed r).site = s.site := rfl
@[simp] theorem State.decompressed_rle (s : State) (r : RleCursor) : (s.decompressed r).rle = s.rle := rfl
@[simp] theorem State.decompressed_blr (s : State) (r : RleCursor) : (s.decompressed r).blr = s.blr := rfl
@[simp] theorem State.decompressed_bld (s : State) (r : RleCursor) : (s.decompressed r).bld = s.bld := rfl
@[simp] theorem State.decompressed_aww (s : State) (r : RleCursor) : (s.decompressed r).aww = s.aww := rfl
@[simp] theorem State.decompressed_canvasEra (s : State) (r : RleCursor) :
    (s.decompressed r).canvasEra = s.canvasEra := rfl
@[simp] theorem State.decompressed_ewsEra (s : State) (r : RleCursor) :
    (s.decompressed r).ewsEra = s.ewsEra + 1 := rfl
@[simp] theorem State.decompressed_blistEra (s : State) (r : RleCursor) :
    (s.decompressed r).blistEra = s.blistEra := rfl

/-! ## `State.loadLevel` -/

@[simp] theorem State.loadLevel_status (s : State) (dec : List Byte → LevelFields) (n : Nat) :
    (s.loadLevel dec n).status = s.status := rfl
@[simp] theorem State.loadLevel_rejCause (s : State) (dec : List Byte → LevelFields) (n : Nat) :
    (s.loadLevel dec n).rejCause = s.rejCause := rfl
@[simp] theorem State.loadLevel_anom (s : State) (dec : List Byte → LevelFields) (n : Nat) :
    (s.loadLevel dec n).anom = raiseIfPartial s.anom (levelOutcome s.rom dec n) := rfl
@[simp] theorem State.loadLevel_lstat1 (s : State) (dec : List Byte → LevelFields) (n : Nat) :
    (s.loadLevel dec n).lstat1 = s.lstat1 := rfl
@[simp] theorem State.loadLevel_lstat2 (s : State) (dec : List Byte → LevelFields) (n : Nat) :
    (s.loadLevel dec n).lstat2 = s.lstat2 := rfl
@[simp] theorem State.loadLevel_lstat3 (s : State) (dec : List Byte → LevelFields) (n : Nat) :
    (s.loadLevel dec n).lstat3 = s.lstat3 := rfl
@[simp] theorem State.loadLevel_lstat4 (s : State) (dec : List Byte → LevelFields) (n : Nat) :
    (s.loadLevel dec n).lstat4 = s.lstat4 := rfl
@[simp] theorem State.loadLevel_lstat5 (s : State) (dec : List Byte → LevelFields) (n : Nat) :
    (s.loadLevel dec n).lstat5 = s.lstat5 := rfl
@[simp] theorem State.loadLevel_word (s : State) (dec : List Byte → LevelFields) (n : Nat) :
    (s.loadLevel dec n).word = s.word := rfl
@[simp] theorem State.loadLevel_code (s : State) (dec : List Byte → LevelFields) (n : Nat) :
    (s.loadLevel dec n).code = s.code := rfl
@[simp] theorem State.loadLevel_xf (s : State) (dec : List Byte → LevelFields) (n : Nat) :
    (s.loadLevel dec n).xf = s.xf := rfl
@[simp] theorem State.loadLevel_yf (s : State) (dec : List Byte → LevelFields) (n : Nat) :
    (s.loadLevel dec n).yf = s.yf := rfl
@[simp] theorem State.loadLevel_pali (s : State) (dec : List Byte → LevelFields) (n : Nat) :
    (s.loadLevel dec n).pali = s.pali := rfl
@[simp] theorem State.loadLevel_tx (s : State) (dec : List Byte → LevelFields) (n : Nat) :
    (s.loadLevel dec n).tx = s.tx := rfl
@[simp] theorem State.loadLevel_ty (s : State) (dec : List Byte → LevelFields) (n : Nat) :
    (s.loadLevel dec n).ty = s.ty := rfl
@[simp] theorem State.loadLevel_nib (s : State) (dec : List Byte → LevelFields) (n : Nat) :
    (s.loadLevel dec n).nib = s.nib := rfl
@[simp] theorem State.loadLevel_px (s : State) (dec : List Byte → LevelFields) (n : Nat) :
    (s.loadLevel dec n).px = s.px := rfl
@[simp] theorem State.loadLevel_py (s : State) (dec : List Byte → LevelFields) (n : Nat) :
    (s.loadLevel dec n).py = s.py := rfl
@[simp] theorem State.loadLevel_cur (s : State) (dec : List Byte → LevelFields) (n : Nat) :
    (s.loadLevel dec n).cur = s.cur := rfl
@[simp] theorem State.loadLevel_base (s : State) (dec : List Byte → LevelFields) (n : Nat) :
    (s.loadLevel dec n).base = s.base := rfl
@[simp] theorem State.loadLevel_consumed (s : State) (dec : List Byte → LevelFields) (n : Nat) :
    (s.loadLevel dec n).consumed = s.consumed := rfl
@[simp] theorem State.loadLevel_sel (s : State) (dec : List Byte → LevelFields) (n : Nat) :
    (s.loadLevel dec n).sel = s.sel := rfl
@[simp] theorem State.loadLevel_off (s : State) (dec : List Byte → LevelFields) (n : Nat) :
    (s.loadLevel dec n).off = s.off := rfl
@[simp] theorem State.loadLevel_lvl (s : State) (dec : List Byte → LevelFields) (n : Nat) :
    (s.loadLevel dec n).lvl = s.lvl := rfl
@[simp] theorem State.loadLevel_bgsel (s : State) (dec : List Byte → LevelFields) (n : Nat) :
    (s.loadLevel dec n).bgsel = (dec (levelEntry s.rom n)).bg := rfl
@[simp] theorem State.loadLevel_tersel (s : State) (dec : List Byte → LevelFields) (n : Nat) :
    (s.loadLevel dec n).tersel = (dec (levelEntry s.rom n)).ter := rfl
@[simp] theorem State.loadLevel_folsel (s : State) (dec : List Byte → LevelFields) (n : Nat) :
    (s.loadLevel dec n).folsel = (dec (levelEntry s.rom n)).fol := rfl
@[simp] theorem State.loadLevel_blptr (s : State) (dec : List Byte → LevelFields) (n : Nat) :
    (s.loadLevel dec n).blptr = (dec (levelEntry s.rom n)).ptr := rfl
@[simp] theorem State.loadLevel_nbld (s : State) (dec : List Byte → LevelFields) (n : Nat) :
    (s.loadLevel dec n).nbld = (readList s.rom (dec (levelEntry s.rom n)).ptr.toNat).list.length := rfl
@[simp] theorem State.loadLevel_rom (s : State) (dec : List Byte → LevelFields) (n : Nat) :
    (s.loadLevel dec n).rom = s.rom := rfl
@[simp] theorem State.loadLevel_tile (s : State) (dec : List Byte → LevelFields) (n : Nat) :
    (s.loadLevel dec n).tile = s.tile := rfl
@[simp] theorem State.loadLevel_pal (s : State) (dec : List Byte → LevelFields) (n : Nat) :
    (s.loadLevel dec n).pal = s.pal := rfl
@[simp] theorem State.loadLevel_canvas (s : State) (dec : List Byte → LevelFields) (n : Nat) :
    (s.loadLevel dec n).canvas = s.canvas := rfl
@[simp] theorem State.loadLevel_ews (s : State) (dec : List Byte → LevelFields) (n : Nat) :
    (s.loadLevel dec n).ews = s.ews := rfl
@[simp] theorem State.loadLevel_blist (s : State) (dec : List Byte → LevelFields) (n : Nat) :
    (s.loadLevel dec n).blist = blistCells 0 (readList s.rom (dec (levelEntry s.rom n)).ptr.toNat).list := rfl
@[simp] theorem State.loadLevel_par (s : State) (dec : List Byte → LevelFields) (n : Nat) :
    (s.loadLevel dec n).par = s.par := rfl
@[simp] theorem State.loadLevel_bus (s : State) (dec : List Byte → LevelFields) (n : Nat) :
    (s.loadLevel dec n).bus = s.bus := rfl
@[simp] theorem State.loadLevel_hostData (s : State) (dec : List Byte → LevelFields) (n : Nat) :
    (s.loadLevel dec n).hostData = s.hostData := rfl
@[simp] theorem State.loadLevel_site (s : State) (dec : List Byte → LevelFields) (n : Nat) :
    (s.loadLevel dec n).site = s.site := rfl
@[simp] theorem State.loadLevel_rle (s : State) (dec : List Byte → LevelFields) (n : Nat) :
    (s.loadLevel dec n).rle = s.rle := rfl
@[simp] theorem State.loadLevel_blr (s : State) (dec : List Byte → LevelFields) (n : Nat) :
    (s.loadLevel dec n).blr = s.blr := rfl
@[simp] theorem State.loadLevel_bld (s : State) (dec : List Byte → LevelFields) (n : Nat) :
    (s.loadLevel dec n).bld = s.bld := rfl
@[simp] theorem State.loadLevel_aww (s : State) (dec : List Byte → LevelFields) (n : Nat) :
    (s.loadLevel dec n).aww = s.aww := rfl
@[simp] theorem State.loadLevel_canvasEra (s : State) (dec : List Byte → LevelFields) (n : Nat) :
    (s.loadLevel dec n).canvasEra = s.canvasEra := rfl
@[simp] theorem State.loadLevel_ewsEra (s : State) (dec : List Byte → LevelFields) (n : Nat) :
    (s.loadLevel dec n).ewsEra = s.ewsEra := rfl
@[simp] theorem State.loadLevel_blistEra (s : State) (dec : List Byte → LevelFields) (n : Nat) :
    (s.loadLevel dec n).blistEra = s.blistEra + 1 := rfl

/-! ## `State.runClear` -/

@[simp] theorem State.runClear_status (s : State) : (s.runClear).status = s.status := rfl
@[simp] theorem State.runClear_rejCause (s : State) : (s.runClear).rejCause = s.rejCause := rfl
@[simp] theorem State.runClear_anom (s : State) : (s.runClear).anom = s.anom := rfl
@[simp] theorem State.runClear_lstat1 (s : State) : (s.runClear).lstat1 = s.lstat1 := rfl
@[simp] theorem State.runClear_lstat2 (s : State) : (s.runClear).lstat2 = s.lstat2 := rfl
@[simp] theorem State.runClear_lstat3 (s : State) : (s.runClear).lstat3 = s.lstat3 := rfl
@[simp] theorem State.runClear_lstat4 (s : State) : (s.runClear).lstat4 = s.lstat4 := rfl
@[simp] theorem State.runClear_lstat5 (s : State) : (s.runClear).lstat5 = s.lstat5 := rfl
@[simp] theorem State.runClear_word (s : State) : (s.runClear).word = s.word := rfl
@[simp] theorem State.runClear_code (s : State) : (s.runClear).code = s.code := rfl
@[simp] theorem State.runClear_xf (s : State) : (s.runClear).xf = s.xf := rfl
@[simp] theorem State.runClear_yf (s : State) : (s.runClear).yf = s.yf := rfl
@[simp] theorem State.runClear_pali (s : State) : (s.runClear).pali = s.pali := rfl
@[simp] theorem State.runClear_tx (s : State) : (s.runClear).tx = s.tx := rfl
@[simp] theorem State.runClear_ty (s : State) : (s.runClear).ty = s.ty := rfl
@[simp] theorem State.runClear_nib (s : State) : (s.runClear).nib = s.nib := rfl
@[simp] theorem State.runClear_px (s : State) : (s.runClear).px = s.px := rfl
@[simp] theorem State.runClear_py (s : State) : (s.runClear).py = s.py := rfl
@[simp] theorem State.runClear_cur (s : State) : (s.runClear).cur = s.cur := rfl
@[simp] theorem State.runClear_base (s : State) : (s.runClear).base = s.base := rfl
@[simp] theorem State.runClear_consumed (s : State) : (s.runClear).consumed = s.consumed := rfl
@[simp] theorem State.runClear_sel (s : State) : (s.runClear).sel = s.sel := rfl
@[simp] theorem State.runClear_off (s : State) : (s.runClear).off = s.off := rfl
@[simp] theorem State.runClear_lvl (s : State) : (s.runClear).lvl = s.lvl := rfl
@[simp] theorem State.runClear_bgsel (s : State) : (s.runClear).bgsel = s.bgsel := rfl
@[simp] theorem State.runClear_tersel (s : State) : (s.runClear).tersel = s.tersel := rfl
@[simp] theorem State.runClear_folsel (s : State) : (s.runClear).folsel = s.folsel := rfl
@[simp] theorem State.runClear_blptr (s : State) : (s.runClear).blptr = s.blptr := rfl
@[simp] theorem State.runClear_nbld (s : State) : (s.runClear).nbld = s.nbld := rfl
@[simp] theorem State.runClear_rom (s : State) : (s.runClear).rom = s.rom := rfl
@[simp] theorem State.runClear_tile (s : State) : (s.runClear).tile = s.tile := rfl
@[simp] theorem State.runClear_pal (s : State) : (s.runClear).pal = s.pal := rfl
@[simp] theorem State.runClear_canvas (s : State) :
    (s.runClear).canvas = Canvas.filled s.par.canvasInit := rfl
@[simp] theorem State.runClear_ews (s : State) : (s.runClear).ews = s.ews := rfl
@[simp] theorem State.runClear_blist (s : State) : (s.runClear).blist = s.blist := rfl
@[simp] theorem State.runClear_par (s : State) : (s.runClear).par = s.par := rfl
@[simp] theorem State.runClear_bus (s : State) : (s.runClear).bus = s.bus := rfl
@[simp] theorem State.runClear_hostData (s : State) : (s.runClear).hostData = s.hostData := rfl
@[simp] theorem State.runClear_site (s : State) : (s.runClear).site = s.site := rfl
@[simp] theorem State.runClear_rle (s : State) : (s.runClear).rle = s.rle := rfl
@[simp] theorem State.runClear_blr (s : State) : (s.runClear).blr = s.blr := rfl
@[simp] theorem State.runClear_bld (s : State) : (s.runClear).bld = s.bld := rfl
@[simp] theorem State.runClear_aww (s : State) : (s.runClear).aww = s.aww := rfl
@[simp] theorem State.runClear_canvasEra (s : State) : (s.runClear).canvasEra = s.canvasEra := rfl
@[simp] theorem State.runClear_ewsEra (s : State) : (s.runClear).ewsEra = s.ewsEra := rfl
@[simp] theorem State.runClear_blistEra (s : State) : (s.runClear).blistEra = s.blistEra := rfl
@[simp] theorem State.runClear_env (s : State) : (s.runClear).env = s.env := rfl
@[simp] theorem State.runClear_placements (s : State) : s.runClear.placements = s.placements := rfl

/-! ## `State.runBg` -/

@[simp] theorem State.runBg_status (s : State) : (s.runBg).status = s.status := rfl
@[simp] theorem State.runBg_rejCause (s : State) : (s.runBg).rejCause = s.rejCause := rfl
@[simp] theorem State.runBg_anom (s : State) :
    (s.runBg).anom = (layerBg s.env s.nbld s.bgsel s.surface).surface.anom := rfl
@[simp] theorem State.runBg_lstat1 (s : State) :
    (s.runBg).lstat1 = (layerBg s.env s.nbld s.bgsel s.surface).outcome := rfl
@[simp] theorem State.runBg_lstat2 (s : State) : (s.runBg).lstat2 = s.lstat2 := rfl
@[simp] theorem State.runBg_lstat3 (s : State) : (s.runBg).lstat3 = s.lstat3 := rfl
@[simp] theorem State.runBg_lstat4 (s : State) : (s.runBg).lstat4 = s.lstat4 := rfl
@[simp] theorem State.runBg_lstat5 (s : State) : (s.runBg).lstat5 = s.lstat5 := rfl
@[simp] theorem State.runBg_word (s : State) : (s.runBg).word = s.word := rfl
@[simp] theorem State.runBg_code (s : State) : (s.runBg).code = s.code := rfl
@[simp] theorem State.runBg_xf (s : State) : (s.runBg).xf = s.xf := rfl
@[simp] theorem State.runBg_yf (s : State) : (s.runBg).yf = s.yf := rfl
@[simp] theorem State.runBg_pali (s : State) : (s.runBg).pali = s.pali := rfl
@[simp] theorem State.runBg_tx (s : State) : (s.runBg).tx = s.tx := rfl
@[simp] theorem State.runBg_ty (s : State) : (s.runBg).ty = s.ty := rfl
@[simp] theorem State.runBg_nib (s : State) : (s.runBg).nib = s.nib := rfl
@[simp] theorem State.runBg_px (s : State) : (s.runBg).px = s.px := rfl
@[simp] theorem State.runBg_py (s : State) : (s.runBg).py = s.py := rfl
@[simp] theorem State.runBg_cur (s : State) : (s.runBg).cur = s.cur := rfl
@[simp] theorem State.runBg_base (s : State) : (s.runBg).base = s.base := rfl
@[simp] theorem State.runBg_consumed (s : State) : (s.runBg).consumed = s.consumed := rfl
@[simp] theorem State.runBg_sel (s : State) : (s.runBg).sel = s.sel := rfl
@[simp] theorem State.runBg_off (s : State) : (s.runBg).off = s.off := rfl
@[simp] theorem State.runBg_lvl (s : State) : (s.runBg).lvl = s.lvl := rfl
@[simp] theorem State.runBg_bgsel (s : State) : (s.runBg).bgsel = s.bgsel := rfl
@[simp] theorem State.runBg_tersel (s : State) : (s.runBg).tersel = s.tersel := rfl
@[simp] theorem State.runBg_folsel (s : State) : (s.runBg).folsel = s.folsel := rfl
@[simp] theorem State.runBg_blptr (s : State) : (s.runBg).blptr = s.blptr := rfl
@[simp] theorem State.runBg_nbld (s : State) : (s.runBg).nbld = s.nbld := rfl
@[simp] theorem State.runBg_rom (s : State) : (s.runBg).rom = s.rom := rfl
@[simp] theorem State.runBg_tile (s : State) : (s.runBg).tile = s.tile := rfl
@[simp] theorem State.runBg_pal (s : State) : (s.runBg).pal = s.pal := rfl
@[simp] theorem State.runBg_canvas (s : State) :
    (s.runBg).canvas = (layerBg s.env s.nbld s.bgsel s.surface).surface.canvas := rfl
@[simp] theorem State.runBg_ews (s : State) : (s.runBg).ews = s.ews := rfl
@[simp] theorem State.runBg_blist (s : State) : (s.runBg).blist = s.blist := rfl
@[simp] theorem State.runBg_par (s : State) : (s.runBg).par = s.par := rfl
@[simp] theorem State.runBg_bus (s : State) : (s.runBg).bus = s.bus := rfl
@[simp] theorem State.runBg_hostData (s : State) : (s.runBg).hostData = s.hostData := rfl
@[simp] theorem State.runBg_site (s : State) : (s.runBg).site = s.site := rfl
@[simp] theorem State.runBg_rle (s : State) : (s.runBg).rle = s.rle := rfl
@[simp] theorem State.runBg_blr (s : State) : (s.runBg).blr = s.blr := rfl
@[simp] theorem State.runBg_bld (s : State) : (s.runBg).bld = s.bld := rfl
@[simp] theorem State.runBg_aww (s : State) : (s.runBg).aww = s.aww := rfl
@[simp] theorem State.runBg_canvasEra (s : State) : (s.runBg).canvasEra = s.canvasEra := rfl
@[simp] theorem State.runBg_ewsEra (s : State) : (s.runBg).ewsEra = s.ewsEra := rfl
@[simp] theorem State.runBg_blistEra (s : State) : (s.runBg).blistEra = s.blistEra := rfl
@[simp] theorem State.runBg_env (s : State) : (s.runBg).env = s.env := rfl
@[simp] theorem State.runBg_surface (s : State) :
    s.runBg.surface = (layerBg s.env s.nbld s.bgsel s.surface).surface := rfl
@[simp] theorem State.runBg_placements (s : State) : s.runBg.placements = s.placements := rfl

/-! ## `State.runSky` -/

@[simp] theorem State.runSky_status (s : State) : (s.runSky).status = s.status := rfl
@[simp] theorem State.runSky_rejCause (s : State) : (s.runSky).rejCause = s.rejCause := rfl
@[simp] theorem State.runSky_anom (s : State) :
    (s.runSky).anom = (layerSky s.env s.surface).surface.anom := rfl
@[simp] theorem State.runSky_lstat1 (s : State) : (s.runSky).lstat1 = s.lstat1 := rfl
@[simp] theorem State.runSky_lstat2 (s : State) :
    (s.runSky).lstat2 = (layerSky s.env s.surface).outcome := rfl
@[simp] theorem State.runSky_lstat3 (s : State) : (s.runSky).lstat3 = s.lstat3 := rfl
@[simp] theorem State.runSky_lstat4 (s : State) : (s.runSky).lstat4 = s.lstat4 := rfl
@[simp] theorem State.runSky_lstat5 (s : State) : (s.runSky).lstat5 = s.lstat5 := rfl
@[simp] theorem State.runSky_word (s : State) : (s.runSky).word = s.word := rfl
@[simp] theorem State.runSky_code (s : State) : (s.runSky).code = s.code := rfl
@[simp] theorem State.runSky_xf (s : State) : (s.runSky).xf = s.xf := rfl
@[simp] theorem State.runSky_yf (s : State) : (s.runSky).yf = s.yf := rfl
@[simp] theorem State.runSky_pali (s : State) : (s.runSky).pali = s.pali := rfl
@[simp] theorem State.runSky_tx (s : State) : (s.runSky).tx = s.tx := rfl
@[simp] theorem State.runSky_ty (s : State) : (s.runSky).ty = s.ty := rfl
@[simp] theorem State.runSky_nib (s : State) : (s.runSky).nib = s.nib := rfl
@[simp] theorem State.runSky_px (s : State) : (s.runSky).px = s.px := rfl
@[simp] theorem State.runSky_py (s : State) : (s.runSky).py = s.py := rfl
@[simp] theorem State.runSky_cur (s : State) : (s.runSky).cur = s.cur := rfl
@[simp] theorem State.runSky_base (s : State) : (s.runSky).base = s.base := rfl
@[simp] theorem State.runSky_consumed (s : State) : (s.runSky).consumed = s.consumed := rfl
@[simp] theorem State.runSky_sel (s : State) : (s.runSky).sel = s.sel := rfl
@[simp] theorem State.runSky_off (s : State) : (s.runSky).off = s.off := rfl
@[simp] theorem State.runSky_lvl (s : State) : (s.runSky).lvl = s.lvl := rfl
@[simp] theorem State.runSky_bgsel (s : State) : (s.runSky).bgsel = s.bgsel := rfl
@[simp] theorem State.runSky_tersel (s : State) : (s.runSky).tersel = s.tersel := rfl
@[simp] theorem State.runSky_folsel (s : State) : (s.runSky).folsel = s.folsel := rfl
@[simp] theorem State.runSky_blptr (s : State) : (s.runSky).blptr = s.blptr := rfl
@[simp] theorem State.runSky_nbld (s : State) : (s.runSky).nbld = s.nbld := rfl
@[simp] theorem State.runSky_rom (s : State) : (s.runSky).rom = s.rom := rfl
@[simp] theorem State.runSky_tile (s : State) : (s.runSky).tile = s.tile := rfl
@[simp] theorem State.runSky_pal (s : State) : (s.runSky).pal = s.pal := rfl
@[simp] theorem State.runSky_canvas (s : State) :
    (s.runSky).canvas = (layerSky s.env s.surface).surface.canvas := rfl
@[simp] theorem State.runSky_ews (s : State) : (s.runSky).ews = s.ews := rfl
@[simp] theorem State.runSky_blist (s : State) : (s.runSky).blist = s.blist := rfl
@[simp] theorem State.runSky_par (s : State) : (s.runSky).par = s.par := rfl
@[simp] theorem State.runSky_bus (s : State) : (s.runSky).bus = s.bus := rfl
@[simp] theorem State.runSky_hostData (s : State) : (s.runSky).hostData = s.hostData := rfl
@[simp] theorem State.runSky_site (s : State) : (s.runSky).site = s.site := rfl
@[simp] theorem State.runSky_rle (s : State) : (s.runSky).rle = s.rle := rfl
@[simp] theorem State.runSky_blr (s : State) : (s.runSky).blr = s.blr := rfl
@[simp] theorem State.runSky_bld (s : State) : (s.runSky).bld = s.bld := rfl
@[simp] theorem State.runSky_aww (s : State) : (s.runSky).aww = s.aww := rfl
@[simp] theorem State.runSky_canvasEra (s : State) : (s.runSky).canvasEra = s.canvasEra := rfl
@[simp] theorem State.runSky_ewsEra (s : State) : (s.runSky).ewsEra = s.ewsEra := rfl
@[simp] theorem State.runSky_blistEra (s : State) : (s.runSky).blistEra = s.blistEra := rfl
@[simp] theorem State.runSky_env (s : State) : (s.runSky).env = s.env := rfl
@[simp] theorem State.runSky_surface (s : State) :
    s.runSky.surface = (layerSky s.env s.surface).surface := rfl
@[simp] theorem State.runSky_placements (s : State) : s.runSky.placements = s.placements := rfl

/-! ## `State.runFol` -/

@[simp] theorem State.runFol_status (s : State) : (s.runFol).status = s.status := rfl
@[simp] theorem State.runFol_rejCause (s : State) : (s.runFol).rejCause = s.rejCause := rfl
@[simp] theorem State.runFol_anom (s : State) :
    (s.runFol).anom = (layerFol s.env s.folsel s.surface).surface.anom := rfl
@[simp] theorem State.runFol_lstat1 (s : State) : (s.runFol).lstat1 = s.lstat1 := rfl
@[simp] theorem State.runFol_lstat2 (s : State) : (s.runFol).lstat2 = s.lstat2 := rfl
@[simp] theorem State.runFol_lstat3 (s : State) :
    (s.runFol).lstat3 = (layerFol s.env s.folsel s.surface).outcome := rfl
@[simp] theorem State.runFol_lstat4 (s : State) : (s.runFol).lstat4 = s.lstat4 := rfl
@[simp] theorem State.runFol_lstat5 (s : State) : (s.runFol).lstat5 = s.lstat5 := rfl
@[simp] theorem State.runFol_word (s : State) : (s.runFol).word = s.word := rfl
@[simp] theorem State.runFol_code (s : State) : (s.runFol).code = s.code := rfl
@[simp] theorem State.runFol_xf (s : State) : (s.runFol).xf = s.xf := rfl
@[simp] theorem State.runFol_yf (s : State) : (s.runFol).yf = s.yf := rfl
@[simp] theorem State.runFol_pali (s : State) : (s.runFol).pali = s.pali := rfl
@[simp] theorem State.runFol_tx (s : State) : (s.runFol).tx = s.tx := rfl
@[simp] theorem State.runFol_ty (s : State) : (s.runFol).ty = s.ty := rfl
@[simp] theorem State.runFol_nib (s : State) : (s.runFol).nib = s.nib := rfl
@[simp] theorem State.runFol_px (s : State) : (s.runFol).px = s.px := rfl
@[simp] theorem State.runFol_py (s : State) : (s.runFol).py = s.py := rfl
@[simp] theorem State.runFol_cur (s : State) : (s.runFol).cur = s.cur := rfl
@[simp] theorem State.runFol_base (s : State) : (s.runFol).base = s.base := rfl
@[simp] theorem State.runFol_consumed (s : State) : (s.runFol).consumed = s.consumed := rfl
@[simp] theorem State.runFol_sel (s : State) : (s.runFol).sel = s.sel := rfl
@[simp] theorem State.runFol_off (s : State) : (s.runFol).off = s.off := rfl
@[simp] theorem State.runFol_lvl (s : State) : (s.runFol).lvl = s.lvl := rfl
@[simp] theorem State.runFol_bgsel (s : State) : (s.runFol).bgsel = s.bgsel := rfl
@[simp] theorem State.runFol_tersel (s : State) : (s.runFol).tersel = s.tersel := rfl
@[simp] theorem State.runFol_folsel (s : State) : (s.runFol).folsel = s.folsel := rfl
@[simp] theorem State.runFol_blptr (s : State) : (s.runFol).blptr = s.blptr := rfl
@[simp] theorem State.runFol_nbld (s : State) : (s.runFol).nbld = s.nbld := rfl
@[simp] theorem State.runFol_rom (s : State) : (s.runFol).rom = s.rom := rfl
@[simp] theorem State.runFol_tile (s : State) : (s.runFol).tile = s.tile := rfl
@[simp] theorem State.runFol_pal (s : State) : (s.runFol).pal = s.pal := rfl
@[simp] theorem State.runFol_canvas (s : State) :
    (s.runFol).canvas = (layerFol s.env s.folsel s.surface).surface.canvas := rfl
@[simp] theorem State.runFol_ews (s : State) : (s.runFol).ews = s.ews := rfl
@[simp] theorem State.runFol_blist (s : State) : (s.runFol).blist = s.blist := rfl
@[simp] theorem State.runFol_par (s : State) : (s.runFol).par = s.par := rfl
@[simp] theorem State.runFol_bus (s : State) : (s.runFol).bus = s.bus := rfl
@[simp] theorem State.runFol_hostData (s : State) : (s.runFol).hostData = s.hostData := rfl
@[simp] theorem State.runFol_site (s : State) : (s.runFol).site = s.site := rfl
@[simp] theorem State.runFol_rle (s : State) : (s.runFol).rle = s.rle := rfl
@[simp] theorem State.runFol_blr (s : State) : (s.runFol).blr = s.blr := rfl
@[simp] theorem State.runFol_bld (s : State) : (s.runFol).bld = s.bld := rfl
@[simp] theorem State.runFol_aww (s : State) : (s.runFol).aww = s.aww := rfl
@[simp] theorem State.runFol_canvasEra (s : State) : (s.runFol).canvasEra = s.canvasEra := rfl
@[simp] theorem State.runFol_ewsEra (s : State) : (s.runFol).ewsEra = s.ewsEra := rfl
@[simp] theorem State.runFol_blistEra (s : State) : (s.runFol).blistEra = s.blistEra := rfl
@[simp] theorem State.runFol_env (s : State) : (s.runFol).env = s.env := rfl
@[simp] theorem State.runFol_surface (s : State) :
    s.runFol.surface = (layerFol s.env s.folsel s.surface).surface := rfl
@[simp] theorem State.runFol_placements (s : State) : s.runFol.placements = s.placements := rfl

/-! ## `State.runBld` -/

@[simp] theorem State.runBld_status (s : State) : (s.runBld).status = s.status := rfl
@[simp] theorem State.runBld_rejCause (s : State) : (s.runBld).rejCause = s.rejCause := rfl
@[simp] theorem State.runBld_anom (s : State) :
    (s.runBld).anom = (layerBld s.env s.placements s.surface).surface.anom := rfl
@[simp] theorem State.runBld_lstat1 (s : State) : (s.runBld).lstat1 = s.lstat1 := rfl
@[simp] theorem State.runBld_lstat2 (s : State) : (s.runBld).lstat2 = s.lstat2 := rfl
@[simp] theorem State.runBld_lstat3 (s : State) : (s.runBld).lstat3 = s.lstat3 := rfl
@[simp] theorem State.runBld_lstat4 (s : State) :
    (s.runBld).lstat4 = (layerBld s.env s.placements s.surface).outcome := rfl
@[simp] theorem State.runBld_lstat5 (s : State) : (s.runBld).lstat5 = s.lstat5 := rfl
@[simp] theorem State.runBld_word (s : State) : (s.runBld).word = s.word := rfl
@[simp] theorem State.runBld_code (s : State) : (s.runBld).code = s.code := rfl
@[simp] theorem State.runBld_xf (s : State) : (s.runBld).xf = s.xf := rfl
@[simp] theorem State.runBld_yf (s : State) : (s.runBld).yf = s.yf := rfl
@[simp] theorem State.runBld_pali (s : State) : (s.runBld).pali = s.pali := rfl
@[simp] theorem State.runBld_tx (s : State) : (s.runBld).tx = s.tx := rfl
@[simp] theorem State.runBld_ty (s : State) : (s.runBld).ty = s.ty := rfl
@[simp] theorem State.runBld_nib (s : State) : (s.runBld).nib = s.nib := rfl
@[simp] theorem State.runBld_px (s : State) : (s.runBld).px = s.px := rfl
@[simp] theorem State.runBld_py (s : State) : (s.runBld).py = s.py := rfl
@[simp] theorem State.runBld_cur (s : State) : (s.runBld).cur = s.cur := rfl
@[simp] theorem State.runBld_base (s : State) : (s.runBld).base = s.base := rfl
@[simp] theorem State.runBld_consumed (s : State) : (s.runBld).consumed = s.consumed := rfl
@[simp] theorem State.runBld_sel (s : State) : (s.runBld).sel = s.sel := rfl
@[simp] theorem State.runBld_off (s : State) : (s.runBld).off = s.off := rfl
@[simp] theorem State.runBld_lvl (s : State) : (s.runBld).lvl = s.lvl := rfl
@[simp] theorem State.runBld_bgsel (s : State) : (s.runBld).bgsel = s.bgsel := rfl
@[simp] theorem State.runBld_tersel (s : State) : (s.runBld).tersel = s.tersel := rfl
@[simp] theorem State.runBld_folsel (s : State) : (s.runBld).folsel = s.folsel := rfl
@[simp] theorem State.runBld_blptr (s : State) : (s.runBld).blptr = s.blptr := rfl
@[simp] theorem State.runBld_nbld (s : State) : (s.runBld).nbld = s.nbld := rfl
@[simp] theorem State.runBld_rom (s : State) : (s.runBld).rom = s.rom := rfl
@[simp] theorem State.runBld_tile (s : State) : (s.runBld).tile = s.tile := rfl
@[simp] theorem State.runBld_pal (s : State) : (s.runBld).pal = s.pal := rfl
@[simp] theorem State.runBld_canvas (s : State) :
    (s.runBld).canvas = (layerBld s.env s.placements s.surface).surface.canvas := rfl
@[simp] theorem State.runBld_ews (s : State) : (s.runBld).ews = s.ews := rfl
@[simp] theorem State.runBld_blist (s : State) : (s.runBld).blist = s.blist := rfl
@[simp] theorem State.runBld_par (s : State) : (s.runBld).par = s.par := rfl
@[simp] theorem State.runBld_bus (s : State) : (s.runBld).bus = s.bus := rfl
@[simp] theorem State.runBld_hostData (s : State) : (s.runBld).hostData = s.hostData := rfl
@[simp] theorem State.runBld_site (s : State) : (s.runBld).site = s.site := rfl
@[simp] theorem State.runBld_rle (s : State) : (s.runBld).rle = s.rle := rfl
@[simp] theorem State.runBld_blr (s : State) : (s.runBld).blr = s.blr := rfl
@[simp] theorem State.runBld_bld (s : State) : (s.runBld).bld = s.bld := rfl
@[simp] theorem State.runBld_aww (s : State) : (s.runBld).aww = s.aww := rfl
@[simp] theorem State.runBld_canvasEra (s : State) : (s.runBld).canvasEra = s.canvasEra := rfl
@[simp] theorem State.runBld_ewsEra (s : State) : (s.runBld).ewsEra = s.ewsEra := rfl
@[simp] theorem State.runBld_blistEra (s : State) : (s.runBld).blistEra = s.blistEra := rfl
@[simp] theorem State.runBld_env (s : State) : (s.runBld).env = s.env := rfl
@[simp] theorem State.runBld_surface (s : State) :
    s.runBld.surface = (layerBld s.env s.placements s.surface).surface := rfl
@[simp] theorem State.runBld_placements (s : State) : s.runBld.placements = s.placements := rfl

/-! ## `State.runTer` -/

@[simp] theorem State.runTer_status (s : State) : (s.runTer).status = s.status := rfl
@[simp] theorem State.runTer_rejCause (s : State) : (s.runTer).rejCause = s.rejCause := rfl
@[simp] theorem State.runTer_anom (s : State) :
    (s.runTer).anom = (layerTer s.env s.tersel s.surface).surface.anom := rfl
@[simp] theorem State.runTer_lstat1 (s : State) : (s.runTer).lstat1 = s.lstat1 := rfl
@[simp] theorem State.runTer_lstat2 (s : State) : (s.runTer).lstat2 = s.lstat2 := rfl
@[simp] theorem State.runTer_lstat3 (s : State) : (s.runTer).lstat3 = s.lstat3 := rfl
@[simp] theorem State.runTer_lstat4 (s : State) : (s.runTer).lstat4 = s.lstat4 := rfl
@[simp] theorem State.runTer_lstat5 (s : State) :
    (s.runTer).lstat5 = (layerTer s.env s.tersel s.surface).outcome := rfl
@[simp] theorem State.runTer_word (s : State) : (s.runTer).word = s.word := rfl
@[simp] theorem State.runTer_code (s : State) : (s.runTer).code = s.code := rfl
@[simp] theorem State.runTer_xf (s : State) : (s.runTer).xf = s.xf := rfl
@[simp] theorem State.runTer_yf (s : State) : (s.runTer).yf = s.yf := rfl
@[simp] theorem State.runTer_pali (s : State) : (s.runTer).pali = s.pali := rfl
@[simp] theorem State.runTer_tx (s : State) : (s.runTer).tx = s.tx := rfl
@[simp] theorem State.runTer_ty (s : State) : (s.runTer).ty = s.ty := rfl
@[simp] theorem State.runTer_nib (s : State) : (s.runTer).nib = s.nib := rfl
@[simp] theorem State.runTer_px (s : State) : (s.runTer).px = s.px := rfl
@[simp] theorem State.runTer_py (s : State) : (s.runTer).py = s.py := rfl
@[simp] theorem State.runTer_cur (s : State) : (s.runTer).cur = s.cur := rfl
@[simp] theorem State.runTer_base (s : State) : (s.runTer).base = s.base := rfl
@[simp] theorem State.runTer_consumed (s : State) : (s.runTer).consumed = s.consumed := rfl
@[simp] theorem State.runTer_sel (s : State) : (s.runTer).sel = s.sel := rfl
@[simp] theorem State.runTer_off (s : State) : (s.runTer).off = s.off := rfl
@[simp] theorem State.runTer_lvl (s : State) : (s.runTer).lvl = s.lvl := rfl
@[simp] theorem State.runTer_bgsel (s : State) : (s.runTer).bgsel = s.bgsel := rfl
@[simp] theorem State.runTer_tersel (s : State) : (s.runTer).tersel = s.tersel := rfl
@[simp] theorem State.runTer_folsel (s : State) : (s.runTer).folsel = s.folsel := rfl
@[simp] theorem State.runTer_blptr (s : State) : (s.runTer).blptr = s.blptr := rfl
@[simp] theorem State.runTer_nbld (s : State) : (s.runTer).nbld = s.nbld := rfl
@[simp] theorem State.runTer_rom (s : State) : (s.runTer).rom = s.rom := rfl
@[simp] theorem State.runTer_tile (s : State) : (s.runTer).tile = s.tile := rfl
@[simp] theorem State.runTer_pal (s : State) : (s.runTer).pal = s.pal := rfl
@[simp] theorem State.runTer_canvas (s : State) :
    (s.runTer).canvas = (layerTer s.env s.tersel s.surface).surface.canvas := rfl
@[simp] theorem State.runTer_ews (s : State) : (s.runTer).ews = s.ews := rfl
@[simp] theorem State.runTer_blist (s : State) : (s.runTer).blist = s.blist := rfl
@[simp] theorem State.runTer_par (s : State) : (s.runTer).par = s.par := rfl
@[simp] theorem State.runTer_bus (s : State) : (s.runTer).bus = s.bus := rfl
@[simp] theorem State.runTer_hostData (s : State) : (s.runTer).hostData = s.hostData := rfl
@[simp] theorem State.runTer_site (s : State) : (s.runTer).site = s.site := rfl
@[simp] theorem State.runTer_rle (s : State) : (s.runTer).rle = s.rle := rfl
@[simp] theorem State.runTer_blr (s : State) : (s.runTer).blr = s.blr := rfl
@[simp] theorem State.runTer_bld (s : State) : (s.runTer).bld = s.bld := rfl
@[simp] theorem State.runTer_aww (s : State) : (s.runTer).aww = s.aww := rfl
@[simp] theorem State.runTer_canvasEra (s : State) : (s.runTer).canvasEra = s.canvasEra := rfl
@[simp] theorem State.runTer_ewsEra (s : State) : (s.runTer).ewsEra = s.ewsEra := rfl
@[simp] theorem State.runTer_blistEra (s : State) : (s.runTer).blistEra = s.blistEra := rfl
@[simp] theorem State.runTer_env (s : State) : (s.runTer).env = s.env := rfl
@[simp] theorem State.runTer_surface (s : State) :
    s.runTer.surface = (layerTer s.env s.tersel s.surface).surface := rfl
@[simp] theorem State.runTer_placements (s : State) : s.runTer.placements = s.placements := rfl

/-! ## `State.answer` -/

@[simp] theorem State.answer_status (s : State) (v : Int) : (s.answer v).status = s.status := rfl
@[simp] theorem State.answer_rejCause (s : State) (v : Int) : (s.answer v).rejCause = s.rejCause := rfl
@[simp] theorem State.answer_anom (s : State) (v : Int) : (s.answer v).anom = s.anom := rfl
@[simp] theorem State.answer_lstat1 (s : State) (v : Int) : (s.answer v).lstat1 = s.lstat1 := rfl
@[simp] theorem State.answer_lstat2 (s : State) (v : Int) : (s.answer v).lstat2 = s.lstat2 := rfl
@[simp] theorem State.answer_lstat3 (s : State) (v : Int) : (s.answer v).lstat3 = s.lstat3 := rfl
@[simp] theorem State.answer_lstat4 (s : State) (v : Int) : (s.answer v).lstat4 = s.lstat4 := rfl
@[simp] theorem State.answer_lstat5 (s : State) (v : Int) : (s.answer v).lstat5 = s.lstat5 := rfl
@[simp] theorem State.answer_word (s : State) (v : Int) : (s.answer v).word = s.word := rfl
@[simp] theorem State.answer_code (s : State) (v : Int) : (s.answer v).code = s.code := rfl
@[simp] theorem State.answer_xf (s : State) (v : Int) : (s.answer v).xf = s.xf := rfl
@[simp] theorem State.answer_yf (s : State) (v : Int) : (s.answer v).yf = s.yf := rfl
@[simp] theorem State.answer_pali (s : State) (v : Int) : (s.answer v).pali = s.pali := rfl
@[simp] theorem State.answer_tx (s : State) (v : Int) : (s.answer v).tx = s.tx := rfl
@[simp] theorem State.answer_ty (s : State) (v : Int) : (s.answer v).ty = s.ty := rfl
@[simp] theorem State.answer_nib (s : State) (v : Int) : (s.answer v).nib = s.nib := rfl
@[simp] theorem State.answer_px (s : State) (v : Int) : (s.answer v).px = s.px := rfl
@[simp] theorem State.answer_py (s : State) (v : Int) : (s.answer v).py = s.py := rfl
@[simp] theorem State.answer_cur (s : State) (v : Int) : (s.answer v).cur = s.cur := rfl
@[simp] theorem State.answer_base (s : State) (v : Int) : (s.answer v).base = s.base := rfl
@[simp] theorem State.answer_consumed (s : State) (v : Int) : (s.answer v).consumed = s.consumed := rfl
@[simp] theorem State.answer_sel (s : State) (v : Int) : (s.answer v).sel = s.sel := rfl
@[simp] theorem State.answer_off (s : State) (v : Int) : (s.answer v).off = s.off := rfl
@[simp] theorem State.answer_lvl (s : State) (v : Int) : (s.answer v).lvl = s.lvl := rfl
@[simp] theorem State.answer_bgsel (s : State) (v : Int) : (s.answer v).bgsel = s.bgsel := rfl
@[simp] theorem State.answer_tersel (s : State) (v : Int) : (s.answer v).tersel = s.tersel := rfl
@[simp] theorem State.answer_folsel (s : State) (v : Int) : (s.answer v).folsel = s.folsel := rfl
@[simp] theorem State.answer_blptr (s : State) (v : Int) : (s.answer v).blptr = s.blptr := rfl
@[simp] theorem State.answer_nbld (s : State) (v : Int) : (s.answer v).nbld = s.nbld := rfl
@[simp] theorem State.answer_rom (s : State) (v : Int) : (s.answer v).rom = s.rom := rfl
@[simp] theorem State.answer_tile (s : State) (v : Int) : (s.answer v).tile = s.tile := rfl
@[simp] theorem State.answer_pal (s : State) (v : Int) : (s.answer v).pal = s.pal := rfl
@[simp] theorem State.answer_canvas (s : State) (v : Int) : (s.answer v).canvas = s.canvas := rfl
@[simp] theorem State.answer_ews (s : State) (v : Int) : (s.answer v).ews = s.ews := rfl
@[simp] theorem State.answer_blist (s : State) (v : Int) : (s.answer v).blist = s.blist := rfl
@[simp] theorem State.answer_par (s : State) (v : Int) : (s.answer v).par = s.par := rfl
@[simp] theorem State.answer_bus (s : State) (v : Int) : (s.answer v).bus = s.bus := rfl
@[simp] theorem State.answer_hostData (s : State) (v : Int) : (s.answer v).hostData = v := rfl
@[simp] theorem State.answer_site (s : State) (v : Int) : (s.answer v).site = s.site := rfl
@[simp] theorem State.answer_rle (s : State) (v : Int) : (s.answer v).rle = s.rle := rfl
@[simp] theorem State.answer_blr (s : State) (v : Int) : (s.answer v).blr = s.blr := rfl
@[simp] theorem State.answer_bld (s : State) (v : Int) : (s.answer v).bld = s.bld := rfl
@[simp] theorem State.answer_aww (s : State) (v : Int) : (s.answer v).aww = s.aww := rfl
@[simp] theorem State.answer_canvasEra (s : State) (v : Int) : (s.answer v).canvasEra = s.canvasEra := rfl
@[simp] theorem State.answer_ewsEra (s : State) (v : Int) : (s.answer v).ewsEra = s.ewsEra := rfl
@[simp] theorem State.answer_blistEra (s : State) (v : Int) : (s.answer v).blistEra = s.blistEra := rfl

/-! ## `State.runAll`: only the canvas, `ANOM`, `STATUS` and the `LSTAT`s change -/

@[simp] theorem State.runAll_rejCause (s : State) : s.runAll.rejCause = s.rejCause := by simp [State.runAll]
@[simp] theorem State.runAll_word (s : State) : s.runAll.word = s.word := by simp [State.runAll]
@[simp] theorem State.runAll_code (s : State) : s.runAll.code = s.code := by simp [State.runAll]
@[simp] theorem State.runAll_xf (s : State) : s.runAll.xf = s.xf := by simp [State.runAll]
@[simp] theorem State.runAll_yf (s : State) : s.runAll.yf = s.yf := by simp [State.runAll]
@[simp] theorem State.runAll_pali (s : State) : s.runAll.pali = s.pali := by simp [State.runAll]
@[simp] theorem State.runAll_tx (s : State) : s.runAll.tx = s.tx := by simp [State.runAll]
@[simp] theorem State.runAll_ty (s : State) : s.runAll.ty = s.ty := by simp [State.runAll]
@[simp] theorem State.runAll_nib (s : State) : s.runAll.nib = s.nib := by simp [State.runAll]
@[simp] theorem State.runAll_px (s : State) : s.runAll.px = s.px := by simp [State.runAll]
@[simp] theorem State.runAll_py (s : State) : s.runAll.py = s.py := by simp [State.runAll]
@[simp] theorem State.runAll_cur (s : State) : s.runAll.cur = s.cur := by simp [State.runAll]
@[simp] theorem State.runAll_base (s : State) : s.runAll.base = s.base := by simp [State.runAll]
@[simp] theorem State.runAll_consumed (s : State) : s.runAll.consumed = s.consumed := by simp [State.runAll]
@[simp] theorem State.runAll_sel (s : State) : s.runAll.sel = s.sel := by simp [State.runAll]
@[simp] theorem State.runAll_off (s : State) : s.runAll.off = s.off := by simp [State.runAll]
@[simp] theorem State.runAll_lvl (s : State) : s.runAll.lvl = s.lvl := by simp [State.runAll]
@[simp] theorem State.runAll_bgsel (s : State) : s.runAll.bgsel = s.bgsel := by simp [State.runAll]
@[simp] theorem State.runAll_tersel (s : State) : s.runAll.tersel = s.tersel := by simp [State.runAll]
@[simp] theorem State.runAll_folsel (s : State) : s.runAll.folsel = s.folsel := by simp [State.runAll]
@[simp] theorem State.runAll_blptr (s : State) : s.runAll.blptr = s.blptr := by simp [State.runAll]
@[simp] theorem State.runAll_nbld (s : State) : s.runAll.nbld = s.nbld := by simp [State.runAll]
@[simp] theorem State.runAll_rom (s : State) : s.runAll.rom = s.rom := by simp [State.runAll]
@[simp] theorem State.runAll_tile (s : State) : s.runAll.tile = s.tile := by simp [State.runAll]
@[simp] theorem State.runAll_pal (s : State) : s.runAll.pal = s.pal := by simp [State.runAll]
@[simp] theorem State.runAll_ews (s : State) : s.runAll.ews = s.ews := by simp [State.runAll]
@[simp] theorem State.runAll_blist (s : State) : s.runAll.blist = s.blist := by simp [State.runAll]
@[simp] theorem State.runAll_par (s : State) : s.runAll.par = s.par := by simp [State.runAll]
@[simp] theorem State.runAll_bus (s : State) : s.runAll.bus = s.bus := by simp [State.runAll]
@[simp] theorem State.runAll_hostData (s : State) : s.runAll.hostData = s.hostData := by simp [State.runAll]
@[simp] theorem State.runAll_site (s : State) : s.runAll.site = s.site := by simp [State.runAll]
@[simp] theorem State.runAll_rle (s : State) : s.runAll.rle = s.rle := by simp [State.runAll]
@[simp] theorem State.runAll_blr (s : State) : s.runAll.blr = s.blr := by simp [State.runAll]
@[simp] theorem State.runAll_bld (s : State) : s.runAll.bld = s.bld := by simp [State.runAll]
@[simp] theorem State.runAll_aww (s : State) : s.runAll.aww = s.aww := by simp [State.runAll]
@[simp] theorem State.runAll_canvasEra (s : State) : s.runAll.canvasEra = s.canvasEra := by simp [State.runAll]
@[simp] theorem State.runAll_ewsEra (s : State) : s.runAll.ewsEra = s.ewsEra := by simp [State.runAll]
@[simp] theorem State.runAll_blistEra (s : State) : s.runAll.blistEra = s.blistEra := by simp [State.runAll]

end Sys2Proof.Machine
end

