-- ==== Sys2Proof/Laws/Stepping.lean ====
section
/-! SUPPORT. What a step can be, said once: it runs an instruction on the state with the access taken off
the queue, serves a host access, or moves a cursor. A property that all of these keep is kept by every
step. -/

namespace Sys2Proof.Machine

/-- A property of states that every instruction, every host access and every fetch keeps. -/
structure StepKeeps (P : State → Prop) : Prop where
  exec : ∀ (i : Instr) (s t : State), P s → exec i s = .next t → P t
  serve : ∀ (s : State) (a : HostAccess), P s → P (serveAccess s a)
  bus : ∀ (s : State) (b : List HostAccess), P s → P { s with bus := b }
  site : ∀ (s : State) (x : FetchSite), P s → P { s with site := x }
  rle : ∀ s : State, P s → P { s with rle := rleExhausted s.rle }
  blr : ∀ s : State, P s → P { s with blr := listCut s.blr }
  bld : ∀ (s : State) (b : BuildCursor), P s → P { s.raise .badSel with bld := b }

/-- What a fetch does next. -/
def runFetched : Fetched → Host.Outcome State Fault Refusal
  | .run i t => exec i t
  | .done t => .next t

theorem step_eq (s : State) : step s = runFetched (fetch s) := by
  unfold step runFetched
  cases fetch s <;> rfl

/-- At the command interface, a step serves the next access, unless that writes `OP`. -/
theorem step_serve {s : State} {a : HostAccess} {rest : List HostAccess} (hs : s.site = .command)
    (hb : s.bus = a :: rest) (ha : ∀ v, a ≠ .write 0 v) :
    step s = .next (serveAccess { s with bus := rest } a) := by
  cases a
  case write n v =>
    have hn : n ≠ 0 := by rintro rfl; exact ha v rfl
    simp [step, fetch, hs, fetchCommand, hb, fetchAccess, hn]
  all_goals simp [step, fetch, hs, fetchCommand, hb, fetchAccess]

theorem runFetched_fetchDecoded_keeps {P : State → Prop} (h : StepKeeps P) {f : Format}
    {bs : List Byte} {s t : State} (hs : P s) (he : runFetched (fetchDecoded f bs s) = .next t) :
    P t := by
  unfold fetchDecoded at he
  split at he
  · exact h.exec _ _ _ hs he
  · injection he with he; exact he ▸ hs
  · injection he with he; exact he ▸ hs
  · injection he with he; exact he ▸ hs

theorem runFetched_fetchAccess_keeps {P : State → Prop} (h : StepKeeps P) {a : HostAccess}
    {s t : State} (hs : P s) (he : runFetched (fetchAccess s a) = .next t) : P t := by
  cases a
  case write n v =>
    by_cases hn : n = 0
    · exact runFetched_fetchDecoded_keeps h hs (by simpa only [fetchAccess, if_pos hn] using he)
    · simp only [fetchAccess, if_neg hn, runFetched] at he
      injection he with he
      exact he ▸ h.serve _ _ hs
  all_goals (injection he with he; exact he ▸ h.serve _ _ hs)

/-- A step keeps what instructions, accesses and fetches keep. -/
theorem StepKeeps.step {P : State → Prop} (h : StepKeeps P) {s t : State} (hs : P s)
    (he : Machine.step s = .next t) : P t := by
  rw [step_eq] at he
  unfold fetch at he
  split at he
  · unfold fetchCommand at he
    split at he
    · injection he with he; exact he ▸ hs
    · exact runFetched_fetchAccess_keeps h (h.bus _ _ hs) he
  · unfold fetchStream at he
    split at he
    · injection he with he; exact he ▸ h.site _ _ hs
    · split at he
      · injection he with he; exact he ▸ h.rle _ hs
      · exact runFetched_fetchDecoded_keeps h hs he
  · unfold fetchList at he
    split at he
    · injection he with he; exact he ▸ h.site _ _ hs
    · split at he
      · injection he with he; exact he ▸ h.blr _ hs
      · exact runFetched_fetchDecoded_keeps h hs he
  · unfold fetchBuilding at he
    split at he
    · injection he with he; exact he ▸ h.site _ _ hs
    · split at he
      · injection he with he; exact he ▸ h.bld _ _ hs
      · exact runFetched_fetchDecoded_keeps h hs he
  · unfold fetchWord at he
    split at he
    · injection he with he; exact he ▸ h.site _ _ hs
    · exact runFetched_fetchDecoded_keeps h hs he

end Sys2Proof.Machine
end

