-- ==== Sys2Proof/Tests/Slice0.lean ====
section
/-! SUPPORT. Tests: the well-formedness smoke tests, every row's decoding from a word written out from
spec/30_encoding.md, and one-step tests whose expected results are the vectors of
spec/95_test_vectors.md (cited as V<section> row). -/

namespace Sys2Proof.Tests

-- one test after another: run side by side, their threads use up the memory limit
set_option Elab.async false

open Sys2Proof.Machine

/-! ## WellFormed smoke tests -/

theorem test_wf_refuses_run_zero : (Instr.run 0).wf = false := by decide
theorem test_wf_refuses_brec_of_end_mark : (Instr.brec 0xFF).wf = false := by decide
theorem test_wf_refuses_brec_of_skip_mark : (Instr.brec 0xFA).wf = false := by decide
theorem test_wf_refuses_tw8_of_mode_ff : (Instr.tw8 0xFF).wf = false := by decide
theorem test_wf_refuses_badop_of_select_code : (Instr.badop 0x1F).wf = false := by decide
theorem test_wf_takes_brec_fe : (Instr.brec 0xFE).wf = true := by decide
theorem test_wf_takes_badop_0d : (Instr.badop 0x0D).wf = true := by decide

/-! ## Decoding, from the patterns of 30_encoding.md R91, R93, R97, R99, R113 -/

/-- `0x5ABC`: bit 14 set, rawPal 1, yFlip 1, xFlip 0, low bits `0x2BC` (40_attribute_word.md R131). -/
theorem test_decode_aw :
    decode .aw [0xBC, 0x5A] = .ok (.aw 1 0b01 1 0 0x2BC) [] := by decide
/-- Bit 15 is in no field (R91). -/
theorem test_decode_aw_bit15 :
    decode .aw [0x05, 0xAC] = .ok (.aw 0 0b10 1 1 0x005) [] := by decide
theorem test_decode_end : decode .rle [0b00000000] = .ok .endItem [] := by decide
theorem test_decode_lit : decode .rle [0b10000010, 0x01] = .ok (.lit 2) [0x01] := by decide
theorem test_decode_lit_zero : decode .rle [0b10000000] = .ok (.lit 0) [] := by decide
theorem test_decode_run : decode .rle [0b01111111] = .ok (.run 127) [] := by decide
theorem test_decode_bend : decode .blr [0b11111111] = .ok .bend [] := by decide
theorem test_decode_bskip_low : decode .blr [0b11111011] = .ok (.bskipLow 1) [] := by decide
theorem test_decode_bskip_high : decode .blr [0b11111100] = .ok (.bskipHigh 0) [] := by decide
theorem test_decode_brec : decode .blr [0b11111110] = .ok (.brec 0xFE) [] := by decide
theorem test_decode_tw16 : decode .bld [0b11111111] = .ok .tw16 [] := by decide
theorem test_decode_tw8 : decode .bld [0b00000100] = .ok (.tw8 0x04) [] := by decide
/-- The nineteen select codes of R113, in its order. -/
theorem test_decode_select_codes :
    (selectCodes.map (fun c => decode .op [c])) =
      [Instr.awdec, .samp8, .samp32, .rld, .rsvlvl, .rsvbg, .rsvter, .rsvfol, .rsvbld, .ldlvl, .paint8,
        .clear, .drawbg, .drawsky, .drawfol, .drawbld, .drawter, .composed, .compose].map
        (fun i => DecodeResult.ok i []) := by decide
/-- R114: `0x00`, `0x0D`, `0x15`, `0x20`, `0xFF` select no operation. -/
theorem test_decode_badop :
    ([0x00, 0x0D, 0x15, 0x20, 0xFF].map (fun c => decode .op [c])) =
      ([0x00, 0x0D, 0x15, 0x20, 0xFF].map (fun c : Byte => DecodeResult.ok (.badop c) [])) := by decide
theorem test_decode_rejects_empty : decode .op [] = .noByte := by decide
theorem test_decode_rejects_half_word : decode .aw [0x12] = .halfWord := by decide

/-! ## Table words and fetching -/

theorem test_table_word_rld : decodeTableWord 8 0x04 = some .rld := by decide
theorem test_table_word_lit : decodeTableWord 8 0x80 = some (.lit 0) := by decide
theorem test_table_word_end : decodeTableWord 8 0x00 = some .endItem := by decide
theorem test_table_word_bskip : decodeTableWord 8 0xFC = some (.bskipHigh 0) := by decide
theorem test_table_word_aw : decodeTableWord 16 0x5ABC = some (.aw 1 0b01 1 0 0x2BC) := by decide

/-- The state a step answers. -/
def nextOf : Host.Outcome State Fault Refusal → State
  | .next s => s
  | .fault _ => State.reset
  | .refused _ => State.reset

theorem test_step_runs_placed_operation :
    (nextOf (step (State.reset.withFetchWord 8 0x0D))).status = .ok ∧
    (nextOf (step { State.reset with bus := [.write 0 0x0D] })).status = .badOp := by decide
theorem test_step_runs_placed_lit :
    (nextOf (step (State.reset.withFetchWord 8 0x81))).rle.pairs = [⟨0, 0⟩] := by decide
theorem test_step_runs_placed_word :
    (nextOf (step (State.reset.withFetchWord 16 0x5ABC))).aww.decoded = ⟨0x6BC, 0, 1, 2⟩ := by decide
theorem test_step_runs_placed_record :
    (nextOf (step (State.reset.withFetchWord 8 0xFA))).blr.pos = 2 := by decide

/-! ## Small states -/

/-- The reset state with a ROM of exactly these bytes and `CUR`, the stream cursor and the list cursor
at 0. -/
def withRom (bytes : List Byte) : State := { State.reset with rom := Buffer.ofBytes bytes }

/-- The memories of 95_test_vectors.md section 3.1: a ROM of `0x9800` bytes with the bytes listed there, four
tiles, 64 palette entries. -/
def romVectors : Buffer :=
  { len := 0x9800
    cells :=
      [(0x7613, 0x40), (0x7614, 0x01), (0x7615, 0x30),
       (0x7700, 0x20), (0x7701, 0x02), (0x7702, 0x20),
       (0x7710, 0x82), (0x7711, 0x02), (0x7712, 0x14), (0x7713, 0x03), (0x7714, 0x58),
       (0x7800, 0x04), (0x7801, 0x0C),
       (0x7900, 0x02), (0x7901, 0x02), (0x7903, 0x01), (0x7904, 0x02), (0x7905, 0x03),
       (0x7906, 0x01)] ++
      [(0x7910, 0x01), (0x7911, 0x02), (0x7912, 0xFF), (0x7913, 0x02), (0x7914, 0x04),
       (0x7915, 0x03), (0x7A00, 0x01), (0x7A01, 0x0A), (0x7A02, 0x20), (0x7A03, 0xFA), (0x7A04, 0x99),
       (0x7A05, 0x02), (0x7A06, 0x0A), (0x7A08, 0xFF), (0x892B, 0x77), (0x892D, 0xFB), (0x892E, 0x97),
       (0x8936, 0x10), (0x8937, 0x77), (0x95AF, 0x78), (0x95B2, 0x80), (0x95B3, 0x97),
       (0x95B7, 0x79), (0x95B8, 0x10), (0x95B9, 0x79), (0x95BA, 0x80), (0x95BB, 0x97),
       (0x95BC, 0xFD), (0x95BD, 0x97),
       (0x97FB, 0x83), (0x97FC, 0x02), (0x97FD, 0x20), (0x97FE, 0x02), (0x97FF, 0x20)] }

/-- One row of tile 2 and one of tile 3 of section 3.1. -/
def tileBytes : List Byte :=
  List.replicate 32 0x00 ++ List.replicate 32 0x11 ++
    (List.replicate 8 [0x12, 0x34, 0x56, 0x78]).flatten ++
    ([0x88, 0x99, 0xAA, 0xBB, 0xCC, 0xDD, 0xEE, 0xFF].map (List.replicate 4)).flatten

/-- `PAL[i] = (i, 100 + i, 200)` for 64 entries (section 3.1). -/
def palBytes : List Byte :=
  (List.range 64).flatMap (fun i => [BitVec.ofNat 8 i, BitVec.ofNat 8 (100 + i), 200])

/-- The state of section 3.1. -/
def vectors : State :=
  { State.reset with
    rom := romVectors, tile := Buffer.ofBytes tileBytes, pal := Buffer.ofBytes palBytes }

theorem test_vectors_canonical :
    vectors.rom.wf = true ∧ vectors.tile.wf = true ∧ vectors.pal.wf = true := by
  decide +kernel

/-- The state an instruction leaves. -/
def after (i : Instr) (s : State) : State := nextOf (exec i s)

/-! ## One step: attribute words and samplers (95_test_vectors.md sections 2.1 and 2.2) -/

/-- The pixel of a canvas as a triple, for short tests. -/
def px (s : State) (x y : Nat) : Option (Nat × Nat × Nat) :=
  (s.canvas.pixel x y).map (fun c => (c.r.toNat, c.g.toNat, c.b.toNat))

/-- Palette entry `i` of section 3.1, as `px` shows it. -/
def P (i : Nat) : Option (Nat × Nat × Nat) := some (i, 100 + i, 200)

/-- V2.1 row 17, as an item at the word cursor. -/
theorem test_aw_row17 :
    (after (.aw 1 0b01 1 0 0x2BC) State.reset).aww = ⟨2, ⟨0x6BC, 0, 1, 2⟩⟩ := by decide

/-- V2.1 rows 4 and 16. -/
theorem test_awdec_rows :
    ([0x8000, 0x2C05].map (fun w =>
      let s := after .awdec { State.reset with word := w }
      (s.code.toNat, s.xf.toNat, s.yf.toNat, s.pali.toInt))) =
      [(0x000, 0, 0, 3), (0x005, 1, 1, 1)] := by decide +kernel

/-- The 8×8 tile of V2.2. -/
def sampled8 (tx ty : BitVec 5) (xf yf : BitVec 1) : BitVec 4 :=
  (after .samp8
    { State.reset with
      tile := Buffer.ofBytes ((List.range 32).map (fun i => BitVec.ofNat 8 (0x11 * i + 0x23)))
      tx := tx, ty := ty, xf := xf, yf := yf }).nib

/-- V2.2 rows 2, 3, 4, 6, 8, 11, 12, 15. -/
theorem test_samp8_rows :
    [sampled8 1 0 0 0, sampled8 7 0 0 0, sampled8 0 0 1 0, sampled8 0 0 0 1, sampled8 7 7 0 0,
      sampled8 3 5 0 1, sampled8 3 5 1 1, sampled8 4 3 1 0] =
      [0x3, 0x6, 0x6, 0xF, 0x2, 0xC, 0xC, 0x0] := by decide +kernel

/-- V2.2 rejections: `TX = 8`. -/
theorem test_samp8_rejects :
    (after .samp8 { vectors with tx := 8 }).rejCause = .contract ∧
    (after .samp8 { vectors with tx := 8 }).status = .rejected := by decide +kernel

/-- V2.2, the 32×32 tile, rows 2 to 6. -/
theorem test_samp32_rows :
    ([(31, 2, 0, 0), (31, 2, 1, 0), (31, 2, 0, 1), (16, 17, 0, 0), (16, 17, 1, 1)].map
      (fun a : BitVec 5 × BitVec 5 × BitVec 1 × BitVec 1 =>
        (after .samp32
          { State.reset with
            tile := Buffer.ofBytes ((List.range 512).map (fun i => BitVec.ofNat 8 i))
            tx := a.1, ty := a.2.1, xf := a.2.2.1, yf := a.2.2.2 }).nib)) =
      [0xF, 0x2, 0xF, 0x1, 0x7] := by decide +kernel

/-! ## One step: run-length items and streams (section 2.3) -/

/-- What `RLD` from `CUR = 0` leaves of a ROM of these bytes: pairs, `CONSUMED`, outcome. -/
def streamOf (bytes : List Byte) : List (Nat × Nat) × Nat × OpOutcome :=
  let s := after .rld (withRom bytes)
  (s.ews.map (fun p => (p.lo.toNat, p.hi.toNat)), s.consumed, s.status)

/-- V2.3 rows 1, 3, 6, 10, 14 and 18. -/
theorem test_rld_whole :
    [[0x02, 0x10, 0x20], [0x00], [0x03, 0xAA, 0xFF, 0x81, 0x55, 0xC1, 0x00, 0x99],
      [0x83, 0x01, 0x40, 0x02, 0x80, 0x03, 0xFF], [0x80],
      [0x82, 0x05, 0x0C, 0x06, 0x40, 0x03, 0x07, 0xD0, 0x80, 0x00]].map streamOf =
      [([(0x10, 0x20), (0x10, 0x20)], 3, .ok), ([], 1, .ok),
        ([(0xAA, 0x3F), (0xAA, 0x3F), (0xAA, 0x3F), (0x55, 0x01)], 7, .ok),
        ([(1, 0), (2, 0), (3, 0x3F)], 7, .ok), ([], 1, .ok),
        ([(5, 0x0C), (6, 0), (7, 0x10), (7, 0x10), (7, 0x10)], 10, .ok)] := by decide +kernel

/-- V2.3 rows 7, 8, 11, 13, 16. -/
theorem test_rld_cut :
    [[0x82, 0x01, 0x00, 0x03], [0x05, 0x10], [0x01], [0xFF, 1, 2, 1, 2, 1, 2], [0x81, 0x12]].map
      streamOf =
      [([(1, 0)], 3, .partialEnd), ([], 1, .partialEnd), ([], 1, .partialEnd),
        ([(1, 2), (1, 2), (1, 2)], 7, .partialEnd), ([], 1, .partialEnd)] := by decide +kernel

/-- V2.3 row 3, the item alone. -/
theorem test_end_item : (after .endItem (withRom [0x00])).rle = ⟨1, [], .ok, true⟩ := by decide

/-- V2.3 rows 2 and 7, the item alone. -/
theorem test_lit_item :
    (after (.lit 2) (withRom [0x82, 0x01, 0x00, 0x03, 0x00])).rle =
      ⟨5, [⟨1, 0⟩, ⟨3, 0⟩], .ok, false⟩ ∧
    (after (.lit 2) (withRom [0x82, 0x01, 0x00, 0x03])).rle =
      ⟨3, [⟨1, 0⟩], .partialEnd, true⟩ := by decide +kernel

/-- V2.3 rows 1 and 8, the item alone. -/
theorem test_run_item :
    (after (.run 2) (withRom [0x02, 0x10, 0x20])).rle =
      ⟨3, [⟨0x10, 0x20⟩, ⟨0x10, 0x20⟩], .ok, false⟩ ∧
    (after (.run 5) (withRom [0x05, 0x10])).rle = ⟨1, [], .partialEnd, true⟩ := by decide +kernel

/-! ## One step: pointer tables (section 2.4) -/

/-- `STATUS`, `OFF` and `ANOM` after a resolving operation. -/
def resolvedBy (i : Instr) (sel : Byte) : OpOutcome × Nat × Nat :=
  let s := after i { vectors with sel := sel, off := 0xEEEE }
  (s.status, s.off.toNat, s.anom.toNat)

/-- V2.4 rows 22 and 23. -/
theorem test_rsvlvl_rows :
    [131, 132].map (resolvedBy .rsvlvl) =
      [(.ok, 0x92CC, 0), (.rejected, 0xEEEE, 0)] := by decide +kernel

/-- V2.4 rows 1, 3, 4. -/
theorem test_rsvbg_rows :
    [1, 15, 16].map (resolvedBy .rsvbg) =
      [(.ok, 0x7710, 0), (.ok, 0, 0), (.skipped, 0xEEEE, 0b0010)] := by decide +kernel

/-- V2.4, `ROM_LEN = 0x8937`: the second byte of the entry does not exist. -/
theorem test_rsvbg_unreadable :
    (after .rsvbg { vectors with rom := { romVectors with len := 0x8937 }, sel := 1 }).anom =
      0b0001 := by decide +kernel

/-- V2.4 rows 5 to 8 and 10. -/
theorem test_rsvter_rows :
    [2, 3, 4, 5, 11].map (resolvedBy .rsvter) =
      [(.ok, 0x7700, 0), (.ok, 0x0077, 0), (.skipped, 0xEEEE, 0b0010), (.ok, 0x97FB, 0),
        (.skipped, 0xEEEE, 0b0010)] := by decide +kernel

/-- V2.4 rows 11 to 15. -/
theorem test_rsvfol_rows :
    [2, 5, 6, 8, 1].map (resolvedBy .rsvfol) =
      [(.ok, 0x7800, 0), (.skipped, 0xEEEE, 0b0010), (.ok, 0x7900, 0), (.ok, 0x9780, 0),
        (.skipped, 0xEEEE, 0b0010)] := by decide +kernel

/-- V2.4 rows 17 to 20. -/
theorem test_rsvbld_rows :
    [2, 4, 0, 255].map (resolvedBy .rsvbld) =
      [(.ok, 0x7910, 0), (.ok, 0x97FD, 0), (.skipped, 0xEEEE, 0b0010), (.ok, 0, 0)] := by
  decide +kernel

/-! ## One step: building lists (section 2.5) -/

/-- `READLIST(0)` of a ROM of these bytes. -/
def listOf (bytes : List Byte) : List (Nat × Nat × Nat) × OpOutcome :=
  let r := readList (Buffer.ofBytes bytes) 0
  (r.list.map (fun p => (p.id.toNat, p.x.toNat, p.pal.toNat)), r.outcome)

/-- V2.5 rows 1, 3, 4, 6, 9, 10, 11, 12. -/
theorem test_readlist_rows :
    [[0x03, 0x10, 0x20, 0xFA, 0x99, 0x01, 0x08, 0x00, 0xFF], [0xFB, 0xFF, 0xFF],
      [0x05, 0xFF, 0xFF, 0xFF], [0xFE, 0x01, 0x02, 0xFF], [0x02, 0x04], [0x02, 0x04, 0x10], [0xFC],
      []].map listOf =
      [([(3, 0x10, 0x20), (1, 8, 0)], .ok), ([], .ok), ([(5, 0xFF, 0xFF)], .ok),
        ([(0xFE, 1, 2)], .ok), ([], .partialEnd), ([(2, 4, 0x10)], .partialEnd), ([], .partialEnd),
        ([], .partialEnd)] := by decide +kernel

/-- V2.5 rows 2 and 5, the records alone. -/
theorem test_bend_and_skip :
    (after .bend (withRom [0xFF])).blr = ⟨0, [], .ok, true⟩ ∧
    (after (.bskipHigh 1) (withRom [0xFD, 0xFA, 0xFF])).blr = ⟨2, [], .ok, false⟩ ∧
    (after (.bskipLow 0) (withRom [0xFA])).blr = ⟨0, [], .partialEnd, true⟩ := by decide +kernel

/-- V2.5 rows 8 and 9, the record alone. -/
theorem test_brec_record :
    (after (.brec 1) (withRom [0x01, 0x02, 0x03, 0xFF])).blr = ⟨3, [⟨1, 2, 3⟩], .ok, false⟩ ∧
    (after (.brec 2) (withRom [0x02, 0x04])).blr = ⟨0, [], .partialEnd, true⟩ := by decide +kernel

/-- P6, with a level entry that decodes to `(1, 2, 2, 0x7A00)`. -/
theorem test_load_level :
    let s := vectors.loadLevel (fun _ => ⟨1, 2, 2, 0x7A00⟩) 0
    s.bgsel = 1 ∧ s.tersel = 2 ∧ s.folsel = 2 ∧ s.blptr = 0x7A00 ∧ s.nbld = 2 ∧ s.anom = 0 ∧
      s.blist = [(0, 1), (1, 10), (2, 0x20), (3, 2), (4, 10), (5, 0)] := by decide +kernel

/-- P6: `LVL = 132`. -/
theorem test_ldlvl_rejects :
    (after .ldlvl { vectors with lvl := 132 }).rejCause = .badLevel := by decide +kernel

/-! ## One step: painting (section 2.6) -/

/-- `CLEAR` and then `PAINT8` of a tile. -/
def painted (code : BitVec 11) (xf yf : BitVec 1) (pali : BitVec 5) (x y : BitVec 13) : State :=
  after .paint8
    { after .clear vectors with code := code, xf := xf, yf := yf, pali := pali, px := x, py := y }

/-- V2.6 row 2: x-flipped, clipped at the far corner. -/
theorem test_paint8_clipped :
    let s := painted 2 1 0 1 252 236
    px s 252 236 = P 24 ∧ px s 255 239 = P 21 ∧ s.canvas.cells.length = 48 ∧ s.anom = 0 := by
  decide +kernel

/-- V2.6 rows 4, 8 and 12. -/
theorem test_paint8_anomalies :
    (painted 4 0 0 0 0 0).anom = 0b0100 ∧
    px (painted 2 0 0 (-1) 0 0) 3 3 = some (255, 0, 255) ∧ (painted 2 0 0 (-1) 0 0).anom = 0b1000 ∧
    px (painted 2 0 0 0 (-7) (-7)) 0 0 = P 8 := by decide +kernel

/-- V2.6: `CLEAR` alone. -/
theorem test_clear :
    px (after .clear vectors) 0 0 = some (0, 0, 0) ∧ px (after .clear vectors) 255 239 = some (0, 0, 0) ∧
    px vectors 0 0 = none := by decide +kernel

/-! ## One step: layers (programs P3, P4 and P5) -/

/-- A ROM with one background stream, `81 02 14 00` at `0x7710`, for selector 1. -/
def romOneWord : Buffer :=
  { len := 0x8938
    cells := [(0x7710, 0x81), (0x7711, 0x02), (0x7712, 0x14), (0x8936, 0x10), (0x8937, 0x77)] }

/-- P3, its first word: tile 2 x-flipped with palette 2 at row 3. -/
theorem test_drawbg_paints :
    let s := after .drawbg { after .clear vectors with rom := romOneWord, nbld := 1, bgsel := 1 }
    px s 0 24 = P 40 ∧ px s 7 31 = P 33 ∧ px s 8 24 = some (0, 0, 0) ∧ s.lstat1 = .ok ∧ s.anom = 0 := by
  decide +kernel

/-- P3, second part: no buildings. -/
theorem test_drawbg_no_buildings :
    let s := after .drawbg { vectors with bgsel := 1 }
    s.status = .skipped ∧ s.lstat1 = .skipped ∧ s.anom = 0 := by decide +kernel

/-- P5 runs M and N. -/
theorem test_drawsky_cut :
    let m := after .drawsky { vectors with rom := { romVectors with len := 0x7615 } }
    let n := after .drawsky { vectors with rom := { romVectors with len := 0x7613 } }
    (m.lstat2 = .partialEnd ∧ m.anom = 0b0001) ∧ (n.lstat2 = .skipped ∧ n.anom = 0b0001) := by
  decide +kernel

/-- P5's sky stream has its 64 pairs: `OK` (with no tile in the bank, every tile is blank). -/
theorem test_drawsky_whole :
    let s := after .drawsky { vectors with tile := Buffer.empty }
    s.lstat2 = .ok ∧ s.anom = 0b0100 := by decide +kernel

/-- P5 runs D and E. -/
theorem test_drawfol_skipped :
    let d := after .drawfol { vectors with folsel := 5 }
    let e := after .drawfol { vectors with folsel := 4 }
    (d.lstat3 = .skipped ∧ d.anom = 0b0010) ∧ (e.lstat3 = .skipped ∧ e.anom = 0b0010) := by
  decide +kernel

/-- P5 runs full and E′: the block fits (with no tile in the bank, every tile is blank). -/
theorem test_drawfol_fits :
    let a := after .drawfol { vectors with tile := Buffer.empty, folsel := 2 }
    let b := after .drawfol { vectors with tile := Buffer.empty, folsel := 8 }
    (a.status = .ok ∧ a.anom = 0b0100) ∧ (b.lstat3 = .ok ∧ b.anom = 0b0100) := by decide +kernel

/-- P5 run I: building 1 at `px = 252`, clipped, its rows those of the default `BLD_ROW_FN`. -/
theorem test_drawbld_clipped :
    let s := after .drawbld
      { after .clear vectors with nbld := 1, blist := [(0, 1), (1, 63), (2, 0x20)] }
    px s 252 200 = P 17 ∧ px s 255 200 = P 17 ∧ px s 251 200 = some (0, 0, 0) ∧
      px s 0 201 = some (0, 0, 0) ∧ s.lstat4 = .ok ∧ s.anom = 0 := by
  decide +kernel

/-- P5 run F: ids 4 and 0 are skipped. -/
theorem test_drawbld_skips :
    let s := after .drawbld
      { vectors with
        nbld := 3, blist := [(0, 3), (1, 0), (2, 0), (3, 4), (4, 0), (5, 0), (6, 0), (7, 0), (8, 0)] }
    s.lstat4 = .partialEnd ∧ s.anom = 0b0010 := by decide +kernel

/-- P5 run B with a ROM two bytes shorter: a terrain stream cut after one pair. -/
theorem test_drawter_cut :
    let s := after .drawter
      { after .clear vectors with rom := { romVectors with len := 0x97FE }, tersel := 5 }
    px s 0 232 = P 17 ∧ px s 7 239 = P 24 ∧ px s 8 232 = some (0, 0, 0) ∧ s.lstat5 = .partialEnd ∧
      s.anom = 0b0001 := by decide +kernel

/-- P5 runs C and C′. -/
theorem test_drawter_skipped :
    (after .drawter { vectors with tersel := 4 }).anom = 0b0010 ∧
    (after .drawter { vectors with tersel := 11 }).lstat5 = .skipped := by decide +kernel

/-- The bodies of P4's buildings alone, at `px = 252` as in P5 run I: building 1 (palette 1) and
building 2 (palette 3, its lower row tile 2 x-flipped). -/
theorem test_tw8_body :
    let s := after (.tw8 0) { after .clear vectors with bld := ⟨0x7900, 63, 0x20, false, false⟩ }
    px s 252 200 = P 17 ∧ px s 252 192 = P 24 ∧ px s 252 199 = P 31 ∧ s.bld.painted = true := by
  decide +kernel

theorem test_tw16_body :
    let s := after .tw16 { after .clear vectors with bld := ⟨0x7910, 63, 0x00, false, false⟩ }
    px s 252 200 = P 56 ∧ px s 255 200 = P 53 ∧ px s 252 199 = P 63 ∧ s.bld.painted = true := by
  decide +kernel

/-- P5 run N: `COMPOSED` with nothing to draw clears the canvas and ends `PARTIAL`. -/
theorem test_composed_nothing_to_draw :
    let s := after .composed { vectors with rom := { romVectors with len := 0x7613 }, folsel := 2 }
    (s.status = .partialEnd ∧ s.anom = 0b0001) ∧
      [s.lstat1, s.lstat2, s.lstat3, s.lstat4, s.lstat5] =
        [.skipped, .skipped, .skipped, .ok, .skipped] ∧
      px s 255 239 = some (0, 0, 0) := by decide +kernel

/-- P5 run O, and 2.7. -/
theorem test_composed_empty_bank :
    let s := after .composed { vectors with tile := { len := 31, cells := [] }, anom := 5 }
    s.rejCause = .emptyBank ∧ s.anom = 5 ∧ px s 0 0 = none := by decide +kernel

/-- 2.7: `COMPOSE` with `LVL = 200` and an empty bank answers `BADLEVEL`. -/
theorem test_compose_bad_level_first :
    (after .compose { vectors with lvl := 200, tile := Buffer.empty }).rejCause = .badLevel ∧
    (after .compose { vectors with lvl := 131, tile := Buffer.empty }).rejCause = .emptyBank := by
  decide +kernel

/-- 2.7: a bad select code. -/
theorem test_badop : after (.badop 0x20) vectors = { vectors with status := .badOp } := by
  decide +kernel

/-! ## The host's accesses (10_state.md R22, R34; 70_reset_and_hazards.md R280) -/

/-- A write of `PALI` is truncated to five bits; a read of it is sign-extended, one of `PX` too, and an
unassigned number reads 0. -/
theorem test_host_registers :
    readNumber (nextOf (step { State.reset with bus := [.write 0x14 0x3F] })) 0x14 = -1 ∧
    readNumber (nextOf (step { State.reset with bus := [.write 0x19 0x1000] })) 0x19 = -4096 ∧
    readNumber (nextOf (step { State.reset with bus := [.write 0x15 7] })) 0x15 = 0 := by decide +kernel

/-- 20_memory.md R64: a byte nothing has written answers the same at every read, and the read changes
nothing else. -/
theorem test_host_read_twice :
    let s := nextOf (step { State.reset with bus := [.readCanvas 9, .readCanvas 9] })
    nextOf (step s) = { s with bus := [] } := by rfl

/-- A load replaces a memory; a reset keeps it and clears a register. -/
theorem test_host_load_and_reset :
    let s := nextOf (step { State.reset with lvl := 9, bus := [.loadTile [1, 0, 2], .reset] })
    s.tile = ⟨3, [(0, 1), (2, 2)]⟩ ∧ s.lvl = 9 ∧ (nextOf (step s)).tile = s.tile ∧
      (nextOf (step s)).lvl = 0 := by decide +kernel

/-! ## Witnesses: for every statement with hypotheses (clause by clause), a concrete state and operands
that meet them together, at the ends of their ranges. -/

theorem witness_DecodeOfEncodeIsTheInstruction :
    (Instr.run 1).wf = true ∧ (Instr.brec 0xFE).wf = true ∧ (Instr.brec 0xF9).wf = true ∧
    (Instr.tw8 0xFE).wf = true ∧ (Instr.badop 0x20).wf = true ∧ (Instr.aw 1 3 1 1 0x3FF).wf = true := by
  decide

theorem witness_EveryByteIsOneItem :
    Format.rle ≠ .aw ∧ Format.blr ≠ .aw ∧ Format.bld ≠ .aw ∧ Format.op ≠ .aw := by decide

/-- A state at the command interface with these accesses waiting. -/
def withBus (bus : List HostAccess) : State := { vectors with bus := bus }

theorem witness_ResetRegistersReadZero : 0x3F < 0x40 := by decide

theorem witness_ResetEventKeepsInputMemories :
    (withBus [.reset, .read 1]).site = .command ∧
      (withBus [.reset, .read 1]).bus = .reset :: [.read 1] := by decide

theorem witness_StepRunsTheOperationWritten :
    (withBus [.write 0 0x11F]).site = .command ∧ (withBus [.write 0 0x11F]).bus = .write 0 0x11F :: [] ∧
      decode .op [BitVec.ofNat 8 0x11F] = .ok .compose [] := by decide

/-- A state at an item decoder over a ROM of exactly these bytes, its cursor at 0. -/
def atSite (site : FetchSite) (bytes : List Byte) : State := { withRom bytes with site := site }

theorem witness_StepRunsTheItemAtTheCursor_fetched :
    ((atSite .stream [0x00]).rle.ended = false ∧
      (atSite .stream [0x00]).rom.read (atSite .stream [0x00]).rle.pos = some 0x00 ∧
      decode .rle [0x00] = .ok .endItem []) ∧
    ((atSite .list [0xFE]).blr.ended = false ∧
      (atSite .list [0xFE]).rom.read (atSite .list [0xFE]).blr.pos = some 0xFE ∧
      decode .blr [0xFE] = .ok (.brec 0xFE) []) ∧
    ((atSite .building [0, 0, 0xFF]).bld.ended = false ∧
      (atSite .building [0, 0, 0xFF]).rom.read ((atSite .building [0, 0, 0xFF]).bld.off + 2) = some 0xFF ∧
      decode .bld [0xFF] = .ok .tw16 []) ∧
    ((atSite .word [0xBC, 0x5A]).site = .word ∧
      (atSite .word [0xBC, 0x5A]).rom.readPair (atSite .word [0xBC, 0x5A]).aww.pos = some ⟨0xBC, 0x5A⟩ ∧
      decode .aw [0xBC, 0x5A] = .ok (.aw 1 1 1 0 0x2BC) []) := by decide

theorem witness_StepRunsTheItemAtTheCursor_exhausted :
    ((atSite .stream []).rle.ended = false ∧ (atSite .stream []).rom.len ≤ (atSite .stream []).rle.pos) ∧
    ((atSite .list []).blr.ended = false ∧ (atSite .list []).rom.len ≤ (atSite .list []).blr.pos) ∧
    ((atSite .building [0, 0]).bld.ended = false ∧
      (atSite .building [0, 0]).rom.len < (atSite .building [0, 0]).bld.off + 3) ∧
    ((atSite .word [1]).site = .word ∧ (atSite .word [1]).rom.len ≤ (atSite .word [1]).aww.pos + 1) ∧
    (State.reset.site = .command ∧ State.reset.bus = []) := by decide

theorem witness_StepRunsTheItemAtTheCursor_ended :
    let r := { atSite .stream [0x00] with rle := ⟨1, [], .ok, true⟩ }
    let l := { atSite .list [0xFF] with blr := ⟨0, [], .ok, true⟩ }
    let b := { atSite .building [] with bld := ⟨0, 0, 0, false, true⟩ }
    (r.site = .stream ∧ r.rle.ended = true) ∧ (l.site = .list ∧ l.blr.ended = true) ∧
      (b.site = .building ∧ b.bld.ended = true) := by decide

theorem witness_StepKeepsMemoriesCanonical :
    (withBus [.write 0 0x0C]).MemoriesCanonical ∧ ∃ t, step (withBus [.write 0 0x0C]) = .next t := by
  refine ⟨⟨test_vectors_canonical.1, test_vectors_canonical.2.1, test_vectors_canonical.2.2, ?_, ?_⟩,
    _, rfl⟩ <;> decide

theorem witness_StepKeepsPairsMasked :
    State.PairsMasked { atSite .stream [0x81, 5, 0xFF] with ews := [⟨1, 0x3F⟩] } ∧
      ∃ t, step { atSite .stream [0x81, 5, 0xFF] with ews := [⟨1, 0x3F⟩] } = .next t :=
  ⟨⟨by decide, by decide⟩, _, rfl⟩

theorem witness_StepKeepsLayerOutcomesLegal :
    (withBus [.write 0 0x13]).LayerOutcomesLegal ∧ ∃ t, step (withBus [.write 0 0x13]) = .next t := by
  refine ⟨?_, _, rfl⟩
  unfold State.LayerOutcomesLegal
  decide

theorem witness_NoInstructionWritesInputMemories : ∃ t, exec .paint8 vectors = .next t := ⟨_, rfl⟩

theorem witness_AnomaliesAreSticky :
    Instr.drawter ≠ .compose ∧ Instr.drawter ≠ .composed ∧
      ∃ t, exec .drawter { vectors with tersel := 11, anom := 5 } = .next t :=
  ⟨by decide, by decide, _, rfl⟩

theorem witness_RejectionChangesOnlyStatusAndCause :
    (Instr.samp8.format = .op ∧ ∃ t, exec .samp8 State.reset = .next t ∧ t.status = .rejected) ∧
    (∃ t, exec .awdec vectors = .next t ∧ t.status ≠ .rejected) :=
  ⟨⟨by decide, _, rfl, by decide⟩, _, rfl, by decide⟩

theorem witness_OnlyNamedRegistersChange :
    (∃ t, exec (.badop 0) vectors = .next t) ∧
    Instr.badop 0 ≠ .awdec ∧ Instr.badop 0 ≠ .samp8 ∧ Instr.badop 0 ≠ .samp32 ∧ Instr.badop 0 ≠ .rld ∧
    Instr.badop 0 ∉ [Instr.rsvlvl, .rsvbg, .rsvter, .rsvfol, .rsvbld] ∧
    Instr.badop 0 ∉ [Instr.ldlvl, .compose] ∧ (Instr.badop 0).format ≠ .bld ∧
    Instr.badop 0 ∉
      [Instr.paint8, .clear, .drawbg, .drawsky, .drawfol, .drawbld, .drawter, .composed, .compose] ∧
    Instr.badop 0 ∉ [Instr.drawbg, .composed, .compose] ∧
    Instr.badop 0 ∉ [Instr.drawsky, .composed, .compose] ∧
    Instr.badop 0 ∉ [Instr.drawfol, .composed, .compose] ∧
    Instr.badop 0 ∉ [Instr.drawbld, .composed, .compose] ∧
    Instr.badop 0 ∉ [Instr.drawter, .composed, .compose] ∧
    (∃ t, exec .endItem vectors = .next t) ∧ Instr.endItem.format ≠ .op :=
  ⟨⟨_, rfl⟩, by decide, by decide, by decide, by decide, by decide, by decide, by decide, by decide,
    by decide, by decide, by decide, by decide, by decide, ⟨_, rfl⟩, by decide⟩

theorem witness_CodecInjectiveBelowBit15 :
    (0x7FFF : Half).toNat < 0x8000 ∧ awd 0x7FFF = awd 0x7FFF := by decide

/-- The vectors with the sampler's operands at the ends of its domain, and one beyond each. -/
theorem witness_Samp8Result :
    let s := { vectors with code := 3, tx := 7, ty := 7, xf := 1, yf := 1 }
    s.code.toNat < s.tile.len / 32 ∧ s.tx.toNat < 8 ∧ s.ty.toNat < 8 := by decide +kernel

/-- A bank of one 32×32 tile. -/
def bank32 : State := { vectors with tile := { len := 512, cells := [(511, 0x7E)] } }

theorem witness_Samp32Result :
    let s := { bank32 with tx := 31, ty := 31 }
    s.code.toNat < s.tile.len / 512 := by decide

theorem witness_SamplersRejectOutsideTheirDomain :
    vectors.tile.len / 32 ≤ { vectors with code := 4 }.code.toNat ∧
    8 ≤ { vectors with tx := 8 }.tx.toNat ∧ 8 ≤ { vectors with ty := 8 }.ty.toNat ∧
    bank32.tile.len / 512 ≤ { bank32 with code := 1 }.code.toNat := by decide +kernel

theorem witness_SamplingIsFlipSymmetric : 0 < 8 ∧ 7 < 8 := by decide

theorem witness_EndAndRunItems :
    (withRom [0x7F, 1, 2]).rle.pos + 2 < (withRom [0x7F, 1, 2]).rom.len ∧
    (withRom [0x7F, 1]).rom.len ≤ (withRom [0x7F, 1]).rle.pos + 2 := by decide

theorem witness_LitItem :
    (withRom [0x81, 1, 2]).rle.pos + 1 + 2 * (1 : BitVec 7).toNat ≤ (withRom [0x81, 1, 2]).rom.len ∧
    (withRom [0x81, 1]).rle.pos < (withRom [0x81, 1]).rom.len ∧
    (withRom [0x81, 1]).rom.len < (withRom [0x81, 1]).rle.pos + 1 + 2 * (1 : BitVec 7).toNat := by decide

theorem witness_RldRegisters :
    { withRom [0] with cur := 1 }.cur ≤ (withRom [0]).rom.len ∧
    (withRom [0]).rom.len ≤ { withRom [0] with cur := 1 }.cur := by decide

theorem witness_RsvlvlResult :
    { vectors with sel := 131 }.sel.toNat < min 132 ((vectors.rom.len - 0x8DAE) / 10) ∧
    min 132 ((vectors.rom.len - 0x8DAE) / 10) ≤ { vectors with sel := 132 }.sel.toNat := by decide

theorem witness_ListRecordItems :
    ((withRom [0xFA, 0]).blr.pos + 2 ≤ (withRom [0xFA, 0]).rom.len ∧
      (withRom [1, 2, 3]).blr.pos + 3 ≤ (withRom [1, 2, 3]).rom.len) ∧
    ((withRom [0xFA]).rom.len < (withRom [0xFA]).blr.pos + 2 ∧
      (withRom [1, 2]).rom.len < (withRom [1, 2]).blr.pos + 3) := by decide

theorem witness_LdlvlResult :
    min 132 ((vectors.rom.len - 0x8DAE) / 10) ≤ { vectors with lvl := 132 }.lvl.toNat ∧
    { vectors with lvl := 131 }.lvl.toNat < min 132 ((vectors.rom.len - 0x8DAE) / 10) := by decide

theorem witness_LdlvlPlacementsAreTheList :
    { vectors with lvl := 131 }.lvl.toNat < min 132 ((vectors.rom.len - 0x8DAE) / 10) := by decide

theorem witness_BackgroundSelectorIsAHighNibble :
    { vectors with lvl := 131 }.lvl.toNat < min 132 ((vectors.rom.len - 0x8DAE) / 10) := by decide

theorem witness_PreflightRejections :
    min 132 ((vectors.rom.len - 0x8DAE) / 10) ≤ { vectors with lvl := 132 }.lvl.toNat ∧
    (let s := { vectors with tile := { len := 31, cells := [] }, lvl := 131 }
     s.tile.len < 32 ∧ s.lvl.toNat < min 132 ((s.rom.len - 0x8DAE) / 10)) := by decide

/-- `PAINT8`'s operands for tile 2 (indices 1 to 8) at (0, 0) with palette 0. -/
def tileTwo : State := { vectors with code := 2 }

/-- Every pixel of it has a palette entry. -/
theorem witness_Paint8Result_inside :
    tileTwo.canvas.wf = true ∧ tileTwo.code.toNat < tileTwo.tile.len / 32 ∧
      ∀ tx ty x y : Nat, tx < 8 → ty < 8 → x < 256 → y < 240 →
        (x : Int) = tileTwo.px.toInt + tx → (y : Int) = tileTwo.py.toInt + ty →
        paletteHas tileTwo.env
          (shownOffset tileTwo.env tileTwo.code.toNat tileTwo.xf tileTwo.yf tileTwo.pali.toInt tx ty) := by
  have h : ∀ tx < 8, ∀ ty < 8,
      paletteHas tileTwo.env
        (shownOffset tileTwo.env tileTwo.code.toNat tileTwo.xf tileTwo.yf tileTwo.pali.toInt tx ty) := by
    decide +kernel
  exact ⟨by decide, by decide +kernel, fun tx ty _ _ hx hy _ _ _ _ => h tx hx ty hy⟩

/-- Tile 2 at (−7, −7) with palette 4: its one visible pixel has no palette entry; byte 3 of the canvas
is in no visible pixel. -/
theorem witness_Paint8Result_outside :
    let s := { vectors with code := 2, pali := 4, px := -7, py := -7 }
    s.canvas.wf = true ∧ s.code.toNat < s.tile.len / 32 ∧
      ((0 : Nat) : Int) = s.px.toInt + (7 : Nat) ∧ ((0 : Nat) : Int) = s.py.toInt + (7 : Nat) ∧
      ¬ paletteHas s.env (shownOffset s.env s.code.toNat s.xf s.yf s.pali.toInt 7 7) ∧
      ¬ tileCovers s.px.toInt s.py.toInt 3 := by
  refine ⟨by decide, by decide +kernel, by decide +kernel, by decide +kernel, by decide +kernel, ?_⟩
  rintro ⟨x, y, _, _, _, hx, _, hy, h1, h2⟩
  have e1 : ({ vectors with code := 2, pali := 4, px := -7, py := -7 } : State).px.toInt = -7 := by
    decide +kernel
  have e2 : ({ vectors with code := 2, pali := 4, px := -7, py := -7 } : State).py.toInt = -7 := by
    decide +kernel
  rw [e1] at hx
  rw [e2] at hy
  simp only [pixelAddr, Config.canvasW] at h1 h2
  omega

theorem witness_Paint8Result_blank :
    vectors.tile.len / 32 ≤ { vectors with code := 4 }.code.toNat := by decide +kernel

/-- The word of tile 2 in the last row, and byte 0 of the canvas outside its cell. -/
theorem witness_GridShowsItsWords :
    vectors.surface.canvas.wf = true ∧ [(0x2002 : Half)][0]? = some 0x2002 ∧ 29 + 0 / 32 < 30 ∧
    (awd 0x2002).code.toNat < vectors.env.tile.len / 32 ∧
    (∀ (k : Nat) (w : Half), [(0x2002 : Half)][k]? = some w → 29 + k / 32 < 30 →
      (awd w).code.toNat < vectors.env.tile.len / 32 →
      ¬ tileCovers (k % 32 * 8 : Nat) ((29 + k / 32) * 8 : Nat) 0) := by
  refine ⟨by decide, by decide, by decide, by decide +kernel, ?_⟩
  rintro k w _ _ _ ⟨x, y, _, _, _, _, hy, _, h1, _⟩
  simp only [pixelAddr, Config.canvasW] at h1
  omega

theorem witness_DrawbgResult :
    vectors.nbld = 0 ∧
    (let s := { vectors with nbld := 1, bgsel := 1 }
     s.nbld ≠ 0 ∧ resolveBg s.rom s.bgsel.toNat = .found 0x7710) ∧
    (let s := { vectors with nbld := 1, bgsel := 15, rom := { romVectors with len := 0x8953 } }
     s.nbld ≠ 0 ∧ resolveBg s.rom s.bgsel.toNat = .skip .trunc) := by decide +kernel

theorem witness_DrawskyResult :
    { romVectors with len := 0x7613 }.len ≤ 0x7613 ∧ 0x7613 < { romVectors with len := 0x7614 }.len := by
  decide

theorem witness_DrawfolResult :
    resolveFol romVectors 5 = .skip .badSel ∧ resolveFol romVectors 4 = .found 0x9780 ∧
      resolveFol romVectors 8 = .found 0x9780 := by decide +kernel

theorem witness_DrawterResult :
    resolveTer romVectors 11 = .skip .badSel ∧ resolveTer romVectors 10 = .found 0 := by decide +kernel

theorem witness_BuildingIsPaintedWholeOrSkipped :
    resolveBld vectors.env.rom (⟨0, 0, 0⟩ : Placement).id.toNat = .skip .badSel ∧
    resolveBld vectors.env.rom (⟨2, 10, 0⟩ : Placement).id.toNat = .found 0x7910 := by decide +kernel

/-- Descriptors that end exactly at the end of the ROM, and one byte beyond it. -/
theorem witness_TileWordForms :
    (let s := withRom [1, 1, 0, 5]
     s.bld.off + 3 + (s.rom.at s.bld.off).toNat * (s.rom.at (s.bld.off + 1)).toNat ≤ s.rom.len) ∧
    (let s := withRom [1, 1, 0xFF, 5, 6]
     s.bld.off + 3 + 2 * (s.rom.at s.bld.off).toNat * (s.rom.at (s.bld.off + 1)).toNat ≤ s.rom.len) ∧
    (let s := withRom [1, 1, 0]
     s.rom.len < s.bld.off + 3 + (s.rom.at s.bld.off).toNat * (s.rom.at (s.bld.off + 1)).toNat) ∧
    (let s := withRom [1, 1, 0xFF, 5]
     s.rom.len < s.bld.off + 3 + 2 * (s.rom.at s.bld.off).toNat * (s.rom.at (s.bld.off + 1)).toNat) ∧
    (0xFE : Byte) ≠ 0xFF := by decide

/-- One building at x position 10: byte 0 of the canvas lies in none of its tiles. -/
theorem witness_LayersStayInTheirRows_buildings :
    let s := { vectors with nbld := 1, blist := [(0, 1), (1, 10), (2, 0x20)] }
    ∀ (i off r c : Nat), i < s.nbld →
      resolveBld s.rom (blistAt s.blist s.blistEra i).id.toNat = .found off →
      r < (s.rom.at (off + 1)).toNat → c < (s.rom.at off).toNat →
      ¬ tileCovers ((4 * (blistAt s.blist s.blistEra i).x.toNat + 8 * c : Nat) : Int)
        (8 * bldRow s.par (s.rom.at (off + 1)).toNat r) 0 := by
  intro s i off r c hi _ _ _
  obtain rfl : i = 0 := by
    have : s.nbld = 1 := rfl
    omega
  have e : (blistAt s.blist s.blistEra 0).x.toNat = 10 := rfl
  rw [e]
  rintro ⟨x, y, _, _, hx, _, _, _, h1, _⟩
  simp only [pixelAddr, Config.canvasW] at h1
  omega

theorem witness_LayersStayInTheirRows_selector : 4 < { vectors with folsel := 6 }.folsel.toNat := by decide

theorem witness_ComposedIsItsSixOperations : 32 ≤ { vectors with tile := ⟨32, []⟩ }.tile.len := by decide

theorem witness_ComposeIsLdlvlThenComposed :
    let s := { vectors with lvl := 131, tile := ⟨32, []⟩ }
    s.lvl.toNat < min 132 ((s.rom.len - 0x8DAE) / 10) ∧ 32 ≤ s.tile.len := by decide

theorem witness_ComposeDependsOnlyOnItsInputs :
    let s := { vectors with lvl := 131 }
    let s' := { vectors with lvl := 131, nbld := 7, anom := 15, blistEra := 3, cur := 9 }
    s.rom = s'.rom ∧ s.tile = s'.tile ∧ s.pal = s'.pal ∧ s.par = s'.par ∧ s.lvl = s'.lvl ∧
      s.lvl.toNat < min 132 ((s.rom.len - 0x8DAE) / 10) ∧ 32 ≤ s.tile.len :=
  ⟨rfl, rfl, rfl, rfl, rfl, by decide, by decide +kernel⟩

theorem witness_BadSelectCodeOnlySetsStatus :
    (withBus [.write 0 0x100]).site = .command ∧ (withBus [.write 0 0x100]).bus = .write 0 0x100 :: [] ∧
    (∀ v ∈ [0x00, 0x0D, 0x0F, 0x15, 0x1D, 0x20, 0x1FF],
      v % 256 = 0 ∨ (0x0D ≤ v % 256 ∧ v % 256 ≤ 0x0F) ∨ (0x15 ≤ v % 256 ∧ v % 256 ≤ 0x1D) ∨
        0x20 ≤ v % 256) := by decide

/-- A `CUR` register in a ROM that needs a nineteenth address bit, and in one that does not. -/
theorem witness_HostReadsBackWhatItWrote :
    (withBus [.write 0x14 0x3F, .read 0x14]).site = .command ∧
    (withBus [.write 0x14 0x3F, .read 0x14]).bus = .write 0x14 0x3F :: .read 0x14 :: [] ∧
    (0x14, 5) ∈ [(0x14, 5), (0x19, 13), (0x1A, 13)] ∧
    ((18 : Nat) ≤ 18 ∧ vectors.rom.len < 2 ^ 18 ∧ ((18 : Nat) = 18 ∨ 2 ^ (18 - 1) ≤ vectors.rom.len)) ∧
    (let s := { vectors with rom := ⟨2 ^ 18, []⟩ }
     (18 : Nat) ≤ 19 ∧ s.rom.len < 2 ^ 19 ∧ 2 ^ (19 - 1) ≤ s.rom.len) := by decide

theorem witness_HostWriteTouchesOneRegister :
    (0x10 : Nat) ≠ 0 ∧ (0x11 : Nat) ≠ 0x10 ∧ (withBus [.write 0x10 7]).site = .command ∧
      (withBus [.write 0x10 7]).bus = .write 0x10 7 :: [] := by decide

theorem witness_ConstantsAndIgnoredWrites :
    (∀ n ∈ [1, 2, 4, 0x0F, 0x15, 0x18, 0x1B, 0x1F, 0x21, 0x27, 0x29, 0x2F, 0x36, 0x54],
      (1 ≤ n ∧ n ≤ 2) ∨ (4 ≤ n ∧ n < 0x10) ∨ n = 0x15 ∨ n = 0x18 ∨ (0x1A < n ∧ n < 0x20) ∨
        (0x21 ≤ n ∧ n < 0x28) ∨ (0x29 ≤ n ∧ n < 0x30) ∨ 0x36 ≤ n) ∧
    (∀ n ∈ [0, 9, 0x0F, 0x15, 0x1B, 0x1F, 0x24, 0x27, 0x2A, 0x2F, 0x36, 0x3F, 0x54],
      n = 0 ∨ (9 ≤ n ∧ n < 0x10) ∨ n = 0x15 ∨ (0x1A < n ∧ n < 0x20) ∨ (0x24 ≤ n ∧ n < 0x28) ∨
        (0x2A ≤ n ∧ n < 0x30) ∨ (0x36 ≤ n ∧ n < 0x40) ∨ 0x54 ≤ n) := by decide

theorem witness_ConstantsAndIgnoredWrites_read :
    (withBus [.read 1]).site = .command ∧ (withBus [.read 1]).bus = .read 1 :: [] := by decide

theorem witness_BlistReadsBackWhatWasWritten :
    let s := { withBus [.writeBlist 4 9, .readBlist 4] with blist := [(3, 1), (5, 2)] }
    blistWf s.blist = true ∧ s.site = .command ∧
      s.bus = .writeBlist 4 9 :: .readBlist 4 :: [] ∧ (5 : Nat) ≠ 4 := by decide

theorem witness_BlistReadsBackWhatWasWritten_loads :
    (withBus [.loadRom [0, 7]]).site = .command ∧ (withBus [.loadRom [0, 7]]).bus = .loadRom [0, 7] :: [] ∧
    (withBus [.loadTile []]).bus = .loadTile [] :: [] ∧
    (withBus [.loadPal [1]]).bus = .loadPal [1] :: [] := by
  decide

/-- A byte of the canvas that nothing has written, read twice. -/
theorem witness_HostReadsCanvasAndWordStream_twice :
    let s := withBus [.readCanvas 9, .readCanvas 9]
    s.site = .command ∧ s.bus = .readCanvas 9 :: .readCanvas 9 :: [] ∧
      ∃ k, HostAccess.readCanvas 9 = .readCanvas k :=
  ⟨rfl, rfl, 9, rfl⟩

theorem witness_HostReadsCanvasAndWordStream :
    let s := { after .clear vectors with bus := [.readCanvas ((239 * 256 + 255) * 3 + 2)] }
    let e := { vectors with ews := [⟨1, 2⟩], bus := [.readEws 0] }
    (s.canvas.pixel 255 239 = some ⟨0, 0, 0⟩ ∧ s.site = .command ∧
      s.bus = .readCanvas ((239 * 256 + 255) * 3 + 2) :: []) ∧
    (e.ews[0]? = some ⟨1, 2⟩ ∧ e.site = .command ∧ e.bus = .readEws 0 :: []) := by decide

end Sys2Proof.Tests
end

section
/-! SUPPORT. The palette index the attribute-word codec answers, in plain arithmetic
(40_attribute_word.md R132). -/

namespace Sys2Proof.Machine

/-- The raw selector, as the codec shifts and masks it out of the word, is bits 13:12. -/
theorem paletteSelector_toNat (w : Half) :
    ((w >>> 12) &&& 0x03#16).toNat = w.toNat / 4096 % 4 := by
  have mask : w.toNat >>> 12 &&& 3 = w.toNat >>> 12 % 4 := Nat.and_two_pow_sub_one_eq_mod _ 2
  simpa [Nat.shiftRight_eq_div_pow] using mask

/-- The selector is at most 3, so neither the 16-bit subtraction nor the cut to 2 bits loses anything. -/
theorem awd_pal_toNat (w : Half) : (awd w).pal.toNat = 3 - w.toNat / 4096 % 4 := by
  have le_three : (w >>> 12) &&& 0x03#16 ≤ 3#16 := by
    rw [BitVec.le_def, paletteSelector_toNat]
    exact Nat.le_of_lt_succ (Nat.mod_lt _ (by decide))
  calc (awd w).pal.toNat
      = (3#16 - ((w >>> 12) &&& 0x03#16)).toNat % 4 := BitVec.toNat_setWidth 2 _
    _ = (3 - w.toNat / 4096 % 4) % 4 := by
        rw [BitVec.toNat_sub_of_le le_three, paletteSelector_toNat, BitVec.toNat_ofNat]
    _ = 3 - w.toNat / 4096 % 4 := Nat.mod_eq_of_lt (by omega)

/-- Settles O18: the range is that of the 2-bit field, the value is `awd_pal_toNat`. -/
theorem paletteIndexOfEveryWord : Obligations.PaletteIndexOfEveryWord := by
  intro w
  have selector_lt : w.toNat / 4096 % 4 < 4 := Nat.mod_lt _ (by decide)
  have index_lt : (awd w).pal.toNat < 4 := (awd w).pal.isLt
  have index_mem : (awd w).pal.toNat ∈ [0, 1, 2, 3] := List.mem_range.mpr index_lt
  exact ⟨index_mem, Nat.le_of_lt_succ selector_lt, awd_pal_toNat w⟩

end Sys2Proof.Machine
end

section
/-! SUPPORT. What the terrain layer and the drawing of one building answer, said once for each answer of
the table lookup that locates their data (45_compositor.md R214, R218, R220). -/

namespace Sys2Proof.Machine

/-! ## Anomalies and sizes in the statements' own terms -/

theorem raiseIfPartial_eq (anom : BitVec 4) (o : OpOutcome) :
    raiseIfPartial anom o = if o = .partialEnd then anom ||| 0b0001 else anom := by
  cases o <;> rfl

theorem buildingSize_eq (m w h : Byte) :
    buildingSize m w h =
      3 + (if m = 0xFF then 2 * w.toNat * h.toNat else w.toNat * h.toNat) := by
  unfold buildingSize bytesPerTile
  split
  · rfl
  · rw [Nat.one_mul]

/-! ## The terrain strip -/

theorem layerTer_of_skip {e : Env} {tersel : Byte} {cause : Anomaly}
    (h : resolveTer e.rom tersel.toNat = .skip cause) (f : Surface) :
    layerTer e tersel f = layerSkipped cause f := by
  unfold layerTer
  rw [h]

theorem layerTer_of_found {e : Env} {tersel : Byte} {off : Nat}
    (h : resolveTer e.rom tersel.toNat = .found off) (f : Surface) :
    layerTer e tersel f = layerStream e 29 off f := by
  unfold layerTer
  rw [h]
  rfl

/-- `DRAWTER` stores what the layer answers: the surface, and the outcome in `LSTAT[5]` and `STATUS`. -/
theorem exec_drawter {s : State} {r : LayerRun} (h : layerTer s.env s.tersel s.surface = r) :
    exec .drawter s = .next
      { s with
        canvas := r.surface.canvas
        anom := r.surface.anom
        lstat5 := r.outcome
        status := r.outcome } := by
  subst h
  rfl

/-- Settles O46: `RESOLVE` skips the layer or finds the stream; `NBLD` stands in neither answer. -/
theorem drawterResult : Obligations.DrawterResult := by
  refine ⟨fun s cause hskip => ?skipped, fun s off hfound => ?painted⟩
  case skipped => exact exec_drawter (layerTer_of_skip hskip s.surface)
  case painted =>
    have run := exec_drawter (layerTer_of_found (e := s.env) hfound s.surface)
    simp only [layerStream, raiseIfPartial_eq] at run
    exact run

/-! ## One building -/

theorem drawOne_of_skip {e : Env} {p : Placement} {cause : Anomaly}
    (h : resolveBld e.rom p.id.toNat = .skip cause) (f : Surface) :
    drawOne e p f = buildingSkipped cause f := by
  unfold drawOne
  rw [h]

/-- A header that does not fit: the mode byte is its last. -/
theorem drawOne_of_header_cut {e : Env} {p : Placement} {off : Nat}
    (h : resolveBld e.rom p.id.toNat = .found off) (hcut : e.rom.len < off + 3) (f : Surface) :
    drawOne e p f = buildingSkipped .badSel f := by
  have no_mode : e.rom.read (off + 2) = none := buffer_read_eq_none.2 (Nat.le_of_lt_succ hcut)
  simp only [drawOne, h, no_mode]

theorem drawOne_of_header {e : Env} {p : Placement} {off : Nat}
    (h : resolveBld e.rom p.id.toNat = .found off) (hfits : off + 3 ≤ e.rom.len) (f : Surface) :
    drawOne e p f = drawBody e off (e.rom.at (off + 2)) p.x p.pal f := by
  have mode : e.rom.read (off + 2) = some (e.rom.at (off + 2)) := buffer_read_eq_some.2 ⟨hfits, rfl⟩
  simp only [drawOne, h, mode]

/-- Settles O48: the header is cut, or the declared size decides between skipping and painting. -/
theorem buildingIsPaintedWholeOrSkipped : Obligations.BuildingIsPaintedWholeOrSkipped := by
  refine ⟨fun e p f cause hskip => drawOne_of_skip hskip f, fun e p f off hfound => ?_⟩
  simp only [← buildingSize_eq]
  by_cases hcut : e.rom.len < off + 3
  · rw [if_pos (.inl hcut)]
    exact drawOne_of_header_cut hfound hcut f
  · rw [drawOne_of_header hfound (Nat.le_of_not_lt hcut)]
    rcases drawBody_cases e off (e.rom.at (off + 2)) p.x p.pal f with ⟨hover, hbody⟩ | ⟨hfits, hbody⟩
    · rw [if_pos (.inr hover), hbody]
      rfl
    · rw [if_neg (not_or.2 ⟨hcut, Nat.not_lt.2 hfits⟩), hbody]

end Sys2Proof.Machine
end

section
/-! SUPPORT. The decoder and the encoder are inverse to each other (30_encoding.md R91, R93, R97, R99,
R113 to R115). -/

namespace Sys2Proof

/-! ## Formats selected by one byte -/

/-- The table of rows of a format; a word has none. -/
def formatRows : Format → List Row
  | .aw => []
  | .rle => rleRows
  | .blr => blrRows
  | .bld => bldRows
  | .op => opRows

/-- A byte-selected format decodes a byte by its table and leaves the bytes that follow. -/
theorem decode_of_firstRow {f : Format} {c : Byte} {i : Instr} (rest : List Byte)
    (h : firstRow (formatRows f) c = some i) : decode f (c :: rest) = .ok i rest := by
  cases f
  case aw => cases h
  all_goals
    change decodeByte _ (c :: rest) = _
    simp only [formatRows] at h
    simp only [decodeByte, h]

theorem firstRow_lit : ∀ n : BitVec 7, firstRow rleRows (1#1 ++ n) = some (.lit n) := by decide +kernel
theorem firstRow_run : ∀ n : BitVec 7, n ≠ 0 → firstRow rleRows (0#1 ++ n) = some (.run n) := by
  decide +kernel
theorem firstRow_bskipLow : ∀ m : BitVec 1, firstRow blrRows (0b1111101#7 ++ m) = some (.bskipLow m) := by
  decide
theorem firstRow_bskipHigh :
    ∀ m : BitVec 1, firstRow blrRows (0b1111110#7 ++ m) = some (.bskipHigh m) := by decide
theorem firstRow_brec : ∀ c : Byte, c ∉ listMarks → firstRow blrRows c = some (.brec c) := by
  decide +kernel

theorem and_ones (c : Byte) : c &&& 0xFF = c := BitVec.and_allOnes
theorem and_zeros (c : Byte) : c &&& 0x00 = 0x00 := BitVec.and_zero

/-- A full mask tests for one byte, the last row takes what is left. -/
theorem firstRow_tw8 {c : Byte} (h : c ≠ 0xFF) : firstRow bldRows c = some (.tw8 c) := by
  simp only [firstRow, bldRows, and_ones, and_zeros, h, if_false, if_true]

theorem firstRow_badop {c : Byte} (h : c ∉ selectCodes) : firstRow opRows c = some (.badop c) := by
  simp only [selectCodes, List.mem_cons, List.not_mem_nil, or_false, not_or] at h
  simp only [firstRow, opRows, and_ones, and_zeros, h, if_false, if_true]

/-- What a table answers for a byte is well-formed, of its format, and has that byte for its encoding. -/
def rowAnswers (f : Format) (c : Byte) : Bool :=
  match firstRow (formatRows f) c with
  | some i => i.wf && decide (i.format = f) && decide (encode i = [c])
  | none => false

theorem rowAnswers_iff {f : Format} {c : Byte} :
    rowAnswers f c = true ↔ ∃ i, firstRow (formatRows f) c = some i ∧
      i.wf = true ∧ i.format = f ∧ encode i = [c] := by
  unfold rowAnswers
  cases firstRow (formatRows f) c <;> simp [and_assoc]

theorem rowAnswers_every_byte {f : Format} (hf : f ≠ .aw) (c : Byte) : rowAnswers f c = true := by
  cases f
  case aw => exact absurd rfl hf
  case rle =>
    revert c
    decide +kernel
  case blr =>
    revert c
    decide +kernel
  case bld =>
    by_cases h : c = 0xFF
    · rw [h]
      rfl
    · exact rowAnswers_iff.2 ⟨_, firstRow_tw8 h, by simpa [Instr.wf] using h, rfl, rfl⟩
  case op =>
    have selected : ∀ c ∈ selectCodes, rowAnswers .op c = true := by decide
    by_cases h : c ∈ selectCodes
    · exact selected c h
    · exact rowAnswers_iff.2 ⟨_, firstRow_badop h, by simpa [Instr.wf] using h, rfl, rfl⟩

/-! ## Words of two bytes -/

theorem decodeWord_fields (b h : BitVec 1) (p : BitVec 2) (y x : BitVec 1) (l : BitVec 10) :
    decodeWord (b ++ h ++ p ++ y ++ x ++ l) = .aw h p y x l := by
  unfold decodeWord
  congr 1
  all_goals
    ext i hi
    simp only [BitVec.getElem_extractLsb', BitVec.getLsbD_append]
    rw [← BitVec.getLsbD_eq_getElem]
    grind

/-- Its two bytes put together again, high byte above low byte. -/
theorem append_bytes (w : Half) : w.extractLsb' 8 8 ++ w.extractLsb' 0 8 = w := by
  ext i hi
  simp only [BitVec.getElem_append, BitVec.getElem_extractLsb']
  split
  · rw [Nat.zero_add, BitVec.getLsbD_eq_getElem]
  · rw [Nat.add_sub_cancel' (by omega), BitVec.getLsbD_eq_getElem]

/-- The fields of a word below a clear bit 15 are the word with that bit cleared. -/
theorem word_of_fields (w : Half) :
    0#1 ++ w.extractLsb' 14 1 ++ w.extractLsb' 12 2 ++ w.extractLsb' 11 1 ++ w.extractLsb' 10 1 ++
      w.extractLsb' 0 10 = w &&& 0x7FFF#16 := by
  have mask : ∀ i < 16, (0x7FFF#16).getLsbD i = decide (i < 15) := by decide
  ext i hi
  simp only [← BitVec.getLsbD_eq_getElem, BitVec.getLsbD_append, BitVec.getLsbD_extractLsb',
    BitVec.getLsbD_and, mask i hi]
  grind

/-- The encoder gives a word's two bytes back, bit 15 cleared. -/
theorem encode_decodeWord (hi lo : Byte) : encode (decodeWord (hi ++ lo)) = [lo, hi &&& 0x7F] := by
  have low : (hi ++ lo).extractLsb' 0 8 = lo := BitVec.extractLsb'_append_eq_right
  have high : (hi ++ lo).extractLsb' 8 8 = hi := BitVec.extractLsb'_append_eq_left
  have keep : lo &&& 255#8 = lo := BitVec.and_allOnes
  simpa [decodeWord, encode, word_of_fields, BitVec.extractLsb'_and, low, high] using keep

/-! ## The statements -/

/-- Settles O1: the rows of its format answer an instruction's selecting byte, a word its fields. -/
theorem decodeOfEncodeIsTheInstruction : Obligations.DecodeOfEncodeIsTheInstruction := by
  intro i rest hwf
  cases i
  case aw h p y x l =>
    simp only [Instr.format, encode, List.cons_append, List.nil_append, decode, append_bytes,
      decodeWord_fields]
  case lit n => exact decode_of_firstRow rest (firstRow_lit n)
  case run n => exact decode_of_firstRow rest (firstRow_run n (by simpa [Instr.wf] using hwf))
  case bskipLow m => exact decode_of_firstRow rest (firstRow_bskipLow m)
  case bskipHigh m => exact decode_of_firstRow rest (firstRow_bskipHigh m)
  case brec id => exact decode_of_firstRow rest (firstRow_brec id (by simpa [Instr.wf] using hwf))
  case tw8 m => exact decode_of_firstRow rest (firstRow_tw8 (by simpa [Instr.wf] using hwf))
  case badop v => exact decode_of_firstRow rest (firstRow_badop (by simpa [Instr.wf] using hwf))
  all_goals rfl

/-- Settles O2: a byte by its format's table, two bytes by the fields of their word. -/
theorem everyByteIsOneItem : Obligations.EveryByteIsOneItem := by
  refine ⟨fun f c rest hf => ?byte, fun lo hi rest => ?word⟩
  case byte =>
    obtain ⟨i, hrow, hwf, hformat, hencode⟩ := rowAnswers_iff.1 (rowAnswers_every_byte hf c)
    exact ⟨i, hwf, hformat, decode_of_firstRow rest hrow, hencode⟩
  case word => exact ⟨decodeWord (hi ++ lo), rfl, rfl, rfl, encode_decodeWord hi lo⟩

/-- Settles O3: each of the twelve words is decoded by evaluation. -/
theorem sampleWordsDecode : Obligations.SampleWordsDecode := by
  unfold Obligations.SampleWordsDecode
  decide

end Sys2Proof
end

section
/-! SUPPORT. What an instruction can do to the state, said once; which state it leaves alone, and the
invariants a step keeps (10_state.md R20 to R45; 42_rle_decompressor.md R157; 45_compositor.md R225;
60_exceptions.md R253 to R257). -/

namespace Sys2Proof.Machine

/-! ## The effects -/

/-- Instruction `i` can take state `s` to `t`: one constructor for each kind of effect. -/
inductive Effect : Instr → State → State → Prop
  | word (h : BitVec 1) (p : BitVec 2) (y x : BitVec 1) (l : BitVec 10) (s : State) :
      Effect (.aw h p y x l) s
        { s with aww := { pos := s.aww.pos + 2, decoded := fieldsDecoded h p y x l } }
  | stream {i : Instr} {s : State} {r : RleCursor} (hi : i.format = .rle)
      (hr : r = rleEnd s.rle ∨ (∃ n, r = rleLit s.rom n s.rle) ∨ ∃ n, r = rleRun s.rom n s.rle) :
      Effect i s { s with rle := r }
  | list {i : Instr} {s : State} (r : ListCursor) (hi : i.format = .blr) : Effect i s { s with blr := r }
  | building {i : Instr} {s : State} (m : Byte) (b : BuildCursor) (hi : i.format = .bld) :
      Effect i s
        { s.withSurface (drawBody s.env s.bld.off m s.bld.x s.bld.palCode s.surface).surface with bld := b }
  | codec (s : State) :
      Effect .awdec s
        { s with
          code := (awd s.word).code
          xf := (awd s.word).xf
          yf := (awd s.word).yf
          pali := (awd s.word).pal.setWidth 5
          status := .ok }
  | sampled {i : Instr} {s : State} (n : BitVec 4) (hi : i = .samp8 ∨ i = .samp32) :
      Effect i s { s with nib := n, status := .ok }
  | decompressed (s : State) : Effect .rld s (s.decompressed (rld s.rom s.cur))
  | found {i : Instr} {s : State} (off : Half)
      (hi : i ∈ [Instr.rsvlvl, .rsvbg, .rsvter, .rsvfol, .rsvbld]) :
      Effect i s { s with off := off, status := .ok }
  | skipped {i : Instr} {s : State} (cause : Anomaly)
      (hi : i ∈ [Instr.rsvlvl, .rsvbg, .rsvter, .rsvfol, .rsvbld]) :
      Effect i s { s.raise cause with status := .skipped }
  | level (s : State) :
      Effect .ldlvl s
        { s.loadLevel levelEntryDecode s.lvl.toNat with
          status := levelOutcome s.rom levelEntryDecode s.lvl.toNat }
  | tile (s : State) :
      Effect .paint8 s
        { s.withSurface (paint s.env s.code s.xf s.yf s.pali.toInt s.px.toInt s.py.toInt s.surface) with
          status := .ok }
  | clear (s : State) : Effect .clear s { s.runClear with status := .ok }
  | drawbg (s : State) : Effect .drawbg s { s.runBg with status := s.runBg.lstat1 }
  | drawsky (s : State) : Effect .drawsky s { s.runSky with status := s.runSky.lstat2 }
  | drawfol (s : State) : Effect .drawfol s { s.runFol with status := s.runFol.lstat3 }
  | drawbld (s : State) : Effect .drawbld s { s.runBld with status := s.runBld.lstat4 }
  | drawter (s : State) : Effect .drawter s { s.runTer with status := s.runTer.lstat5 }
  | composed (s : State) : Effect .composed s (State.runAll { s with anom := 0 })
  | compose (s : State) :
      Effect .compose s (State.loadLevel { s with anom := 0 } levelEntryDecode s.lvl.toNat).runAll
  | rejected {i : Instr} {s : State} (cause : RejCause) (hi : i.format = .op) :
      Effect i s (s.reject cause)
  | badop (v : Byte) (s : State) : Effect (.badop v) s { s with status := .badOp }

theorem sampled_effect {i : Instr} (s : State) (o : Option (BitVec 4)) (hi : i = .samp8 ∨ i = .samp32) :
    Effect i s (s.sampled o) := by
  cases o with
  | some n => exact .sampled n hi
  | none => exact .rejected _ (by rcases hi with rfl | rfl <;> rfl)

theorem resolved_effect {i : Instr} (s : State) (r : Resolved)
    (hi : i ∈ [Instr.rsvlvl, .rsvbg, .rsvter, .rsvfol, .rsvbld]) : Effect i s (s.resolved r) := by
  cases r with
  | found off => exact .found _ hi
  | skip cause => exact .skipped cause hi

theorem ite_effect {i : Instr} {s t u : State} {c : Prop} [Decidable c] (ht : Effect i s t)
    (hu : Effect i s u) : Effect i s (if c then t else u) := by
  split
  · exact ht
  · exact hu

/-- Every instruction answers a next state, by one of the effects. -/
theorem exec_effect (i : Instr) (s : State) : ∃ t, exec i s = .next t ∧ Effect i s t := by
  cases i
  case aw h p y x l => exact ⟨_, rfl, .word h p y x l s⟩
  case endItem => exact ⟨_, rfl, .stream rfl (.inl rfl)⟩
  case lit n => exact ⟨_, rfl, .stream rfl (.inr (.inl ⟨_, rfl⟩))⟩
  case run n => exact ⟨_, rfl, .stream rfl (.inr (.inr ⟨_, rfl⟩))⟩
  case bend => exact ⟨_, rfl, .list _ rfl⟩
  case bskipLow m => exact ⟨_, rfl, .list _ rfl⟩
  case bskipHigh m => exact ⟨_, rfl, .list _ rfl⟩
  case brec id => exact ⟨_, rfl, .list _ rfl⟩
  case tw16 => exact ⟨_, rfl, .building 0xFF _ rfl⟩
  case tw8 m => exact ⟨_, rfl, .building m _ rfl⟩
  case awdec => exact ⟨_, rfl, .codec s⟩
  case samp8 => exact ⟨_, rfl, sampled_effect s _ (.inl rfl)⟩
  case samp32 => exact ⟨_, rfl, sampled_effect s _ (.inr rfl)⟩
  case rld => exact ⟨_, rfl, .decompressed s⟩
  case rsvlvl => exact ⟨_, rfl, ite_effect (.rejected _ rfl) (.found _ (by decide))⟩
  case rsvbg => exact ⟨_, rfl, resolved_effect s _ (by decide)⟩
  case rsvter => exact ⟨_, rfl, resolved_effect s _ (by decide)⟩
  case rsvfol => exact ⟨_, rfl, resolved_effect s _ (by decide)⟩
  case rsvbld => exact ⟨_, rfl, resolved_effect s _ (by decide)⟩
  case ldlvl => exact ⟨_, rfl, ite_effect (.rejected _ rfl) (.level s)⟩
  case paint8 => exact ⟨_, rfl, .tile s⟩
  case clear => exact ⟨_, rfl, .clear s⟩
  case drawbg => exact ⟨_, rfl, .drawbg s⟩
  case drawsky => exact ⟨_, rfl, .drawsky s⟩
  case drawfol => exact ⟨_, rfl, .drawfol s⟩
  case drawbld => exact ⟨_, rfl, .drawbld s⟩
  case drawter => exact ⟨_, rfl, .drawter s⟩
  case composed => exact ⟨_, rfl, ite_effect (.rejected _ rfl) (.composed s)⟩
  case compose =>
    exact ⟨_, rfl, ite_effect (.rejected _ rfl) (ite_effect (.rejected _ rfl) (.compose s))⟩
  case badop v => exact ⟨_, rfl, .badop v s⟩

theorem effect_of_exec {i : Instr} {s t : State} (h : exec i s = .next t) : Effect i s t := by
  obtain ⟨u, hu, he⟩ := exec_effect i s
  obtain rfl : t = u := by simpa [hu] using h.symm
  exact he

theorem resolver_format :
    ∀ i ∈ [Instr.rsvlvl, .rsvbg, .rsvter, .rsvfol, .rsvbld], i.format = .op := by decide

namespace Effect

variable {i : Instr} {s t : State}

/-! ## What an instruction leaves alone -/

theorem inputs (h : Effect i s t) :
    t.rom = s.rom ∧ t.tile = s.tile ∧ t.pal = s.pal ∧ t.par = s.par := by
  cases h
  case composed | compose => simp
  all_goals exact ⟨rfl, rfl, rfl, rfl⟩

theorem port (h : Effect i s t) : t.bus = s.bus ∧ t.site = s.site ∧ t.hostData = s.hostData := by
  cases h
  case composed | compose => simp
  all_goals exact ⟨rfl, rfl, rfl⟩

theorem operands (h : Effect i s t) :
    t.word = s.word ∧ t.tx = s.tx ∧ t.ty = s.ty ∧ t.px = s.px ∧ t.py = s.py ∧ t.sel = s.sel ∧
      t.lvl = s.lvl := by
  cases h
  case composed | compose => simp
  all_goals exact ⟨rfl, rfl, rfl, rfl, rfl, rfl, rfl⟩

theorem canvasEra (h : Effect i s t) : t.canvasEra = s.canvasEra := by
  cases h
  case composed | compose => simp
  all_goals rfl

theorem fields (h : Effect i s t) (hi : i ≠ .awdec) :
    t.code = s.code ∧ t.xf = s.xf ∧ t.yf = s.yf ∧ t.pali = s.pali := by
  cases h
  case codec => exact absurd rfl hi
  case composed | compose => simp
  all_goals exact ⟨rfl, rfl, rfl, rfl⟩

theorem nib (h : Effect i s t) (h8 : i ≠ .samp8) (h32 : i ≠ .samp32) : t.nib = s.nib := by
  cases h
  case sampled hi => exact absurd hi (not_or.2 ⟨h8, h32⟩)
  case composed | compose => simp
  all_goals rfl

theorem streamRegs (h : Effect i s t) (hi : i ≠ .rld) :
    t.cur = s.cur ∧ t.base = s.base ∧ t.consumed = s.consumed ∧ t.ews = s.ews ∧
      t.ewsEra = s.ewsEra := by
  cases h
  case decompressed => exact absurd rfl hi
  case composed | compose => simp
  all_goals exact ⟨rfl, rfl, rfl, rfl, rfl⟩

theorem off (h : Effect i s t) (hn : i ∉ [Instr.rsvlvl, .rsvbg, .rsvter, .rsvfol, .rsvbld]) :
    t.off = s.off := by
  cases h
  case found hi => exact absurd hi hn
  case composed | compose => simp
  all_goals rfl

theorem descriptor (h : Effect i s t) (hn : i ∉ [Instr.ldlvl, .compose]) :
    t.bgsel = s.bgsel ∧ t.tersel = s.tersel ∧ t.folsel = s.folsel ∧ t.blptr = s.blptr ∧
      t.nbld = s.nbld ∧ t.blist = s.blist ∧ t.blistEra = s.blistEra := by
  cases h
  case level => simp at hn
  case compose => simp at hn
  case composed => simp
  all_goals exact ⟨rfl, rfl, rfl, rfl, rfl, rfl, rfl⟩

theorem canvas (h : Effect i s t) (hb : i.format ≠ .bld)
    (hn : i ∉ [Instr.paint8, .clear, .drawbg, .drawsky, .drawfol, .drawbld, .drawter, .composed,
      .compose]) : t.canvas = s.canvas := by
  cases h
  case building hi => exact absurd hi hb
  case tile | clear | drawbg | drawsky | drawfol | drawbld | drawter | composed | compose =>
    simp at hn
  all_goals rfl

theorem lstat1 (h : Effect i s t) (hn : i ∉ [Instr.drawbg, .composed, .compose]) :
    t.lstat1 = s.lstat1 := by
  cases h
  case drawbg | composed | compose => simp at hn
  all_goals rfl

theorem lstat2 (h : Effect i s t) (hn : i ∉ [Instr.drawsky, .composed, .compose]) :
    t.lstat2 = s.lstat2 := by
  cases h
  case drawsky | composed | compose => simp at hn
  all_goals rfl

theorem lstat3 (h : Effect i s t) (hn : i ∉ [Instr.drawfol, .composed, .compose]) :
    t.lstat3 = s.lstat3 := by
  cases h
  case drawfol | composed | compose => simp at hn
  all_goals rfl

theorem lstat4 (h : Effect i s t) (hn : i ∉ [Instr.drawbld, .composed, .compose]) :
    t.lstat4 = s.lstat4 := by
  cases h
  case drawbld | composed | compose => simp at hn
  all_goals rfl

theorem lstat5 (h : Effect i s t) (hn : i ∉ [Instr.drawter, .composed, .compose]) :
    t.lstat5 = s.lstat5 := by
  cases h
  case drawter | composed | compose => simp at hn
  all_goals rfl

theorem outcomeRegs (h : Effect i s t) (hn : i.format ≠ .op) :
    t.status = s.status ∧ t.rejCause = s.rejCause := by
  cases h
  case word | stream | list | building => exact ⟨rfl, rfl⟩
  case rejected hi => exact absurd hi hn
  case sampled hi => rcases hi with rfl | rfl <;> exact absurd rfl hn
  case found hi | skipped hi => exact absurd (resolver_format _ hi) hn
  all_goals exact absurd rfl hn

/-- A rejection is an effect of its own; every other effect ends with another outcome. -/
theorem rejection (h : Effect i s t) (hi : i.format = .op) (ht : t.status = .rejected) :
    t = { s with status := .rejected, rejCause := t.rejCause } := by
  have not_rejected : ∀ {o : OpOutcome}, o = .ok ∨ o = .partialEnd ∨ o = .skipped → o ≠ .rejected := by
    rintro _ (rfl | rfl | rfl) <;> decide
  cases h
  case rejected => rfl
  case word => cases hi
  case stream hf _ | list hf | building hf => rw [hi] at hf; cases hf
  case codec | sampled | found | skipped | tile | clear | badop => cases ht
  case decompressed => exact absurd ht (not_rejected ((rld_outcome _ _).imp_right .inl))
  case level => exact absurd ht (not_rejected ((readList_outcome _ _).imp_right .inl))
  case drawbg => exact absurd ht (not_rejected (layerBg_outcome _ _ _ _))
  case drawsky => exact absurd ht (not_rejected (layerSky_outcome _ _))
  case drawfol => exact absurd ht (not_rejected ((layerFol_outcome _ _ _).imp_right .inr))
  case drawbld => exact absurd ht (not_rejected ((layerBld_outcome _ _ _).imp_right .inl))
  case drawter => exact absurd ht (not_rejected (layerTer_outcome _ _ _))
  case composed | compose =>
    simp only [State.runAll, finalOutcome] at ht
    split at ht <;> cases ht

theorem rejCause (h : Effect i s t) (ht : t.status ≠ .rejected) : t.rejCause = s.rejCause := by
  cases h
  case rejected => exact absurd rfl ht
  case composed | compose => simp
  all_goals rfl

end Effect

/-! ## What painting keeps, on the state -/

theorem runAll_surface_keeps {P : Surface → Prop} (hP : PaintKeeps P) {s : State}
    (hs : P { canvas := Canvas.filled s.par.canvasInit, anom := s.anom }) : P s.runAll.surface := by
  have bg : P s.runClear.runBg.surface := layerBg_keeps hP hs
  have sky : P s.runClear.runBg.runSky.surface := layerSky_keeps hP bg
  have fol : P s.runClear.runBg.runSky.runFol.surface := layerFol_keeps hP sky
  have bld : P s.runClear.runBg.runSky.runFol.runBld.surface := layerBld_keeps hP fol
  exact layerTer_keeps hP bld

namespace Effect

variable {i : Instr} {s t : State}

/-- A property of surfaces that painting keeps, and that does not depend on `ANOM` where an instruction
other than a painter sets it, is kept by every instruction. -/
theorem surface_keeps {P : Surface → Prop} (h : Effect i s t) (hP : PaintKeeps P)
    (hclear : ∀ f : Surface, P f → P { f with canvas := Canvas.filled s.par.canvasInit })
    (hzero : i = .composed ∨ i = .compose → ∀ f : Surface, P f → P { f with anom := 0 })
    (hs : P s.surface) : P t.surface := by
  cases h
  case building => exact drawBody_keeps hP hs
  case decompressed => exact raiseIfPartial_keeps hP.raise _ hs
  case level => exact raiseIfPartial_keeps hP.raise _ hs
  case skipped cause _ => exact hP.raise _ cause hs
  case tile => exact paint_keeps (hP.square _ _) hs
  case clear => exact hclear _ hs
  case drawbg => exact layerBg_keeps hP hs
  case drawsky => exact layerSky_keeps hP hs
  case drawfol => exact layerFol_keeps hP hs
  case drawbld => exact layerBld_keeps hP hs
  case drawter => exact layerTer_keeps hP hs
  case composed => exact runAll_surface_keeps hP (hclear _ (hzero (.inl rfl) _ hs))
  case compose =>
    have zeroed := hclear _ (hzero (.inr rfl) _ hs)
    exact runAll_surface_keeps hP (raiseIfPartial_keeps hP.raise _ zeroed)
  all_goals exact hs

end Effect

theorem paintKeeps_bitsKept (a : BitVec 4) : PaintKeeps (fun f => bitsKept a f.anom) where
  pixel _ _ _ _ _ _ hf := hf
  raise f b hf := by
    change a &&& raiseBit f.anom b = a
    rw [← show a &&& f.anom = a from hf, BitVec.and_assoc, raiseBit_keeps]

/-! ## The frame statements -/

/-- Settles O13: no effect is on an input memory, a parameter or the host's port. -/
theorem noInstructionWritesInputMemories : Obligations.NoInstructionWritesInputMemories := by
  intro i s t h
  obtain ⟨hrom, htile, hpal, hpar⟩ := (effect_of_exec h).inputs
  exact ⟨hrom, htile, hpal, hpar, (effect_of_exec h).port⟩

/-- Settles O14: painting and the cut of a stream or list only set bits; the two instructions that clear
them are left out. -/
theorem anomaliesAreSticky : Obligations.AnomaliesAreSticky := by
  intro i s t hcompose hcomposed h
  have kept := (effect_of_exec h).surface_keeps (paintKeeps_bitsKept s.anom) (fun _ hf => hf)
    (fun hi => absurd hi (not_or.2 ⟨hcomposed, hcompose⟩)) BitVec.and_self
  exact kept

/-- Settles O15: `reject` is the one effect with outcome `REJECTED`, and the one that writes `REJCAUSE`. -/
theorem rejectionChangesOnlyStatusAndCause : Obligations.RejectionChangesOnlyStatusAndCause :=
  ⟨fun _ _ _ hi h ht => (effect_of_exec h).rejection hi ht,
    fun _ _ _ h ht => (effect_of_exec h).rejCause ht⟩

/-- Settles O16, one group of registers after another. -/
theorem onlyNamedRegistersChange : Obligations.OnlyNamedRegistersChange := by
  intro i s t h
  have he := effect_of_exec h
  exact ⟨he.canvasEra, he.operands, he.fields, he.nib, he.streamRegs, he.off, he.descriptor, he.canvas,
    he.lstat1, he.lstat2, he.lstat3, he.lstat4, he.lstat5, he.outcomeRegs⟩

/-! ## The invariants -/

theorem maskPair_masked (p : Pair) : pairMasked (maskPair p) := by
  have masked : ∀ b : Byte, (b &&& 0x3F).toNat ≤ 0x3F := by decide +kernel
  exact masked p.hi

theorem rlePairs_masked (rom : Buffer) (n : Nat) (r : RleCursor) (h : ∀ p ∈ r.pairs, pairMasked p) :
    ∀ p ∈ (rlePairs rom n r).pairs, pairMasked p := by
  induction n generalizing r with
  | zero => exact h
  | succ n ih =>
    unfold rlePairs
    cases rom.readPair r.pos with
    | none => exact h
    | some q =>
      refine ih _ fun p hp => ?_
      rcases List.mem_append.1 hp with hp | hp
      · exact h p hp
      · rw [List.mem_singleton.1 hp]
        exact maskPair_masked q

theorem rleRun_masked (rom : Buffer) (n : Nat) (r : RleCursor) (h : ∀ p ∈ r.pairs, pairMasked p) :
    ∀ p ∈ (rleRun rom n r).pairs, pairMasked p := by
  unfold rleRun
  cases rom.readPair (r.pos + 1) with
  | none => exact h
  | some q =>
    intro p hp
    rcases List.mem_append.1 hp with hp | hp
    · exact h p hp
    · rw [List.eq_of_mem_replicate hp]
      exact maskPair_masked q

theorem rleItem_masked (rom : Buffer) (r : RleCursor) (h : ∀ p ∈ r.pairs, pairMasked p) :
    ∀ p ∈ (rleItem rom r).pairs, pairMasked p := by
  unfold rleItem
  split
  · exact h
  · split
    · exact h
    · split
      · exact rlePairs_masked rom _ _ h
      · exact rleRun_masked rom _ _ h

theorem rleLoop_masked (rom : Buffer) (fuel : Nat) (r : RleCursor) (h : ∀ p ∈ r.pairs, pairMasked p) :
    ∀ p ∈ (rleLoop rom fuel r).pairs, pairMasked p := by
  induction fuel generalizing r with
  | zero => exact h
  | succ fuel ih =>
    unfold rleLoop
    split
    · exact h
    · exact ih _ (rleItem_masked rom r h)

theorem rld_masked (rom : Buffer) (a : Nat) : ∀ p ∈ (rld rom a).pairs, pairMasked p :=
  rleLoop_masked rom _ _ (fun _ hp => absurd hp List.not_mem_nil)

/-- A host write of a register is on no space, no outcome register and no cursor. -/
theorem writeNumber_frame (s : State) (n v : Nat) :
    (writeNumber s n v).rom = s.rom ∧ (writeNumber s n v).tile = s.tile ∧
    (writeNumber s n v).pal = s.pal ∧ (writeNumber s n v).canvas = s.canvas ∧
    (writeNumber s n v).ews = s.ews ∧ (writeNumber s n v).blist = s.blist ∧
    (writeNumber s n v).rle = s.rle ∧ (writeNumber s n v).bus = s.bus := by
  unfold writeNumber
  cases regOf n with
  | none => exact ⟨rfl, rfl, rfl, rfl, rfl, rfl, rfl, rfl⟩
  | some r => cases r <;> exact ⟨rfl, rfl, rfl, rfl, rfl, rfl, rfl, rfl⟩

theorem writeNumber_lstat (s : State) (n v : Nat) :
    (writeNumber s n v).lstat1 = s.lstat1 ∧ (writeNumber s n v).lstat2 = s.lstat2 ∧
    (writeNumber s n v).lstat3 = s.lstat3 ∧ (writeNumber s n v).lstat4 = s.lstat4 ∧
    (writeNumber s n v).lstat5 = s.lstat5 := by
  unfold writeNumber
  cases regOf n with
  | none => exact ⟨rfl, rfl, rfl, rfl, rfl⟩
  | some r => cases r <;> exact ⟨rfl, rfl, rfl, rfl, rfl⟩

theorem reset_memoriesCanonical : State.reset.MemoriesCanonical := ⟨rfl, rfl, rfl, rfl, rfl⟩

theorem stepKeeps_memoriesCanonical : StepKeeps State.MemoriesCanonical where
  exec i s t hs h := by
    have he := effect_of_exec h
    obtain ⟨hrom, htile, hpal, hcanvas, hblist⟩ := hs
    obtain ⟨erom, etile, epal, -⟩ := he.inputs
    refine ⟨erom ▸ hrom, etile ▸ htile, epal ▸ hpal, ?canvas, ?blist⟩
    case canvas =>
      have kept : t.surface.canvas.wf = true :=
        he.surface_keeps paintKeeps_canvas_wf (fun _ _ => canvas_wf_filled _) (fun _ _ hf => hf) hcanvas
      exact kept
    case blist =>
      cases he
      case level => exact blistWf_blistCells _
      case compose => simpa using blistWf_blistCells _
      case composed => simpa using hblist
      all_goals exact hblist
  serve s a hs := by
    have ⟨hrom, htile, hpal, hcanvas, hblist⟩ := hs
    cases a
    case write n v =>
      obtain ⟨erom, etile, epal, ecanvas, -, eblist, -, -⟩ := writeNumber_frame s n v
      simp only [serveAccess, State.MemoriesCanonical, erom, etile, epal, ecanvas, eblist]
      exact hs
    case writeBlist a b => exact ⟨hrom, htile, hpal, hcanvas, blistWf_put hblist⟩
    case loadRom bytes => exact ⟨buffer_wf_ofBytes bytes, htile, hpal, hcanvas, hblist⟩
    case loadTile bytes => exact ⟨hrom, buffer_wf_ofBytes bytes, hpal, hcanvas, hblist⟩
    case loadPal bytes => exact ⟨hrom, htile, buffer_wf_ofBytes bytes, hcanvas, hblist⟩
    case reset => exact ⟨hrom, htile, hpal, rfl, rfl⟩
    all_goals exact hs
  bus _ _ hs := hs
  site _ _ hs := hs
  rle _ hs := hs
  blr _ hs := hs
  bld _ _ hs := hs

theorem stepKeeps_pairsMasked : StepKeeps State.PairsMasked where
  exec i s t hs h := by
    obtain ⟨hews, hrle⟩ := hs
    have he := effect_of_exec h
    cases he
    case stream hi hr =>
      refine ⟨hews, ?_⟩
      rcases hr with rfl | ⟨n, rfl⟩ | ⟨n, rfl⟩
      · exact hrle
      · exact rlePairs_masked s.rom n _ hrle
      · exact rleRun_masked s.rom n _ hrle
    case decompressed => exact ⟨rld_masked s.rom s.cur, hrle⟩
    case composed | compose => exact ⟨by simpa using hews, by simpa using hrle⟩
    all_goals exact ⟨hews, hrle⟩
  serve s a hs := by
    cases a
    case write n v =>
      obtain ⟨-, -, -, -, eews, -, erle, -⟩ := writeNumber_frame s n v
      simp only [serveAccess, State.PairsMasked, eews, erle]
      exact hs
    case reset => exact ⟨fun _ hp => absurd hp List.not_mem_nil, fun _ hp => absurd hp List.not_mem_nil⟩
    all_goals exact hs
  bus _ _ hs := hs
  site _ _ hs := hs
  rle _ hs := hs
  blr _ hs := hs
  bld _ _ hs := hs

theorem runAll_layerOutcomesLegal (s : State) : s.runAll.LayerOutcomesLegal :=
  ⟨layerBg_outcome _ _ _ _, layerSky_outcome _ _, layerFol_outcome _ _ _, layerBld_outcome _ _ _,
    layerTer_outcome _ _ _⟩

theorem stepKeeps_layerOutcomesLegal : StepKeeps State.LayerOutcomesLegal where
  exec i s t hs h := by
    have ⟨h1, h2, h3, h4, h5⟩ := hs
    have he := effect_of_exec h
    cases he
    case drawbg => exact ⟨layerBg_outcome _ _ _ _, h2, h3, h4, h5⟩
    case drawsky => exact ⟨h1, layerSky_outcome _ _, h3, h4, h5⟩
    case drawfol => exact ⟨h1, h2, layerFol_outcome _ _ _, h4, h5⟩
    case drawbld => exact ⟨h1, h2, h3, layerBld_outcome _ _ _, h5⟩
    case drawter => exact ⟨h1, h2, h3, h4, layerTer_outcome _ _ _⟩
    case composed | compose => exact runAll_layerOutcomesLegal _
    all_goals exact hs
  serve s a hs := by
    cases a
    case write n v =>
      obtain ⟨e1, e2, e3, e4, e5⟩ := writeNumber_lstat s n v
      simp only [serveAccess, State.LayerOutcomesLegal, e1, e2, e3, e4, e5]
      exact hs
    case reset => exact ⟨.inl rfl, .inl rfl, .inl rfl, .inl rfl, .inl rfl⟩
    all_goals exact hs
  bus _ _ hs := hs
  site _ _ hs := hs
  rle _ hs := hs
  blr _ hs := hs
  bld _ _ hs := hs

/-- Settles O10: the painters write bytes inside the canvas, loads and the level reader list cells in
order, and nothing else writes a memory. -/
theorem stepKeepsMemoriesCanonical : Obligations.StepKeepsMemoriesCanonical :=
  fun _ _ hs h => stepKeeps_memoriesCanonical.step hs h

/-- Settles O11: pairs come from the stream items and `RLD` alone, which mask them. -/
theorem stepKeepsPairsMasked : Obligations.StepKeepsPairsMasked :=
  fun _ _ hs h => stepKeeps_pairsMasked.step hs h

/-- Settles O12: a layer writes its own `LSTAT` with an outcome the layer can have. -/
theorem stepKeepsLayerOutcomesLegal : Obligations.StepKeepsLayerOutcomesLegal :=
  fun _ _ hs h => stepKeeps_layerOutcomesLegal.step hs h

/-- Settles O9: the memories are empty, no pair is there, every outcome is `OK`. -/
theorem resetMeetsTheInvariants : Obligations.ResetMeetsTheInvariants :=
  ⟨reset_memoriesCanonical,
    ⟨fun _ hp => absurd hp List.not_mem_nil, fun _ hp => absurd hp List.not_mem_nil⟩,
    .inl rfl, .inl rfl, .inl rfl, .inl rfl, .inl rfl⟩

end Sys2Proof.Machine
end

section
/-! SUPPORT. What one step does at each place an instruction is fetched from, what reset leaves, and that
the machine goes on (10_state.md R23, R50; 42_rle_decompressor.md R155, R159; 60_exceptions.md R257, R258,
R275; 70_reset_and_hazards.md R280). -/

namespace Sys2Proof.Machine

/-! ## One step -/

theorem step_of_run {s t : State} {i : Instr} (h : fetch s = .run i t) : step s = exec i t := by
  rw [step_eq, h]
  rfl

theorem step_of_done {s t : State} (h : fetch s = .done t) : step s = .next t := by
  rw [step_eq, h]
  rfl

theorem fetchDecoded_of_decode {f : Format} {bytes rest : List Byte} {i : Instr} (s : State)
    (h : decode f bytes = .ok i rest) : fetchDecoded f bytes s = .run i s := by
  unfold fetchDecoded
  rw [h]

theorem fetch_command {s : State} (hs : s.site = .command) : fetch s = fetchCommand s := by
  unfold fetch
  rw [hs]

theorem fetch_stream {s : State} (hs : s.site = .stream) : fetch s = fetchStream s := by
  unfold fetch
  rw [hs]

theorem fetch_list {s : State} (hs : s.site = .list) : fetch s = fetchList s := by
  unfold fetch
  rw [hs]

theorem fetch_building {s : State} (hs : s.site = .building) : fetch s = fetchBuilding s := by
  unfold fetch
  rw [hs]

theorem fetch_word {s : State} (hs : s.site = .word) : fetch s = fetchWord s := by
  unfold fetch
  rw [hs]

theorem step_op {s : State} {v : Nat} {rest : List HostAccess} {i : Instr} (hs : s.site = .command)
    (hb : s.bus = .write 0 v :: rest) (hd : decode .op [BitVec.ofNat 8 v] = .ok i []) :
    step s = exec i { s with bus := rest } := by
  apply step_of_run
  simp only [fetch_command hs, fetchCommand, hb, fetchAccess, if_pos, fetchDecoded_of_decode _ hd]

theorem step_stream {s : State} {c : Byte} {i : Instr} (hs : s.site = .stream) (he : s.rle.ended = false)
    (hr : s.rom.read s.rle.pos = some c) (hd : decode .rle [c] = .ok i []) : step s = exec i s := by
  apply step_of_run
  simp only [fetch_stream hs, fetchStream, he, hr, fetchDecoded_of_decode _ hd, Bool.false_eq_true, if_false]

theorem step_list {s : State} {c : Byte} {i : Instr} (hs : s.site = .list) (he : s.blr.ended = false)
    (hr : s.rom.read s.blr.pos = some c) (hd : decode .blr [c] = .ok i []) : step s = exec i s := by
  apply step_of_run
  simp only [fetch_list hs, fetchList, he, hr, fetchDecoded_of_decode _ hd, Bool.false_eq_true, if_false]

theorem step_building {s : State} {c : Byte} {i : Instr} (hs : s.site = .building)
    (he : s.bld.ended = false) (hr : s.rom.read (s.bld.off + 2) = some c)
    (hd : decode .bld [c] = .ok i []) : step s = exec i s := by
  apply step_of_run
  simp only [fetch_building hs, fetchBuilding, he, hr, fetchDecoded_of_decode _ hd,
    Bool.false_eq_true, if_false]

theorem step_word {s : State} {p : Pair} {i : Instr} (hs : s.site = .word)
    (hr : s.rom.readPair s.aww.pos = some p) (hd : decode .aw [p.lo, p.hi] = .ok i []) :
    step s = exec i s := by
  apply step_of_run
  simp only [fetch_word hs, fetchWord, hr, fetchDecoded_of_decode _ hd]

theorem step_stream_exhausted {s : State} (hs : s.site = .stream) (he : s.rle.ended = false)
    (hl : s.rom.len ≤ s.rle.pos) : step s = .next { s with rle := { s.rle with ended := true } } := by
  apply step_of_done
  simp only [fetch_stream hs, fetchStream, he, buffer_read_eq_none.2 hl, Bool.false_eq_true, if_false]
  rfl

theorem step_list_exhausted {s : State} (hs : s.site = .list) (he : s.blr.ended = false)
    (hl : s.rom.len ≤ s.blr.pos) :
    step s = .next { s with blr := { s.blr with outcome := .partialEnd, ended := true } } := by
  apply step_of_done
  simp only [fetch_list hs, fetchList, he, buffer_read_eq_none.2 hl, Bool.false_eq_true, if_false]
  rfl

theorem step_building_cut {s : State} (hs : s.site = .building) (he : s.bld.ended = false)
    (hl : s.rom.len < s.bld.off + 3) :
    step s = .next
      { s with anom := s.anom ||| 0b0010, bld := { s.bld with painted := false, ended := true } } := by
  have no_mode : s.rom.read (s.bld.off + 2) = none := buffer_read_eq_none.2 (Nat.le_of_lt_succ hl)
  apply step_of_done
  simp only [fetch_building hs, fetchBuilding, he, no_mode, Bool.false_eq_true, if_false]
  rfl

/-- An item decoder that has ended, or has no whole word left, gives the command interface its turn. -/
theorem step_item_over {s : State}
    (h : (s.site = .stream ∧ s.rle.ended = true) ∨ (s.site = .list ∧ s.blr.ended = true) ∨
      (s.site = .building ∧ s.bld.ended = true) ∨ (s.site = .word ∧ s.rom.len ≤ s.aww.pos + 1)) :
    step s = .next { s with site := .command } := by
  apply step_of_done
  rcases h with ⟨hs, he⟩ | ⟨hs, he⟩ | ⟨hs, he⟩ | ⟨hs, hl⟩
  · simp only [fetch_stream hs, fetchStream, he, if_true]
  · simp only [fetch_list hs, fetchList, he, if_true]
  · simp only [fetch_building hs, fetchBuilding, he, if_true]
  · simp only [fetch_word hs, fetchWord, buffer_readPair_eq_none.2 hl]

theorem step_idle {s : State} (hs : s.site = .command) (hb : s.bus = []) : step s = .next s := by
  apply step_of_done
  simp only [fetch_command hs, fetchCommand, hb]

/-- No fetch and no instruction stops the machine. -/
theorem step_next (s : State) : ∃ t, step s = .next t := by
  rw [step_eq]
  cases fetch s with
  | run i t =>
    obtain ⟨u, hu, -⟩ := exec_effect i t
    exact ⟨u, hu⟩
  | done t => exact ⟨t, rfl⟩

/-! ## Runs -/

theorem run_zero (s : State) : Sys2Proof.core.run 0 s = .next s := rfl

theorem core_run_succ (M : Host.Core) {s t : M.State} (h : M.step s = .next t) (n : Nat) :
    M.run (n + 1) s = M.run n t := by
  rw [Host.Core.run, h]

theorem run_succ {s t : State} (h : step s = .next t) (n : Nat) :
    Sys2Proof.core.run (n + 1) s = Sys2Proof.core.run n t :=
  core_run_succ Sys2Proof.core h n

theorem run_two {s t u : State} (h : step s = .next t) (h' : step t = .next u) :
    Sys2Proof.core.run 2 s = .next u := by
  rw [run_succ h, run_succ h', run_zero]

theorem run_next (n : Nat) (s : State) : ∃ t, Sys2Proof.core.run n s = .next t := by
  induction n generalizing s with
  | zero => exact ⟨s, rfl⟩
  | succ n ih =>
    obtain ⟨t, ht⟩ := step_next s
    rw [run_succ ht]
    exact ih t

/-! ## Reset -/

theorem readNumber_reset : ∀ n < 0x40, readNumber State.reset n = 0 := by decide

/-- The reset event leaves every register but the two computed from a memory as reset has it. -/
theorem readReg_applyReset (s : State) {r : Reg} (hl : r ≠ .totalLevels) (hn : r ≠ .ntiles) :
    readReg s.applyReset r = readReg State.reset r := by
  cases r
  case totalLevels => exact absurd rfl hl
  case ntiles => exact absurd rfl hn
  all_goals rfl

theorem readNumber_applyReset (s : State) (n : Nat) (hn : n < 0x40) : readNumber s.applyReset n = 0 := by
  have computed_above : ∀ n < 0x40, regOf n ≠ some .totalLevels ∧ regOf n ≠ some .ntiles := by decide
  obtain ⟨hl, ht⟩ := computed_above n hn
  rw [← readNumber_reset n hn]
  unfold readNumber
  cases hr : regOf n with
  | none => rfl
  | some r =>
    rw [hr] at hl ht
    exact readReg_applyReset s (fun e => hl (congrArg some e)) fun e => ht (congrArg some e)

/-- Settles O4: the working registers are read one by one, an idle step is none. -/
theorem resetRegistersReadZero : Obligations.ResetRegistersReadZero :=
  ⟨readNumber_reset, rfl, rfl, fun _ _ => rfl, step_idle rfl rfl⟩

/-- Settles O5: the step serves the reset event. -/
theorem resetEventKeepsInputMemories : Obligations.ResetEventKeepsInputMemories := by
  intro s rest hs hb
  exact ⟨_, step_serve hs hb (fun _ h => nomatch h), rfl, rfl, rfl, rfl, rfl, readNumber_applyReset _, rfl,
    rfl, fun _ _ => rfl⟩

/-- Settles O6. -/
theorem stepRunsTheOperationWritten : Obligations.StepRunsTheOperationWritten :=
  fun _ _ _ _ hs hb hd => step_op hs hb hd

/-- Settles O7, one place after another. -/
theorem stepRunsTheItemAtTheCursor : Obligations.StepRunsTheItemAtTheCursor :=
  ⟨fun _ _ _ => step_stream, fun _ _ _ => step_list, fun _ _ _ => step_building, fun _ _ _ => step_word,
    fun _ => step_stream_exhausted, fun _ => step_list_exhausted, fun _ => step_building_cut,
    fun _ => step_item_over, fun _ => step_idle⟩

/-- Settles O8: every instruction and every fetch answers a next state. -/
theorem everyRunGoesOn : Obligations.EveryRunGoesOn := run_next

/-! ## Select codes that select nothing -/

theorem decode_badop {c : Byte} (h : c ∉ selectCodes) : decode .op [c] = .ok (.badop c) [] :=
  decode_of_firstRow [] (firstRow_badop h)

/-- Settles O55: the value written decodes to `BADOP`, which sets `STATUS`. -/
theorem badSelectCodeOnlySetsStatus : Obligations.BadSelectCodeOnlySetsStatus := by
  refine ⟨fun v s => rfl, fun s v rest hs hb hv => ?_⟩
  have selected : ∀ c ∈ selectCodes, ¬ (c.toNat = 0 ∨ (0x0D ≤ c.toNat ∧ c.toNat ≤ 0x0F) ∨
      (0x15 ≤ c.toNat ∧ c.toNat ≤ 0x1D) ∨ 0x20 ≤ c.toNat) := by decide
  have none_selected : BitVec.ofNat 8 v ∉ selectCodes := by
    intro hmem
    have := selected _ hmem
    rw [BitVec.toNat_ofNat] at this
    exact this hv
  rw [step_op hs hb (decode_badop none_selected)]
  rfl

end Sys2Proof.Machine
end

section
/-! SUPPORT. The codec of the 16-bit words and the two samplers in plain arithmetic
(40_attribute_word.md R130 to R134; 41_tile_sampler.md R140 to R145). -/

namespace Sys2Proof.Machine

/-! ## The codec -/

/-- The codec's shifts and masks pick out the fields of the word, whatever bit 15 is. -/
theorem awd_fields (b h : BitVec 1) (p : BitVec 2) (y x : BitVec 1) (l : BitVec 10) :
    awd (b ++ h ++ p ++ y ++ x ++ l) = fieldsDecoded h p y x l := by
  have low_mask : ∀ i < 16, (0x03FF#16).getLsbD i = decide (i < 10) := by decide
  have high_mask : ∀ i < 16, (0x0400#16).getLsbD i = decide (i = 10) := by decide
  have pal_mask : ∀ i < 16, (0x03#16).getLsbD i = decide (i < 2) := by decide
  have selector : ((b ++ h ++ p ++ y ++ x ++ l) >>> 12) &&& 0x03#16 = p.setWidth 16 := by
    ext i hi
    simp only [← BitVec.getLsbD_eq_getElem, BitVec.getLsbD_and, BitVec.getLsbD_ushiftRight,
      BitVec.getLsbD_append, BitVec.getLsbD_setWidth, pal_mask i hi]
    grind
  have inverted : ∀ p : BitVec 2, (3#16 - p.setWidth 16).setWidth 2 = 3 - p := by decide
  unfold awd fieldsDecoded
  congr 1
  · ext i hi
    simp only [← BitVec.getLsbD_eq_getElem, BitVec.getLsbD_setWidth, BitVec.getLsbD_or,
      BitVec.getLsbD_and, BitVec.getLsbD_ushiftRight, BitVec.getLsbD_append, low_mask i (by omega),
      high_mask i (by omega)]
    grind
  · ext i hi
    simp only [← BitVec.getLsbD_eq_getElem, BitVec.getLsbD_setWidth, BitVec.getLsbD_ushiftRight,
      BitVec.getLsbD_append]
    grind
  · ext i hi
    simp only [← BitVec.getLsbD_eq_getElem, BitVec.getLsbD_setWidth, BitVec.getLsbD_ushiftRight,
      BitVec.getLsbD_append]
    grind
  · rw [selector, inverted]

theorem word_eq_fields (w : Half) :
    w.extractLsb' 15 1 ++ w.extractLsb' 14 1 ++ w.extractLsb' 12 2 ++ w.extractLsb' 11 1 ++
      w.extractLsb' 10 1 ++ w.extractLsb' 0 10 = w := by
  ext i hi
  simp only [← BitVec.getLsbD_eq_getElem, BitVec.getLsbD_append, BitVec.getLsbD_extractLsb']
  grind

theorem awd_eq_fields (w : Half) :
    awd w = fieldsDecoded (w.extractLsb' 14 1) (w.extractLsb' 12 2) (w.extractLsb' 11 1)
      (w.extractLsb' 10 1) (w.extractLsb' 0 10) := by
  conv => lhs; rw [← word_eq_fields w]
  exact awd_fields _ _ _ _ _ _

theorem awd_code_toNat (w : Half) :
    (awd w).code.toNat = w.toNat % 1024 + 1024 * (w.toNat / 16384 % 2) := by
  rw [awd_eq_fields]
  have low : (w.extractLsb' 0 10).toNat = w.toNat % 1024 := by simp
  have high : (w.extractLsb' 14 1).toNat = w.toNat / 16384 % 2 := by
    simp [Nat.shiftRight_eq_div_pow]
  change (w.extractLsb' 14 1 ++ w.extractLsb' 0 10).toNat = _
  rw [BitVec.toNat_append, ← Nat.shiftLeft_add_eq_or_of_lt (BitVec.isLt _), low, high,
    Nat.shiftLeft_eq]
  omega

theorem awd_xf_toNat (w : Half) : (awd w).xf.toNat = w.toNat / 1024 % 2 := by
  simp [awd, Nat.shiftRight_eq_div_pow]

theorem awd_yf_toNat (w : Half) : (awd w).yf.toNat = w.toNat / 2048 % 2 := by
  simp [awd, Nat.shiftRight_eq_div_pow]

/-- Settles O17: the four fields of `WORD`, each compared as a number. -/
theorem awdecResult : Obligations.AwdecResult := by
  intro s
  have code : (awd s.word).code =
      BitVec.ofNat 11 (s.word.toNat % 1024 + 1024 * (s.word.toNat / 16384 % 2)) := by
    rw [← awd_code_toNat, BitVec.ofNat_toNat, BitVec.setWidth_eq]
  have xf : (awd s.word).xf = BitVec.ofNat 1 (s.word.toNat / 1024) :=
    BitVec.eq_of_toNat_eq (awd_xf_toNat _)
  have yf : (awd s.word).yf = BitVec.ofNat 1 (s.word.toNat / 2048) :=
    BitVec.eq_of_toNat_eq (awd_yf_toNat _)
  have pali : (awd s.word).pal.setWidth 5 = BitVec.ofNat 5 (3 - s.word.toNat / 4096 % 4) := by
    rw [← awd_pal_toNat, BitVec.ofNat_toNat]
  rw [← code, ← xf, ← yf, ← pali]
  rfl

/-- Settles O19: the item carries the fields, and the codec picks out the same. -/
theorem attributeWordItemAgreesWithCodec : Obligations.AttributeWordItemAgreesWithCodec := by
  intro b h p y x l s
  rw [awd_fields]
  rfl

/-- Settles O20: bit 15 is in no field, and the fields are the word below it. -/
theorem codecInjectiveBelowBit15 : Obligations.CodecInjectiveBelowBit15 := by
  refine ⟨fun w => ?ignored, fun v w hv hw heq => ?injective⟩
  case ignored =>
    rw [awd_eq_fields, awd_eq_fields w]
    simp [BitVec.extractLsb'_xor]
  case injective =>
    have code := awd_code_toNat v
    have xf := awd_xf_toNat v
    have yf := awd_yf_toNat v
    have pal := awd_pal_toNat v
    rw [heq, awd_code_toNat] at code
    rw [heq, awd_xf_toNat] at xf
    rw [heq, awd_yf_toNat] at yf
    rw [heq, awd_pal_toNat] at pal
    exact BitVec.eq_of_toNat_eq (by omega)

/-! ## The samplers -/

theorem nibbleOf_eq (b : Byte) (x : Nat) :
    nibbleOf b x = BitVec.ofNat 4 (if x % 2 = 0 then b.toNat / 16 else b.toNat % 16) := by
  rw [← nibbleOf_toNat, BitVec.ofNat_toNat, BitVec.setWidth_eq]

theorem exec_samp8 {s : State} {o : Option (BitVec 4)}
    (h : sample8 s.tile s.code.toNat s.tx.toNat s.ty.toNat s.xf s.yf = o) :
    exec .samp8 s = .next (s.sampled o) := by
  subst h
  rfl

theorem exec_samp32 {s : State} {o : Option (BitVec 4)}
    (h : sample32 s.tile s.code.toNat s.tx.toNat s.ty.toNat s.xf s.yf = o) :
    exec .samp32 s = .next (s.sampled o) := by
  subst h
  rfl

/-- Settles O21: inside the domain the sampler answers the half of the mirrored pixel's byte. -/
theorem samp8Result : Obligations.Samp8Result := by
  intro s hcode hx hy x y b
  have sampled : sample8 s.tile s.code.toNat s.tx.toNat s.ty.toNat s.xf s.yf =
      some (nibbleOf (s.tile.at (32 * s.code.toNat + y * 4 + x / 2)) x) := if_pos ⟨hcode, hx, hy⟩
  rw [← nibbleOf_eq]
  exact exec_samp8 sampled

/-- Settles O22: `TX` and `TY` have five bits, so only the tile code can leave the domain. -/
theorem samp32Result : Obligations.Samp32Result := by
  intro s hcode x y b
  have sampled : sample32 s.tile s.code.toNat s.tx.toNat s.ty.toNat s.xf s.yf =
      some (nibbleOf (s.tile.at (512 * s.code.toNat + y * 16 + x / 2)) x) :=
    if_pos ⟨hcode, s.tx.isLt, s.ty.isLt⟩
  rw [← nibbleOf_eq]
  exact exec_samp32 sampled

/-- Settles O23: outside its domain a sampler answers nothing. -/
theorem samplersRejectOutsideTheirDomain : Obligations.SamplersRejectOutsideTheirDomain := by
  refine ⟨fun s h => ?samp8, fun s h => ?samp32⟩
  case samp8 =>
    have unsampled : sample8 s.tile s.code.toNat s.tx.toNat s.ty.toNat s.xf s.yf = none :=
      if_neg (by rintro ⟨hcode, hx, hy⟩; simp only [nTiles] at hcode; omega)
    exact exec_samp8 unsampled
  case samp32 =>
    have unsampled : sample32 s.tile s.code.toNat s.tx.toNat s.ty.toNat s.xf s.yf = none :=
      if_neg (by rintro ⟨hcode, -, -⟩; exact Nat.not_lt.2 h hcode)
    exact exec_samp32 unsampled

/-- Settles O24: the mirrored coordinate is in the domain too, and the flip is what mirrors it. -/
theorem samplingIsFlipSymmetric : Obligations.SamplingIsFlipSymmetric := by
  intro tile t x y xf yf hx hy
  have mirrored : ∀ n, 7 - n < 8 := fun n => by omega
  refine ⟨?column, ?row, ?both⟩
  case column => exact if_congr (by simp only [hx, mirrored]) rfl rfl
  case row => exact if_congr (by simp only [hy, mirrored]) rfl rfl
  case both => exact if_congr (by simp only [hx, hy, mirrored]) rfl rfl

end Sys2Proof.Machine
end

section
/-! SUPPORT. The run-length items and the building-list records: what each leaves in its cursor, that
stepping them one by one is the loop of the operation, and that the loop ends
(42_rle_decompressor.md R150 to R159; 44_level_descriptor.md R192 to R196). -/

namespace Sys2Proof.Machine

/-! ## Literal pairs -/

/-- The `n` masked pairs of a literal from address `a` on (R154). -/
def literalPairs (rom : Buffer) (a n : Nat) : List Pair :=
  (List.range n).map (fun k => { lo := rom.at (a + 2 * k), hi := rom.at (a + 1 + 2 * k) &&& 0x3F })

theorem literalPairs_succ (rom : Buffer) (a n : Nat) :
    literalPairs rom a (n + 1) =
      { lo := rom.at a, hi := rom.at (a + 1) &&& 0x3F } :: literalPairs rom (a + 2) n := by
  have lo : ∀ k, a + 2 * (k + 1) = a + 2 + 2 * k := fun k => by omega
  have hi : ∀ k, a + 1 + 2 * (k + 1) = a + 2 + 1 + 2 * k := fun k => by omega
  simp [literalPairs, List.range_succ_eq_map, lo, hi]

theorem rlePairs_of_read {rom : Buffer} {n : Nat} {r : RleCursor} (h : r.pos + 1 < rom.len) :
    rlePairs rom (n + 1) r = rlePairs rom n
      { r with
        pos := r.pos + 2
        pairs := r.pairs ++ [{ lo := rom.at r.pos, hi := rom.at (r.pos + 1) &&& 0x3F }] } := by
  conv => lhs; unfold rlePairs
  rw [buffer_readPair_eq_some.2 ⟨h, rfl⟩]
  rfl

theorem rlePairs_of_no_read {rom : Buffer} {n : Nat} {r : RleCursor} (h : rom.len ≤ r.pos + 1) :
    rlePairs rom (n + 1) r = { r with outcome := .partialEnd, ended := true } := by
  unfold rlePairs
  rw [buffer_readPair_eq_none.2 h]
  rfl

/-- A literal whose pairs all lie below the ROM's end. -/
theorem rlePairs_whole (rom : Buffer) (n : Nat) (r : RleCursor) (h : r.pos + 2 * n ≤ rom.len) :
    rlePairs rom n r =
      { r with pos := r.pos + 2 * n, pairs := r.pairs ++ literalPairs rom r.pos n } := by
  induction n generalizing r with
  | zero => simp [rlePairs, literalPairs]
  | succ n ih =>
    rw [rlePairs_of_read (by omega), ih _ (by simp only; omega), literalPairs_succ]
    simp only [List.append_assoc, List.singleton_append]
    congr 1
    omega

/-- A literal cut by the ROM's end: the pairs that lie wholly below it. -/
theorem rlePairs_cut (rom : Buffer) (n : Nat) (r : RleCursor) (h : r.pos ≤ rom.len)
    (hcut : rom.len < r.pos + 2 * n) :
    rlePairs rom n r =
      { pos := r.pos + 2 * ((rom.len - r.pos) / 2)
        pairs := r.pairs ++ literalPairs rom r.pos ((rom.len - r.pos) / 2)
        outcome := .partialEnd
        ended := true } := by
  induction n generalizing r with
  | zero => omega
  | succ n ih =>
    by_cases hread : r.pos + 1 < rom.len
    · have hk : (rom.len - r.pos) / 2 = (rom.len - (r.pos + 2)) / 2 + 1 := by omega
      rw [rlePairs_of_read hread, ih _ (by simp only; omega) (by simp only; omega), hk,
        literalPairs_succ]
      simp only [List.append_assoc, List.singleton_append]
      congr 1
      omega
    · have hk : (rom.len - r.pos) / 2 = 0 := by omega
      rw [rlePairs_of_no_read (Nat.le_of_not_lt hread), hk]
      simp [literalPairs]

/-- Settles O25: the pair of a `RUN` is read or the item is cut. -/
theorem endAndRunItems : Obligations.EndAndRunItems := by
  refine ⟨fun s => rfl, fun s n hfits => ?whole, fun s n hover => ?cut⟩
  all_goals
    change Host.Outcome.next { s with rle := rleRun s.rom n.toNat s.rle } = _
    rcases rleRun_cases s.rom n.toNat s.rle with ⟨hlt, hrun⟩ | ⟨hle, hrun⟩
  case whole.inl => rw [hrun]
  case whole.inr => omega
  case cut.inl => omega
  case cut.inr => rw [hrun]

/-- Settles O26: the literal's pairs start at the byte after its control byte. -/
theorem litItem : Obligations.LitItem := by
  refine ⟨fun s n hfits => ?whole, fun s n hpos hover => ?cut⟩
  all_goals
    change Host.Outcome.next
      { s with rle := rlePairs s.rom n.toNat { s.rle with pos := s.rle.pos + 1 } } = _
  case whole =>
    rw [rlePairs_whole s.rom n.toNat _ hfits]
    rfl
  case cut =>
    rw [rlePairs_cut s.rom n.toNat { s.rle with pos := s.rle.pos + 1 } hpos hover]
    rfl

/-! ## The loop of `RLD` -/

/-- The instruction of a control byte, by the tests of R150. -/
def rleInstr (c : Byte) : Instr :=
  if c = 0x00 then .endItem else if c &&& 0x80 ≠ 0 then .lit (c.setWidth 7) else .run (c.setWidth 7)

theorem firstRow_rle : ∀ c : Byte, firstRow rleRows c = some (rleInstr c) := by decide +kernel

theorem low_seven_bits (c : Byte) : (c.setWidth 7).toNat = (c &&& 0x7F).toNat := by
  have mask : c.toNat &&& 127 = c.toNat % 128 := Nat.and_two_pow_sub_one_eq_mod _ 7
  simp [mask]

theorem run_count : ∀ c : Byte, c &&& 0x80 = 0 → (c.setWidth 7).toNat = c.toNat := by decide +kernel

/-- The item of a control byte as an instruction is one pass of the loop. -/
theorem exec_rleInstr {s : State} {c : Byte} (h : s.rom.read s.rle.pos = some c) :
    exec (rleInstr c) s = .next { s with rle := rleItem s.rom s.rle } := by
  unfold rleItem rleInstr
  rw [h]
  by_cases hend : c = 0x00
  · simp only [if_pos hend]
    rfl
  · by_cases hlit : c &&& 0x80 ≠ 0
    · simp only [if_neg hend, if_pos hlit, ← low_seven_bits]
      rfl
    · simp only [if_neg hend, if_neg hlit, ← run_count c (not_not.1 hlit)]
      rfl

/-- One step at the stream decoder is one pass of the loop. -/
theorem step_rleItem {s : State} (hs : s.site = .stream) (he : s.rle.ended = false) :
    step s = .next { s with rle := rleItem s.rom s.rle } := by
  cases hr : s.rom.read s.rle.pos with
  | none =>
    rw [step_stream_exhausted hs he (buffer_read_eq_none.1 hr)]
    unfold rleItem
    rw [hr]
    rfl
  | some c =>
    have hd : decode .rle [c] = .ok (rleInstr c) [] := decode_of_firstRow [] (firstRow_rle c)
    rw [step_stream hs he hr hd, exec_rleInstr hr]

theorem rleLoop_of_ended (rom : Buffer) (fuel : Nat) {r : RleCursor} (h : r.ended = true) :
    rleLoop rom fuel r = r := by
  cases fuel with
  | zero => rfl
  | succ fuel => exact if_pos h

theorem rleLoop_of_running (rom : Buffer) (fuel : Nat) {r : RleCursor} (h : r.ended = false) :
    rleLoop rom (fuel + 1) r = rleLoop rom fuel (rleItem rom r) := by
  conv => lhs; unfold rleLoop
  rw [h]
  rfl

theorem run_rleLoop (fuel : Nat) (s : State) (r : RleCursor) :
    ∃ n, Sys2Proof.core.run n { s with site := .stream, rle := r } =
      .next { s with site := .stream, rle := rleLoop s.rom fuel r } := by
  induction fuel generalizing r with
  | zero => exact ⟨0, rfl⟩
  | succ fuel ih =>
    cases he : r.ended with
    | true =>
      rw [rleLoop_of_ended _ _ he]
      exact ⟨0, rfl⟩
    | false =>
      obtain ⟨n, hn⟩ := ih (rleItem s.rom r)
      have hstep := step_rleItem (s := { s with site := .stream, rle := r }) rfl he
      rw [rleLoop_of_running _ _ he]
      exact ⟨n + 1, (run_succ hstep n).trans hn⟩

/-- An item never moves the cursor back nor beyond the ROM's end, and ends the stream or moves on. -/
theorem rleItem_progress (rom : Buffer) (r : RleCursor) :
    r.pos ≤ (rleItem rom r).pos ∧ (r.pos ≤ rom.len → (rleItem rom r).pos ≤ rom.len) ∧
      ((rleItem rom r).ended = true ∨ r.pos < (rleItem rom r).pos ∧ (rleItem rom r).pos ≤ rom.len) := by
  unfold rleItem
  cases hr : rom.read r.pos with
  | none => exact ⟨Nat.le_refl _, id, .inl rfl⟩
  | some c =>
    have hpos := (buffer_read_eq_some.1 hr).1
    simp only
    split
    · exact ⟨Nat.le_succ _, fun _ => hpos, .inl rfl⟩
    · split
      · have hb := rlePairs_bounds rom (c &&& 0x7F).toNat { r with pos := r.pos + 1 } hpos
        simp only at hb
        simp only [rleLit]
        exact ⟨by omega, fun _ => hb.2, .inr ⟨by omega, hb.2⟩⟩
      · rcases rleRun_cases rom c.toNat r with ⟨hlt, hrun⟩ | ⟨hle, hrun⟩
        · rw [hrun]
          exact ⟨by simp only; omega, fun _ => hlt, .inr ⟨by simp only; omega, hlt⟩⟩
        · rw [hrun]
          exact ⟨Nat.le_succ _, fun _ => hpos, .inl rfl⟩

theorem rleLoop_bounds (rom : Buffer) (fuel : Nat) (r : RleCursor) :
    r.pos ≤ (rleLoop rom fuel r).pos ∧ (r.pos ≤ rom.len → (rleLoop rom fuel r).pos ≤ rom.len) := by
  induction fuel generalizing r with
  | zero => exact ⟨Nat.le_refl _, id⟩
  | succ fuel ih =>
    cases he : r.ended with
    | true =>
      rw [rleLoop_of_ended _ _ he]
      exact ⟨Nat.le_refl _, id⟩
    | false =>
      obtain ⟨hge, hle, -⟩ := rleItem_progress rom r
      obtain ⟨ihge, ihle⟩ := ih (rleItem rom r)
      rw [rleLoop_of_running _ _ he]
      exact ⟨Nat.le_trans hge ihge, fun h => ihle (hle h)⟩

/-- One pass for each byte from the cursor to the ROM's end, and one more, end the stream. -/
theorem rleLoop_ended (rom : Buffer) (fuel : Nat) (r : RleCursor) (hpos : 0 < fuel)
    (hfuel : rom.len < r.pos + fuel) : (rleLoop rom fuel r).ended = true := by
  induction fuel generalizing r with
  | zero => omega
  | succ fuel ih =>
    cases he : r.ended with
    | true => rw [rleLoop_of_ended _ _ he, he]
    | false =>
      rw [rleLoop_of_running _ _ he]
      rcases (rleItem_progress rom r).2.2 with hended | ⟨hlt, hle⟩
      · rw [rleLoop_of_ended _ _ hended, hended]
      · exact ih _ (by omega) (by omega)

theorem rld_ended (rom : Buffer) (a : Nat) : (rld rom a).ended = true :=
  rleLoop_ended rom _ _ (Nat.succ_pos _) (by omega)

theorem rld_of_exhausted {rom : Buffer} {a : Nat} (h : rom.len ≤ a) :
    rld rom a = { pos := a, pairs := [], outcome := .ok, ended := true } := by
  have item : rleItem rom (RleCursor.start a) = { pos := a, pairs := [], outcome := .ok, ended := true } := by
    unfold rleItem
    rw [show rom.read (RleCursor.start a).pos = none from buffer_read_eq_none.2 h]
    rfl
  unfold rld
  rw [rleLoop_of_running _ _ rfl, item]
  exact rleLoop_of_ended _ _ rfl

/-- Settles O27: the steps are the passes of the operation's loop, which ends. -/
theorem rldIsItsItemsStepped : Obligations.RldIsItsItemsStepped := by
  intro s
  obtain ⟨n, hn⟩ := run_rleLoop (s.rom.len + 1) s (RleCursor.start s.cur)
  refine ⟨n, { s with site := .stream, rle := rld s.rom s.cur }, hn, rfl, rld_ended _ _, ?_⟩
  rw [← raiseIfPartial_eq]
  rfl

/-- Settles O28: where the stream's cursor can end, and with which outcome. -/
theorem rldRegisters : Obligations.RldRegisters := by
  intro s
  obtain ⟨hge, hle⟩ := rleLoop_bounds s.rom (s.rom.len + 1) (RleCursor.start s.cur)
  refine ⟨_, rfl, rfl, (Nat.add_sub_cancel' hge).symm, rfl, hle, fun hend => ?exhausted, ?outcome⟩
  case exhausted =>
    rw [rld_of_exhausted hend]
    exact ⟨rfl, rfl, rfl⟩
  case outcome =>
    simp only [State.decompressed_status, State.decompressed_anom]
    rcases rld_outcome s.rom s.cur with ho | ho
    · exact .inl ⟨ho, by rw [ho]; rfl⟩
    · exact .inr ⟨ho, by rw [ho]; rfl⟩

/-! ## Building-list records -/

theorem listSkip_whole {rom : Buffer} {r : ListCursor} (h : r.pos + 2 ≤ rom.len) :
    listSkip rom r = { r with pos := r.pos + 2 } := if_neg (Nat.not_lt.2 h)

theorem listSkip_cut {rom : Buffer} {r : ListCursor} (h : rom.len < r.pos + 2) :
    listSkip rom r = listCut r := if_pos h

theorem listRecord_whole {rom : Buffer} {r : ListCursor} (id : Byte) (h : r.pos + 3 ≤ rom.len) :
    listRecord rom id r =
      { r with
        pos := r.pos + 3
        list := r.list ++ [{ id := id, x := rom.at (r.pos + 1), pal := rom.at (r.pos + 2) }] } :=
  if_neg (Nat.not_lt.2 h)

theorem listRecord_cut {rom : Buffer} {r : ListCursor} (id : Byte) (h : rom.len < r.pos + 3) :
    listRecord rom id r = listCut r := if_pos h

theorem exec_bskipLow (m : BitVec 1) {s : State} {r : ListCursor} (h : listSkip s.rom s.blr = r) :
    exec (.bskipLow m) s = .next { s with blr := r } := by
  subst h
  rfl

theorem exec_bskipHigh (m : BitVec 1) {s : State} {r : ListCursor} (h : listSkip s.rom s.blr = r) :
    exec (.bskipHigh m) s = .next { s with blr := r } := by
  subst h
  rfl

theorem exec_brec {id : Byte} {s : State} {r : ListCursor} (h : listRecord s.rom id s.blr = r) :
    exec (.brec id) s = .next { s with blr := r } := by
  subst h
  rfl

/-- Settles O34: a record fits below the ROM's end or cuts the list. -/
theorem listRecordItems : Obligations.ListRecordItems :=
  ⟨fun _ => rfl,
    fun _ m h => ⟨exec_bskipLow m (listSkip_whole h), exec_bskipHigh m (listSkip_whole h)⟩,
    fun _ id h => exec_brec (listRecord_whole id h),
    fun _ m h => ⟨exec_bskipLow m (listSkip_cut h), exec_bskipHigh m (listSkip_cut h)⟩,
    fun _ id h => exec_brec (listRecord_cut id h)⟩

/-! ## The loop of `READLIST` -/

/-- The instruction of a record's first byte, by the tests of R192. -/
def blrInstr (b : Byte) : Instr :=
  if b = 0xFF then .bend
  else if b = 0xFA ∨ b = 0xFB then .bskipLow (b.setWidth 1)
  else if b = 0xFC ∨ b = 0xFD then .bskipHigh (b.setWidth 1)
  else .brec b

theorem firstRow_blr : ∀ b : Byte, firstRow blrRows b = some (blrInstr b) := by decide +kernel

/-- The record of a first byte as an instruction is one pass of the loop. -/
theorem exec_blrInstr {s : State} {b : Byte} (h : s.rom.read s.blr.pos = some b) :
    exec (blrInstr b) s = .next { s with blr := listItem s.rom s.blr } := by
  unfold listItem blrInstr
  rw [h]
  by_cases hend : b = 0xFF
  · simp only [if_pos hend]
    rfl
  · by_cases hlow : b = 0xFA ∨ b = 0xFB
    · have hskip : b = 0xFA ∨ b = 0xFB ∨ b = 0xFC ∨ b = 0xFD := hlow.imp_right .inl
      simp only [if_neg hend, if_pos hlow, if_pos hskip]
      rfl
    · by_cases hhigh : b = 0xFC ∨ b = 0xFD
      · have hskip : b = 0xFA ∨ b = 0xFB ∨ b = 0xFC ∨ b = 0xFD := .inr (.inr hhigh)
        simp only [if_neg hend, if_neg hlow, if_pos hhigh, if_pos hskip]
        rfl
      · have hrec : ¬ (b = 0xFA ∨ b = 0xFB ∨ b = 0xFC ∨ b = 0xFD) := by
          rw [← or_assoc]
          exact not_or.2 ⟨hlow, hhigh⟩
        simp only [if_neg hend, if_neg hlow, if_neg hhigh, if_neg hrec]
        rfl

/-- One step at the list decoder is one pass of the loop. -/
theorem step_listItem {s : State} (hs : s.site = .list) (he : s.blr.ended = false) :
    step s = .next { s with blr := listItem s.rom s.blr } := by
  cases hr : s.rom.read s.blr.pos with
  | none =>
    rw [step_list_exhausted hs he (buffer_read_eq_none.1 hr)]
    unfold listItem
    rw [hr]
    rfl
  | some b =>
    have hd : decode .blr [b] = .ok (blrInstr b) [] := decode_of_firstRow [] (firstRow_blr b)
    rw [step_list hs he hr hd, exec_blrInstr hr]

theorem listLoop_of_ended (rom : Buffer) (fuel : Nat) {r : ListCursor} (h : r.ended = true) :
    listLoop rom fuel r = r := by
  cases fuel with
  | zero => rfl
  | succ fuel => exact if_pos h

theorem listLoop_of_running (rom : Buffer) (fuel : Nat) {r : ListCursor} (h : r.ended = false) :
    listLoop rom (fuel + 1) r = listLoop rom fuel (listItem rom r) := by
  conv => lhs; unfold listLoop
  rw [h]
  rfl

theorem run_listLoop (fuel : Nat) (s : State) (r : ListCursor) :
    ∃ n, Sys2Proof.core.run n { s with site := .list, blr := r } =
      .next { s with site := .list, blr := listLoop s.rom fuel r } := by
  induction fuel generalizing r with
  | zero => exact ⟨0, rfl⟩
  | succ fuel ih =>
    cases he : r.ended with
    | true =>
      rw [listLoop_of_ended _ _ he]
      exact ⟨0, rfl⟩
    | false =>
      obtain ⟨n, hn⟩ := ih (listItem s.rom r)
      have hstep := step_listItem (s := { s with site := .list, blr := r }) rfl he
      rw [listLoop_of_running _ _ he]
      exact ⟨n + 1, (run_succ hstep n).trans hn⟩

/-- A record ends the list or moves on, not beyond the ROM's end. -/
theorem listItem_progress (rom : Buffer) (r : ListCursor) :
    (listItem rom r).ended = true ∨
      r.pos < (listItem rom r).pos ∧ (listItem rom r).pos ≤ rom.len := by
  unfold listItem
  cases rom.read r.pos with
  | none => exact .inl rfl
  | some b =>
    simp only
    split
    · exact .inl rfl
    · split
      · by_cases h : r.pos + 2 ≤ rom.len
        · rw [listSkip_whole h]
          exact .inr ⟨by simp only; omega, h⟩
        · rw [listSkip_cut (Nat.lt_of_not_le h)]
          exact .inl rfl
      · by_cases h : r.pos + 3 ≤ rom.len
        · rw [listRecord_whole b h]
          exact .inr ⟨by simp only; omega, h⟩
        · rw [listRecord_cut b (Nat.lt_of_not_le h)]
          exact .inl rfl

theorem listLoop_ended (rom : Buffer) (fuel : Nat) (r : ListCursor) (hpos : 0 < fuel)
    (hfuel : rom.len < r.pos + fuel) : (listLoop rom fuel r).ended = true := by
  induction fuel generalizing r with
  | zero => omega
  | succ fuel ih =>
    cases he : r.ended with
    | true => rw [listLoop_of_ended _ _ he, he]
    | false =>
      rw [listLoop_of_running _ _ he]
      rcases listItem_progress rom r with hended | ⟨hlt, hle⟩
      · rw [listLoop_of_ended _ _ hended, hended]
      · exact ih _ (by omega) (by omega)

theorem readList_ended (rom : Buffer) (p : Nat) : (readList rom p).ended = true :=
  listLoop_ended rom _ _ (Nat.succ_pos _) (by omega)

/-- Settles O35: the steps are the passes of the function's loop, which ends. -/
theorem readListIsItsRecordsStepped : Obligations.ReadListIsItsRecordsStepped := by
  intro s p
  obtain ⟨n, hn⟩ := run_listLoop (s.rom.len + 1) s (ListCursor.start p)
  exact ⟨n, _, hn, rfl, readList_ended s.rom p⟩

end Sys2Proof.Machine
end

section
/-! SUPPORT. What the resolving operations and the level reader answer, in plain arithmetic
(43_pointer_tables.md R170 to R176; 44_level_descriptor.md R190 to R197). -/

namespace Sys2Proof.Machine

/-! ## Table lookups -/

/-- A word is its low byte and 256 times its high byte (20_memory.md R60). -/
theorem append_toNat (lo hi : Byte) : (hi ++ lo).toNat = lo.toNat + 256 * hi.toNat := by
  rw [BitVec.toNat_append, ← Nat.shiftLeft_add_eq_or_of_lt lo.isLt, Nat.shiftLeft_eq]
  omega

/-- What a resolving operation answers: the tests of R171 in their order, then the offset. -/
theorem resolved_resolve (s : State) {b stride a : Nat} {sel : Int} {valid : Bool} {refused : Prop}
    [Decidable refused] (hv : valid = false ↔ refused) (ha : b + sel.toNat * stride = a) :
    s.resolved (resolve s.rom b stride sel valid) =
      if refused then { s with anom := s.anom ||| 0b0010, status := .skipped }
      else if s.rom.len ≤ a + 1 then { s with anom := s.anom ||| 0b0001, status := .skipped }
      else if s.rom.len ≤ (s.rom.at a).toNat + 256 * (s.rom.at (a + 1)).toNat then
        { s with anom := s.anom ||| 0b0010, status := .skipped }
      else
        { s with
          off := BitVec.ofNat 16 ((s.rom.at a).toNat + 256 * (s.rom.at (a + 1)).toNat)
          status := .ok } := by
  have cases := resolve_cases s.rom b stride sel valid
  rw [ha, append_toNat] at cases
  rcases cases with ⟨hbad, h⟩ | ⟨hok, hcut, h⟩ | ⟨hok, hin, hout, h⟩ | ⟨hok, hin, hin', h⟩
  · rw [if_pos (hv.1 hbad), h]
    rfl
  all_goals
    have hsel : ¬ refused := fun hr => Bool.false_ne_true ((hv.2 hr).symm.trans hok)
    rw [if_neg hsel, h]
  · rw [if_pos hcut]
    rfl
  · rw [if_neg (Nat.not_le.2 hin), if_pos hout]
    rfl
  · rw [if_neg (Nat.not_le.2 hin), if_neg (Nat.not_le.2 hin')]
    rfl

/-- Settles O29: the entry's address is computed, nothing is read. -/
theorem rsvlvlResult : Obligations.RsvlvlResult := by
  refine fun s => ⟨fun h => ?found, fun h => ?rejected⟩
  case found =>
    rw [Nat.mul_comm 10]
    exact congrArg Host.Outcome.next (if_neg (Nat.not_le.2 h))
  case rejected => exact congrArg Host.Outcome.next (if_pos h)

/-- Settles O30: stride 2 and sixteen selectors. -/
theorem rsvbgResult : Obligations.RsvbgResult := by
  intro s a e
  refine congrArg Host.Outcome.next (resolved_resolve s ?_ ?_)
  · exact decide_eq_false_iff_not.trans Nat.not_lt
  · simp only [Config.bgBase, Config.bgStride, Int.toNat_natCast, a]
    omega

/-- Settles O31: stride 1 and selectors 0 to 10. -/
theorem rsvterResult : Obligations.RsvterResult := by
  intro s a e
  refine congrArg Host.Outcome.next (resolved_resolve s ?_ ?_)
  · exact decide_eq_false_iff_not.trans Nat.not_le
  · simp only [Config.terBase, Config.terStride, Int.toNat_natCast, a]
    omega

/-- Settles O32: stride 2 and the even selectors to 8. -/
theorem rsvfolResult : Obligations.RsvfolResult := by
  intro s a e
  refine congrArg Host.Outcome.next (resolved_resolve s ?_ ?_)
  · simp [Config.folValid]
    omega
  · simp only [Config.folBase, Config.folStride, Int.toNat_natCast, a]
    omega

/-- Settles O33: the selector is one less than the building id, and below 0 for id 0. -/
theorem rsvbldResult : Obligations.RsvbldResult := by
  intro s a e
  refine congrArg Host.Outcome.next (resolved_resolve s ?_ ?_)
  · simp only [decide_eq_false_iff_not]
    omega
  · simp only [Config.bldBase, Config.bldStride, a]
    omega

/-! ## Reading a level -/

theorem exec_ldlvl_rejected {s : State} (h : totalLevels s.rom ≤ s.lvl.toNat) :
    exec .ldlvl s = .next (s.reject .badLevel) := congrArg Host.Outcome.next (if_pos h)

theorem exec_ldlvl_accepted {s : State} (h : s.lvl.toNat < totalLevels s.rom) :
    exec .ldlvl s = .next
      { s.loadLevel levelEntryDecode s.lvl.toNat with
        status := levelOutcome s.rom levelEntryDecode s.lvl.toNat } :=
  congrArg Host.Outcome.next (if_neg (Nat.not_le.2 h))

theorem exec_compose_rejected {s : State} (h : totalLevels s.rom ≤ s.lvl.toNat) :
    exec .compose s = .next (s.reject .badLevel) := congrArg Host.Outcome.next (if_pos h)

theorem nTiles_eq_zero_iff {tile : Buffer} : nTiles tile = 0 ↔ tile.len < 32 := by
  unfold nTiles
  omega

theorem exec_compose_empty {s : State} (h : s.lvl.toNat < totalLevels s.rom) (ht : s.tile.len < 32) :
    exec .compose s = .next (s.reject .emptyBank) :=
  congrArg Host.Outcome.next ((if_neg (Nat.not_le.2 h)).trans (if_pos (nTiles_eq_zero_iff.2 ht)))

theorem exec_compose_accepted {s : State} (h : s.lvl.toNat < totalLevels s.rom)
    (ht : 32 ≤ s.tile.len) :
    exec .compose s =
      .next (State.loadLevel { s with anom := 0 } levelEntryDecode s.lvl.toNat).runAll :=
  congrArg Host.Outcome.next ((if_neg (Nat.not_le.2 h)).trans
    (if_neg (fun h0 => Nat.not_lt.2 ht (nTiles_eq_zero_iff.1 h0))))

theorem exec_composed_empty {s : State} (ht : s.tile.len < 32) :
    exec .composed s = .next (s.reject .emptyBank) :=
  congrArg Host.Outcome.next (if_pos (nTiles_eq_zero_iff.2 ht))

theorem exec_composed_accepted {s : State} (ht : 32 ≤ s.tile.len) :
    exec .composed s = .next (State.runAll { s with anom := 0 }) :=
  congrArg Host.Outcome.next (if_neg (fun h0 => Nat.not_lt.2 ht (nTiles_eq_zero_iff.1 h0)))

/-- Settles O36: the entry's fields and the list its pointer names. -/
theorem ldlvlResult : Obligations.LdlvlResult := by
  refine ⟨fun s h => exec_ldlvl_rejected h, fun s h => ?_⟩
  intro d r
  rw [← raiseIfPartial_eq]
  exact exec_ldlvl_accepted h

theorem cellsGet_cons_of_ne {c : Host.Cell} {cs : List Host.Cell} {a : Nat} (h : c.1 ≠ a) :
    cellsGet (c :: cs) a = cellsGet cs a := if_neg h

/-- The triples of a list's cells are the list's own, whatever era names the free bytes. -/
theorem blistAt_blistCells (ps : List Placement) (i k d : Nat) (hk : k < ps.length) :
    blistAt (blistCells i ps) d (i + k) = ps[k] := by
  induction ps generalizing i k with
  | nil => exact absurd hk (Nat.not_lt_zero k)
  | cons p ps ih =>
    cases k with
    | zero => simp [blistAt, blistByte, blistCells, cellsGet]
    | succ k =>
      have beyond : ∀ a, 3 * i + 3 ≤ a →
          blistByte (blistCells i (p :: ps)) d a = blistByte (blistCells (i + 1) ps) d a := by
        intro a ha
        unfold blistByte
        rw [blistCells, cellsGet_cons_of_ne (by simp only; omega),
          cellsGet_cons_of_ne (by simp only; omega), cellsGet_cons_of_ne (by simp only; omega)]
      have hrest := ih (i + 1) k (Nat.lt_of_succ_lt_succ hk)
      rw [show i + 1 + k = i + (k + 1) by omega] at hrest
      unfold blistAt at hrest ⊢
      rw [beyond _ (by omega), beyond _ (by omega), beyond _ (by omega)]
      exact hrest

theorem placements_blistCells (ps : List Placement) (d : Nat) :
    (List.range ps.length).map (fun i => blistAt (blistCells 0 ps) d i) = ps := by
  refine List.ext_getElem (by simp) fun k h1 h2 => ?_
  have := blistAt_blistCells ps 0 k d h2
  simpa using this

/-- Settles O37. -/
theorem ldlvlPlacementsAreTheList : Obligations.LdlvlPlacementsAreTheList :=
  fun _ d h => ⟨_, exec_ldlvl_accepted h, rfl, placements_blistCells _ d⟩

theorem levelEntry_getD (rom : Buffer) (n : Nat) {i : Nat} (hi : i < 10) :
    (levelEntry rom n).getD i 0 = rom.at (0x8DAE + 10 * n + i) := by
  simp [levelEntry, Config.levelStride, Config.levelBase, hi]

/-- Settles O38: the two indices are the layout's own. -/
theorem backgroundSelectorIsAHighNibble : Obligations.BackgroundSelectorIsAHighNibble := by
  refine ⟨Config.levelBgIndex.val, Config.levelPtrIndex.val, Config.levelBgIndex.isLt,
    Nat.succ_lt_succ Config.levelPtrIndex.isLt, fun s h => ⟨_, exec_ldlvl_accepted h, ?bg, ?ptr⟩⟩
  case bg =>
    have nibble := nibbleOf_toNat ((levelEntry s.rom s.lvl.toNat).getD Config.levelBgIndex.val 0) 0
    rw [levelEntry_getD _ _ Config.levelBgIndex.isLt] at nibble
    simp only [levelEntryDecode, State.loadLevel_bgsel, levelEntry_getD _ _ Config.levelBgIndex.isLt]
    exact nibble
  case ptr =>
    have hlo : Config.levelPtrIndex.val < 10 := Nat.lt_succ_of_lt Config.levelPtrIndex.isLt
    have hhi : Config.levelPtrIndex.val + 1 < 10 := Nat.succ_lt_succ Config.levelPtrIndex.isLt
    simp only [levelEntryDecode, State.loadLevel_blptr, levelEntry_getD _ _ hlo,
      levelEntry_getD _ _ hhi, pairWord, append_toNat]
    rfl

/-- Settles O39: the level index is tested before the tile bank. -/
theorem preflightRejections : Obligations.PreflightRejections :=
  ⟨fun _ h => ⟨exec_ldlvl_rejected h, exec_compose_rejected h⟩, fun _ ht h => exec_compose_empty h ht,
    fun _ ht => exec_composed_empty ht⟩

end Sys2Proof.Machine
end

section
/-! SUPPORT. What a painted tile and a painted grid show, what they leave, and which anomalies they raise
(45_compositor.md R210 to R213; 60_exceptions.md R251). -/

namespace Sys2Proof.Machine

/-! ## Clearing -/

theorem canvas_pixel_filled (col : Colour) (x y : Nat) : (Canvas.filled col).pixel x y = some col := by
  have component : ∀ k, (pixelAddr x y + k) % 3 = k % 3 := fun k => by unfold pixelAddr; omega
  have c0 : (Canvas.filled col).get (pixelAddr x y) = some col.r :=
    congrArg (fun c => some (channel col c)) (component 0)
  have c1 : (Canvas.filled col).get (pixelAddr x y + 1) = some col.g :=
    congrArg (fun c => some (channel col c)) (component 1)
  have c2 : (Canvas.filled col).get (pixelAddr x y + 2) = some col.b :=
    congrArg (fun c => some (channel col c)) (component 2)
  simp only [Canvas.pixel, c0, c1, c2]

/-- Settles O42. -/
theorem clearResult : Obligations.ClearResult :=
  fun s => ⟨_, rfl, rfl, fun x y _ _ => canvas_pixel_filled s.par.canvasInit x y⟩

/-! ## What painting in a square keeps -/

theorem paintKeeps_rise : PaintKeeps (fun f => cellsRise 0 f.canvas.cells = true) :=
  ⟨fun _ _ _ _ _ _ hf => canvas_rise_setPixel hf, fun _ _ hf => hf⟩

/-- A byte outside the visible pixels of the square stays. -/
theorem squareKeeps_get {px py : Int} {a : Nat} (h : ¬ tileCovers px py a) (v : Option Byte) :
    SquareKeeps px py (fun f => f.canvas.get a = v) where
  pixel f x y col hx hy hpx hpx' hpy hpy' hf := by
    have outside : a < pixelAddr x y ∨ pixelAddr x y + 2 < a := by
      by_contra hin
      exact h ⟨x, y, hx, hy, hpx, hpx', hpy, hpy', by omega, by omega⟩
    exact (canvas_get_setPixel_other outside).trans hf
  raise _ _ hf := hf

/-- A pixel outside the square stays. -/
theorem squareKeeps_pixel {px py : Int} {x y : Nat} (hx : x < 256)
    (h : (x : Int) < px ∨ px + 8 ≤ x ∨ (y : Int) < py ∨ py + 8 ≤ y) (v : Option Colour) :
    SquareKeeps px py (fun f => f.canvas.pixel x y = v) where
  pixel f x' y' col hx' _ hpx hpx' hpy hpy' hf := by
    have apart : x' ≠ x ∨ y' ≠ y := by omega
    exact (canvas_pixel_setPixel_other hx' hx apart).trans hf
  raise _ _ hf := hf

/-! ## One tile -/

theorem paint_of_blank {e : Env} {code : BitVec 11} {xf yf : BitVec 1} {pal px py : Int} {f : Surface}
    (h : e.tile.len / 32 ≤ code.toNat) : paint e code xf yf pal px py f = f.raise .badTile := if_pos h

section Tile

variable {e : Env} {code : BitVec 11} {xf yf : BitVec 1} {pal px py : Int} {tx ty x y : Nat}

/-- Pixel `(x, y)` of the canvas shows pixel `(tx, ty)` of the tile, and the cells are in order. -/
def Shows (e : Env) (code : BitVec 11) (xf yf : BitVec 1) (pal : Int) (tx ty x y : Nat)
    (f : Surface) : Prop :=
  cellsRise 0 f.canvas.cells = true ∧
    f.canvas.pixel x y = some (shownColour e (shownOffset e code.toNat xf yf pal tx ty))

theorem paintPixel_shows (hc : code.toNat < e.tile.len / 32) (htx : tx < 8) (hty : ty < 8)
    (hx : x < 256) (hy : y < 240) (hpx : (x : Int) = px + tx) (hpy : (y : Int) = py + ty) {f : Surface}
    (hf : cellsRise 0 f.canvas.cells = true) :
    Shows e code xf yf pal tx ty x y (paintPixel e code xf yf pal px py tx ty f) := by
  have visible : 0 ≤ px + tx ∧ px + tx < 256 ∧ 0 ≤ py + ty ∧ py + ty < 240 := by omega
  rw [paintPixel_eq hc htx hty, if_pos visible, ← hpx, ← hpy]
  exact ⟨canvas_rise_setPixel hf, canvas_pixel_setPixel_self hf⟩

/-- Another pixel of the same tile is painted elsewhere. -/
theorem paintPixel_keeps_shows (hc : code.toNat < e.tile.len / 32) (htx : tx < 8) (hty : ty < 8)
    (hx : x < 256) (hy : y < 240) (hpx : (x : Int) = px + tx) (hpy : (y : Int) = py + ty) {f : Surface}
    {t : Nat × Nat} (ht : t.1 < 8 ∧ t.2 < 8) (hf : Shows e code xf yf pal tx ty x y f) :
    Shows e code xf yf pal tx ty x y (paintPixel e code xf yf pal px py t.1 t.2 f) := by
  by_cases same : t = (tx, ty)
  · rw [same]
    exact paintPixel_shows hc htx hty hx hy hpx hpy hf.1
  · rw [paintPixel_eq hc ht.1 ht.2]
    split
    · have apart : (px + t.1).toNat ≠ x ∨ (py + t.2).toNat ≠ y := by
        have : t.1 ≠ tx ∨ t.2 ≠ ty := by
          by_contra hboth
          exact same (Prod.ext (by omega) (by omega))
        omega
      have inside : (px + t.1).toNat < Config.canvasW := by
        simp only [Config.canvasW]
        omega
      exact ⟨canvas_rise_setPixel hf.1, (canvas_pixel_setPixel_other inside hx apart).trans hf.2⟩
    · exact hf

theorem foldl_paintPixel_shows (hc : code.toNat < e.tile.len / 32) (hx : x < 256) (hy : y < 240)
    (hpx : (x : Int) = px + tx) (hpy : (y : Int) = py + ty) (l : List (Nat × Nat))
    (hl : ∀ t ∈ l, t.1 < 8 ∧ t.2 < 8) (hmem : (tx, ty) ∈ l) {f : Surface}
    (hf : cellsRise 0 f.canvas.cells = true) :
    Shows e code xf yf pal tx ty x y
      (l.foldl (fun g t => paintPixel e code xf yf pal px py t.1 t.2 g) f) := by
  obtain ⟨htx, hty⟩ := hl _ hmem
  induction l generalizing f with
  | nil => cases hmem
  | cons t l ih =>
    have hl' : ∀ u ∈ l, u.1 < 8 ∧ u.2 < 8 := fun u hu => hl u (List.mem_cons_of_mem _ hu)
    by_cases hhead : t = (tx, ty)
    · subst hhead
      exact foldl_keeps l (fun g u hu hg => paintPixel_keeps_shows hc htx hty hx hy hpx hpy (hl' u hu) hg)
        _ (paintPixel_shows hc htx hty hx hy hpx hpy hf)
    · have htail : (tx, ty) ∈ l := (List.mem_cons.1 hmem).resolve_left (Ne.symm hhead)
      have ht := hl t (List.mem_cons_self ..)
      exact ih hl' htail (paintPixel_keeps (paintKeeps_rise.square _ _) ht.1 ht.2 hf)

/-- Every visible pixel of a tile that the bank holds takes its colour. -/
theorem paint_shows (hc : code.toNat < e.tile.len / 32) (htx : tx < 8) (hty : ty < 8)
    (hx : x < 256) (hy : y < 240) (hpx : (x : Int) = px + tx) (hpy : (y : Int) = py + ty) {f : Surface}
    (hf : cellsRise 0 f.canvas.cells = true) :
    (paint e code xf yf pal px py f).canvas.pixel x y =
      some (shownColour e (shownOffset e code.toNat xf yf pal tx ty)) := by
  have hpaint : paint e code xf yf pal px py f =
      tilePixels.foldl (fun g t => paintPixel e code xf yf pal px py t.1 t.2 g) f :=
    if_neg (Nat.not_le.2 hc)
  rw [hpaint]
  exact (foldl_paintPixel_shows hc hx hy hpx hpy tilePixels (fun _ => mem_tilePixels.1)
    (mem_tilePixels.2 ⟨htx, hty⟩) hf).2

theorem paint_get {a : Nat} (h : code.toNat < e.tile.len / 32 → ¬ tileCovers px py a) (f : Surface) :
    (paint e code xf yf pal px py f).canvas.get a = f.canvas.get a := by
  by_cases hc : code.toNat < e.tile.len / 32
  · exact paint_keeps (P := fun g => g.canvas.get a = f.canvas.get a) (squareKeeps_get (h hc) _) rfl
  · rw [paint_of_blank (Nat.le_of_not_lt hc)]
    rfl

end Tile

/-! ## Anomaly bits as equations -/

theorem anom_ext {a b : BitVec 4} (h0 : b.getLsbD 0 = a.getLsbD 0) (h1 : b.getLsbD 1 = a.getLsbD 1)
    (h2 : b.getLsbD 2 = true ↔ a.getLsbD 2 = true) (h3 : b.getLsbD 3 = true ↔ a.getLsbD 3 = true) :
    b = a := by
  revert a b
  decide

theorem AnomAdds.eq_self {T P : Prop} {a b : BitVec 4} (h : AnomAdds T P a b) (hT : ¬ T) (hP : ¬ P) :
    b = a :=
  anom_ext h.trunc h.badSel (h.badTile.trans (or_iff_left hT)) (h.badPal.trans (or_iff_left hP))

theorem AnomAdds.eq_badPal {T P : Prop} {a b : BitVec 4} (h : AnomAdds T P a b) (hT : ¬ T) (hP : P) :
    b = a ||| 0b1000 :=
  have r := raise_badPal_adds a
  anom_ext (h.trunc.trans r.trunc.symm) (h.badSel.trans r.badSel.symm)
    ((h.badTile.trans (or_congr_right (iff_false_intro hT))).trans r.badTile.symm)
    ((h.badPal.trans (or_congr_right (iff_true_intro hP))).trans r.badPal.symm)

/-- Settles O40: a tile that the bank holds is painted pixel by pixel, another one only flagged. -/
theorem paint8Result : Obligations.Paint8Result := by
  refine ⟨fun s hwf hcode => ?held, fun s hblank => ?blank⟩
  case held =>
    have hadds := paint_adds (e := s.env) (code := s.code) (xf := s.xf) (yf := s.yf)
      (pal := s.pali.toInt) (px := s.px.toInt) (py := s.py.toInt) (f := s.surface)
    refine ⟨_, rfl, rfl, ?shown, ?frame, ?clean, ?badPal⟩
    case shown =>
      exact fun tx ty x y htx hty hx hy hpx hpy =>
        paint_shows (e := s.env) hcode htx hty hx hy hpx hpy (canvas_wf_iff.1 hwf).1
    case frame => exact fun a ha => paint_get (e := s.env) (fun _ => ha) s.surface
    case clean =>
      intro hall
      refine hadds.eq_self (Nat.not_le.2 hcode) ?_
      rintro ⟨-, tx, ty, htx, hty, hvisible, hlacks⟩
      exact hlacks (hall tx ty (s.px.toInt + tx).toNat (s.py.toInt + ty).toNat htx hty (by omega)
        (by omega) (by omega) (by omega))
    case badPal =>
      intro tx ty x y htx hty hx hy hpx hpy hlacks
      exact hadds.eq_badPal (Nat.not_le.2 hcode) ⟨hcode, tx, ty, htx, hty, by omega, hlacks⟩
  case blank =>
    change Host.Outcome.next { s.withSurface (paint s.env s.code s.xf s.yf s.pali.toInt s.px.toInt
      s.py.toInt s.surface) with status := .ok } = _
    rw [paint_of_blank (e := s.env) hblank]
    rfl

/-! ## A grid of words -/

section Grid

variable {e : Env} {row0 : Nat}

theorem paintCell_of_row {k : Nat} (h : row0 + k / 32 < 30) (w : Half) (f : Surface) :
    paintCell e row0 k w f = paint e (awd w).code (awd w).xf (awd w).yf ((awd w).pal.toNat : Int)
      ((k % 32 * 8 : Nat) : Int) (((row0 + k / 32) * 8 : Nat) : Int) f := if_pos h

theorem paintCell_below {k : Nat} (h : ¬ row0 + k / 32 < 30) (w : Half) (f : Surface) :
    paintCell e row0 k w f = f := if_neg h

theorem paintGrid_eq_foldl (ws : List Half) (k : Nat) (f : Surface) :
    paintGrid e row0 k ws f =
      (List.range ws.length).foldl (fun g j => paintCell e row0 (k + j) (ws.getD j 0) g) f := by
  induction ws generalizing k f with
  | nil => rfl
  | cons w ws ih =>
    have shift : ∀ j, k + 1 + j = k + (j + 1) := fun j => by omega
    simp only [paintGrid, ih, List.length_cons, List.range_succ_eq_map, List.foldl_cons, List.foldl_map,
      shift]
    rfl

/-- A grid painted from word `k` on leaves the pixels of the cells before it. -/
theorem paintGrid_pixel_before {k : Nat} {ws : List Half} {j tx ty : Nat} (hj : j < k)
    (htx : tx < 8) (hty : ty < 8) (f : Surface) :
    (paintGrid e row0 k ws f).canvas.pixel (j % 32 * 8 + tx) ((row0 + j / 32) * 8 + ty) =
      f.canvas.pixel (j % 32 * 8 + tx) ((row0 + j / 32) * 8 + ty) := by
  refine paintGrid_keeps (P := fun g => g.canvas.pixel _ _ = f.canvas.pixel _ _) ws k
    (fun i hi _ _ => squareKeeps_pixel (by omega) ?_ _) f rfl
  have apart : i % 32 ≠ j % 32 ∨ i / 32 ≠ j / 32 := by omega
  omega

/-- Word `j` of the grid shows its tile in its cell. -/
theorem paintGrid_shows (ws : List Half) (k j : Nat) {w : Half} {tx ty : Nat} {f : Surface}
    (hw : ws[j]? = some w) (hrow : row0 + (k + j) / 32 < 30) (htx : tx < 8) (hty : ty < 8)
    (hc : (awd w).code.toNat < e.tile.len / 32) (hf : cellsRise 0 f.canvas.cells = true) :
    (paintGrid e row0 k ws f).canvas.pixel ((k + j) % 32 * 8 + tx) ((row0 + (k + j) / 32) * 8 + ty) =
      some (shownColour e
        (shownOffset e (awd w).code.toNat (awd w).xf (awd w).yf (awd w).pal.toNat tx ty)) := by
  induction ws generalizing k j f with
  | nil => cases hw
  | cons v ws ih =>
    cases j with
    | zero =>
      obtain rfl : v = w := Option.some.inj hw
      rw [Nat.add_zero] at hrow ⊢
      rw [paintGrid, paintGrid_pixel_before (Nat.lt_add_one k) htx hty, paintCell_of_row hrow]
      exact paint_shows hc htx hty (by omega) (by omega) (by omega) (by omega) hf
    | succ j =>
      have hrise : cellsRise 0 (paintCell e row0 k v f).canvas.cells = true :=
        paintCell_keeps (fun _ => paintKeeps_rise.square _ _) hf
      rw [show k + (j + 1) = k + 1 + j by omega] at hrow ⊢
      exact ih (k + 1) j hw hrow hrise

theorem paintCell_get {k a : Nat} {w : Half}
    (h : row0 + k / 32 < 30 → (awd w).code.toNat < e.tile.len / 32 →
      ¬ tileCovers (k % 32 * 8 : Nat) ((row0 + k / 32) * 8 : Nat) a) (f : Surface) :
    (paintCell e row0 k w f).canvas.get a = f.canvas.get a := by
  by_cases hrow : row0 + k / 32 < 30
  · rw [paintCell_of_row hrow]
    exact paint_get (h hrow) f
  · rw [paintCell_below hrow]

theorem paintGrid_get (ws : List Half) (k : Nat) {a : Nat}
    (h : ∀ (j : Nat) (w : Half), ws[j]? = some w → row0 + (k + j) / 32 < 30 →
      (awd w).code.toNat < e.tile.len / 32 →
      ¬ tileCovers ((k + j) % 32 * 8 : Nat) ((row0 + (k + j) / 32) * 8 : Nat) a) (f : Surface) :
    (paintGrid e row0 k ws f).canvas.get a = f.canvas.get a := by
  induction ws generalizing k f with
  | nil => rfl
  | cons w ws ih =>
    have tail : ∀ (j : Nat) (v : Half), ws[j]? = some v → row0 + (k + 1 + j) / 32 < 30 →
        (awd v).code.toNat < e.tile.len / 32 →
        ¬ tileCovers ((k + 1 + j) % 32 * 8 : Nat) ((row0 + (k + 1 + j) / 32) * 8 : Nat) a := by
      intro j v hv
      have := h (j + 1) v hv
      rwa [show k + (j + 1) = k + 1 + j by omega] at this
    exact (ih (k + 1) tail _).trans (paintCell_get (h 0 w rfl) f)

/-- The word at cell `k` is on the canvas and the bank lacks its tile. -/
def CellBlank (e : Env) (row0 k : Nat) (w : Half) : Prop :=
  row0 + k / 32 < 30 ∧ e.tile.len / 32 ≤ (awd w).code.toNat

/-- The word at cell `k` is on the canvas and a pixel of its tile has no palette entry. -/
def CellLacksEntry (e : Env) (row0 k : Nat) (w : Half) : Prop :=
  row0 + k / 32 < 30 ∧ (awd w).code.toNat < e.tile.len / 32 ∧ ∃ tx ty : Nat, tx < 8 ∧ ty < 8 ∧
    ¬ paletteHas e (shownOffset e (awd w).code.toNat (awd w).xf (awd w).yf (awd w).pal.toNat tx ty)

theorem paintCell_adds (k : Nat) (w : Half) (f : Surface) :
    AnomAdds (CellBlank e row0 k w) (CellLacksEntry e row0 k w) f.anom
      (paintCell e row0 k w f).anom := by
  by_cases hrow : row0 + k / 32 < 30
  · rw [paintCell_of_row hrow]
    refine paint_adds.congr (and_iff_right hrow).symm ?_
    constructor
    · rintro ⟨hc, tx, ty, htx, hty, -, hlacks⟩
      exact ⟨hrow, hc, tx, ty, htx, hty, hlacks⟩
    · rintro ⟨-, hc, tx, ty, htx, hty, hlacks⟩
      exact ⟨hc, tx, ty, htx, hty, by omega, hlacks⟩
  · rw [paintCell_below hrow]
    exact (AnomAdds.refl _).congr ⟨False.elim, fun h => hrow h.1⟩ ⟨False.elim, fun h => hrow h.1⟩

theorem exists_cons_iff {T : Nat → Half → Prop} (w : Half) (ws : List Half) :
    (∃ j v, (w :: ws)[j]? = some v ∧ T j v) ↔ T 0 w ∨ ∃ j v, ws[j]? = some v ∧ T (j + 1) v := by
  constructor
  · rintro ⟨j, v, hv, hT⟩
    cases j with
    | zero =>
      obtain rfl : w = v := Option.some.inj hv
      exact .inl hT
    | succ j => exact .inr ⟨j, v, hv, hT⟩
  · rintro (hT | ⟨j, v, hv, hT⟩)
    · exact ⟨0, w, rfl, hT⟩
    · exact ⟨j + 1, v, hv, hT⟩

theorem paintGrid_adds (ws : List Half) (k : Nat) (f : Surface) :
    AnomAdds (∃ j w, ws[j]? = some w ∧ CellBlank e row0 (k + j) w)
      (∃ j w, ws[j]? = some w ∧ CellLacksEntry e row0 (k + j) w) f.anom
      (paintGrid e row0 k ws f).anom := by
  induction ws generalizing k f with
  | nil => exact (AnomAdds.refl _).congr (by simp) (by simp)
  | cons w ws ih =>
    have shift : ∀ j, k + 1 + j = k + (j + 1) := fun j => by omega
    refine ((paintCell_adds k w f).trans (ih (k + 1) _)).congr ?_ ?_
    all_goals simp only [shift]
    · exact (exists_cons_iff (T := fun j => CellBlank e row0 (k + j)) w ws).symm
    · exact (exists_cons_iff (T := fun j => CellLacksEntry e row0 (k + j)) w ws).symm

end Grid

/-- Settles O41: the fold over the words, and from it what is shown, what stays and what is raised. -/
theorem gridShowsItsWords : Obligations.GridShowsItsWords := by
  intro e row0 ws f
  have hadds := paintGrid_adds (e := e) (row0 := row0) ws 0 f
  simp only [Nat.zero_add] at hadds
  refine ⟨?fold, ?shown, ?frame, ⟨hadds.trunc, hadds.badSel⟩, hadds.badTile, ?badPal⟩
  case fold =>
    rw [paintGrid_eq_foldl]
    simp only [Nat.zero_add]
    rfl
  case shown =>
    intro hwf k tx ty w hw hrow htx hty hc
    have := paintGrid_shows (e := e) (row0 := row0) ws 0 k hw (by rwa [Nat.zero_add]) htx hty hc
      (canvas_wf_iff.1 hwf).1
    rwa [Nat.zero_add] at this
  case frame =>
    intro a ha
    exact paintGrid_get ws 0 (by simpa only [Nat.zero_add] using ha) f
  case badPal =>
    refine hadds.badPal.trans (or_congr_right ?_)
    constructor
    · rintro ⟨k, w, hw, hrow, hc, tx, ty, htx, hty, hlacks⟩
      exact ⟨k, tx, ty, w, hw, hrow, htx, hty, hc, hlacks⟩
    · rintro ⟨k, tx, ty, w, hw, hrow, htx, hty, hc, hlacks⟩
      exact ⟨k, w, hw, hrow, hc, tx, ty, htx, hty, hlacks⟩

end Sys2Proof.Machine
end

section
/-! SUPPORT. What each layer answers, how buildings are painted, and where a layer may write
(45_compositor.md R213 to R219, R224). -/

namespace Sys2Proof.Machine

/-! ## Words from stored bytes -/

theorem pairWord_eq_ofNat (lo hi : Byte) :
    pairWord { lo := lo, hi := hi } = BitVec.ofNat 16 (lo.toNat + 256 * hi.toNat) := by
  rw [← append_toNat, BitVec.ofNat_toNat, BitVec.setWidth_eq]
  rfl

theorem tileWord_eq_ofNat (rom : Buffer) (m : Byte) (off j : Nat) :
    tileWord rom m off j = BitVec.ofNat 16
      (if m = 0xFF then
        (rom.at (off + 3 + 2 * j)).toNat + 256 * (rom.at (off + 3 + 2 * j + 1)).toNat
      else 256 * m.toNat + (rom.at (off + 3 + j)).toNat) := by
  unfold tileWord tw8Word
  split
  · exact pairWord_eq_ofNat _ _
  · rw [Nat.add_comm (256 * m.toNat)]
    exact pairWord_eq_ofNat _ _

/-! ## What a layer's operation stores -/

theorem exec_drawbg {s : State} {r : LayerRun} (h : layerBg s.env s.nbld s.bgsel s.surface = r) :
    exec .drawbg s = .next
      { s with
        canvas := r.surface.canvas
        anom := r.surface.anom
        lstat1 := r.outcome
        status := r.outcome } := by
  subst h
  rfl

theorem exec_drawsky {s : State} {r : LayerRun} (h : layerSky s.env s.surface = r) :
    exec .drawsky s = .next
      { s with
        canvas := r.surface.canvas
        anom := r.surface.anom
        lstat2 := r.outcome
        status := r.outcome } := by
  subst h
  rfl

theorem exec_drawfol {s : State} {r : LayerRun} (h : layerFol s.env s.folsel s.surface = r) :
    exec .drawfol s = .next
      { s with
        canvas := r.surface.canvas
        anom := r.surface.anom
        lstat3 := r.outcome
        status := r.outcome } := by
  subst h
  rfl

theorem exec_drawbld {s : State} {r : LayerRun} (h : layerBld s.env s.placements s.surface = r) :
    exec .drawbld s = .next
      { s with
        canvas := r.surface.canvas
        anom := r.surface.anom
        lstat4 := r.outcome
        status := r.outcome } := by
  subst h
  rfl

/-! ## Background -/

theorem layerBg_of_none {e : Env} {nbld : Nat} (h : nbld = 0) (bgsel : BitVec 4) (f : Surface) :
    layerBg e nbld bgsel f = { surface := f, outcome := .skipped } := if_pos h

theorem layerBg_of_skip {e : Env} {nbld : Nat} {bgsel : BitVec 4} {cause : Anomaly} (hn : nbld ≠ 0)
    (h : resolveBg e.rom bgsel.toNat = .skip cause) (f : Surface) :
    layerBg e nbld bgsel f = layerSkipped cause f := by
  unfold layerBg
  rw [if_neg hn, h]

theorem layerBg_of_found {e : Env} {nbld : Nat} {bgsel : BitVec 4} {off : Nat} (hn : nbld ≠ 0)
    (h : resolveBg e.rom bgsel.toNat = .found off) (f : Surface) :
    layerBg e nbld bgsel f = layerStream e 3 off f := by
  unfold layerBg
  rw [if_neg hn, h]
  rfl

/-- Settles O43: no buildings, a refused selector, or a stream. -/
theorem drawbgResult : Obligations.DrawbgResult := by
  refine ⟨fun s hn => ?none, fun s cause hn hskip => ?skipped, fun s off hn hfound => ?painted⟩
  case none => exact exec_drawbg (layerBg_of_none hn s.bgsel s.surface)
  case skipped => exact exec_drawbg (layerBg_of_skip hn hskip s.surface)
  case painted =>
    have run := exec_drawbg (layerBg_of_found (e := s.env) hn hfound s.surface)
    simp only [layerStream, raiseIfPartial_eq] at run
    exact run

/-! ## Sky -/

theorem layerSky_of_absent {e : Env} (h : e.rom.len ≤ 0x7613) (f : Surface) :
    layerSky e f = layerSkipped .trunc f := if_pos h

/-- The surface the sky's words leave, before the stream's shortness is flagged. -/
def skySurface (e : Env) (f : Surface) : Surface :=
  paintGrid e 0 0 (((rld e.rom 0x7613).pairs.take 64).map pairWord) f

theorem layerSky_of_short {e : Env} (h : 0x7613 < e.rom.len) (hs : (rld e.rom 0x7613).pairs.length < 64)
    (f : Surface) :
    layerSky e f =
      { surface := { canvas := (skySurface e f).canvas, anom := (skySurface e f).anom ||| 0b0001 }
        outcome := .partialEnd } := by
  have outcome : skyOutcome (rld e.rom Config.skyOff).pairs.length = .partialEnd := if_pos hs
  have present : ¬ e.rom.len ≤ Config.skyOff := Nat.not_le.2 h
  unfold layerSky
  rw [if_neg present]
  simp only [outcome]
  rfl

theorem layerSky_of_whole {e : Env} (h : 0x7613 < e.rom.len)
    (hs : ¬ (rld e.rom 0x7613).pairs.length < 64) (f : Surface) :
    layerSky e f = { surface := skySurface e f, outcome := .ok } := by
  have outcome : skyOutcome (rld e.rom Config.skyOff).pairs.length = .ok := if_neg hs
  have present : ¬ e.rom.len ≤ Config.skyOff := Nat.not_le.2 h
  unfold layerSky
  rw [if_neg present]
  simp only [outcome]
  rfl

/-- Settles O44: the strip is skipped, short, or whole. -/
theorem drawskyResult : Obligations.DrawskyResult := by
  refine ⟨fun s h => exec_drawsky (layerSky_of_absent h s.surface), fun s h => ?_⟩
  intro pairs f
  by_cases hs : pairs.length < 64
  · rw [if_pos hs]
    exact exec_drawsky (layerSky_of_short (e := s.env) h hs s.surface)
  · rw [if_neg hs]
    exact exec_drawsky (layerSky_of_whole (e := s.env) h hs s.surface)

/-! ## Foliage -/

theorem layerFol_of_skip {e : Env} {folsel : Byte} {cause : Anomaly}
    (h : resolveFol e.rom folsel.toNat = .skip cause) (f : Surface) :
    layerFol e folsel f = layerSkipped cause f := by
  unfold layerFol
  rw [h]

theorem layerFol_of_found {e : Env} {folsel : Byte} {off : Nat}
    (h : resolveFol e.rom folsel.toNat = .found off) (f : Surface) :
    layerFol e folsel f =
      if e.rom.len < off + folRows folsel * 64 then layerSkipped .badSel f
      else
        { surface := paintGrid e (folRow0 folsel) 0 (foliageWords e.rom off (folRows folsel * 32)) f
          outcome := .ok } := by
  unfold layerFol
  rw [h]
  rfl

theorem foliageWords_eq (rom : Buffer) (off n : Nat) :
    foliageWords rom off n = (List.range n).map (fun k =>
      BitVec.ofNat 16 ((rom.at (off + 2 * k)).toNat + 256 * (rom.at (off + 2 * k + 1)).toNat)) :=
  List.map_congr_left fun _ _ => pairWord_eq_ofNat _ _

/-- Settles O45: a refused selector, a block that does not fit, or its words. -/
theorem drawfolResult : Obligations.DrawfolResult := by
  refine ⟨fun s cause hskip => exec_drawfol (layerFol_of_skip hskip s.surface), fun s off hfound => ?_⟩
  intro rows row0 ws f
  have run := exec_drawfol (layerFol_of_found (e := s.env) hfound s.surface)
  rw [run]
  by_cases hcut : s.rom.len < off + rows * 64
  · rw [if_pos hcut, if_pos (show s.env.rom.len < off + folRows s.folsel * 64 from hcut)]
    rfl
  · rw [if_neg hcut, if_neg (show ¬ s.env.rom.len < off + folRows s.folsel * 64 from hcut),
      foliageWords_eq]
    rfl

/-! ## Buildings -/

/-- One building of the fold of R217: the surface, and whether any building was skipped so far. -/
def drawStep (e : Env) (acc : Surface × Bool) (p : Placement) : Surface × Bool :=
  ((drawOne e p acc.1).surface, acc.2 || !(drawOne e p acc.1).painted)

theorem drawBuildings_eq_foldl (e : Env) (ps : List Placement) (f : Surface) (n : Nat) (skipped : Bool)
    (hn : skipped = decide (n ≠ 0)) :
    (drawBuildings e ps f n).1 = (ps.foldl (drawStep e) (f, skipped)).1 ∧
      (ps.foldl (drawStep e) (f, skipped)).2 = decide ((drawBuildings e ps f n).2 ≠ 0) := by
  induction ps generalizing f n skipped with
  | nil => exact ⟨rfl, hn⟩
  | cons p ps ih =>
    refine ih _ _ _ ?_
    cases (drawOne e p f).painted <;> simp [hn]

/-- Settles O47: the count of skipped buildings and the flag of the fold agree. -/
theorem drawbldResult : Obligations.DrawbldResult := by
  intro s run
  obtain ⟨hsurface, hskipped⟩ := drawBuildings_eq_foldl s.env s.placements s.surface 0 false rfl
  have layer : layerBld s.env s.placements s.surface =
      { surface := run.1, outcome := if run.2 then .partialEnd else .ok } := by
    have flag : run.2 = decide ((drawBuildings s.env s.placements s.surface 0).2 ≠ 0) := hskipped
    unfold layerBld buildingsOutcome
    rw [flag, hsurface]
    simp only [decide_eq_true_eq, ite_not]
    rfl
  exact exec_drawbld layer

theorem buildingTiles_eq_map (w h : Byte) :
    buildingTiles w h =
      (List.range (w.toNat * h.toNat)).map (fun j => (j / w.toNat, j % w.toNat)) := by
  unfold buildingTiles
  generalize w.toNat = w
  induction h.toNat with
  | zero => rfl
  | succ h ih =>
    have row : (List.range w).map (fun c => (h, c)) =
        (List.range w).map (fun c => ((w * h + c) / w, (w * h + c) % w)) := by
      refine List.map_congr_left fun c hc => ?_
      have hcw : c < w := List.mem_range.1 hc
      rw [Nat.mul_add_div (by omega), Nat.div_eq_of_lt hcw, Nat.mul_add_mod, Nat.mod_eq_of_lt hcw,
        Nat.add_zero]
    rw [List.range_succ, List.flatMap_append, ih, Nat.mul_succ, List.range_add, List.map_append,
      List.map_map, List.flatMap_singleton, row]
    rfl

theorem buildingPal_eq (pc : Byte) : buildingPal pc = 3 - ((pc.toNat / 16 : Nat) : Int) := by
  unfold buildingPal
  rw [BitVec.toNat_ushiftRight, Nat.shiftRight_eq_div_pow]
  rfl

theorem paintTile_eq (e : Env) (off : Nat) (w h m xc pc : Byte) (r c : Nat) (f : Surface) :
    paintTile e off w h m xc pc r c f =
      paint e (awd (tileWord e.rom m off (r * w.toNat + c))).code
        (awd (tileWord e.rom m off (r * w.toNat + c))).xf
        (awd (tileWord e.rom m off (r * w.toNat + c))).yf (3 - ((pc.toNat / 16 : Nat) : Int))
        ((4 * xc.toNat + 8 * c : Nat) : Int) (8 * bldRow e.par h.toNat r) f := by
  rw [← buildingPal_eq, Nat.mul_comm 4, Nat.mul_comm 8, Int.mul_comm 8]
  rfl

/-- Settles O49: the nested order by rows is the order of the index `j`. -/
theorem buildingTilesAreRowMajor : Obligations.BuildingTilesAreRowMajor := by
  intro e off w h m xc pc f
  have index : ∀ j, j / w.toNat * w.toNat + j % w.toNat = j := fun j => Nat.div_add_mod' j _
  unfold paintBuilding
  rw [buildingTiles_eq_map, List.foldl_map]
  simp only [paintTile_eq, index, tileWord_eq_ofNat]

/-! ## Bodies at the building cursor -/

theorem exec_tw8 {s : State} {m : Byte} {r : BuildingRun}
    (h : drawBody s.env s.bld.off m s.bld.x s.bld.palCode s.surface = r) :
    exec (.tw8 m) s = .next
      { s with
        canvas := r.surface.canvas
        anom := r.surface.anom
        bld := { s.bld with painted := r.painted, ended := true } } := by
  subst h
  rfl

theorem exec_tw16 {s : State} {r : BuildingRun}
    (h : drawBody s.env s.bld.off 0xFF s.bld.x s.bld.palCode s.surface = r) :
    exec .tw16 s = .next
      { s with
        canvas := r.surface.canvas
        anom := r.surface.anom
        bld := { s.bld with painted := r.painted, ended := true } } := by
  subst h
  rfl

theorem drawBody_of_fits {e : Env} {off : Nat} {m : Byte}
    (h : off + buildingSize m (e.rom.at off) (e.rom.at (off + 1)) ≤ e.rom.len) (xc pc : Byte)
    (f : Surface) :
    drawBody e off m xc pc f =
      { surface := paintBuilding e off (e.rom.at off) (e.rom.at (off + 1)) m xc pc f
        painted := true } := if_neg (Nat.not_lt.2 h)

theorem drawBody_of_cut {e : Env} {off : Nat} {m : Byte}
    (h : e.rom.len < off + buildingSize m (e.rom.at off) (e.rom.at (off + 1))) (xc pc : Byte)
    (f : Surface) : drawBody e off m xc pc f = buildingSkipped .badSel f := if_pos h

theorem buildingSize_tw8 {m : Byte} (hm : m ≠ 0xFF) (w h : Byte) :
    buildingSize m w h = 3 + w.toNat * h.toNat := by
  rw [buildingSize_eq, if_neg hm]

theorem buildingSize_tw16 (w h : Byte) : buildingSize 0xFF w h = 3 + 2 * w.toNat * h.toNat := rfl

/-- Settles O50: the declared size of either form fits or does not. -/
theorem tileWordForms : Obligations.TileWordForms := by
  refine ⟨?tw8, ?tw16, fun s m hcut hm => ?tw8Cut, fun s hcut => ?tw16Cut⟩
  case tw8 =>
    intro s m w h hfits hm
    have size : s.bld.off + buildingSize m w h ≤ s.rom.len := by
      rwa [buildingSize_tw8 hm, ← Nat.add_assoc]
    exact exec_tw8 (drawBody_of_fits (e := s.env) size _ _ _)
  case tw16 =>
    intro s w h hfits
    have size : s.bld.off + buildingSize 0xFF w h ≤ s.rom.len := by
      rwa [buildingSize_tw16, ← Nat.add_assoc]
    exact exec_tw16 (drawBody_of_fits (e := s.env) size _ _ _)
  case tw8Cut =>
    rw [Nat.add_assoc, ← buildingSize_tw8 hm] at hcut
    exact exec_tw8 (drawBody_of_cut (e := s.env) hcut _ _ _)
  case tw16Cut =>
    rw [Nat.add_assoc, ← buildingSize_tw16] at hcut
    exact exec_tw16 (drawBody_of_cut (e := s.env) hcut _ _ _)

/-! ## Where a layer may write -/

/-- A tile in tile row `r` covers bytes of its eight pixel rows only. -/
theorem tileCovers_rows {px : Int} {r a : Nat} (h : tileCovers px ((r * 8 : Nat) : Int) a) :
    r * 6144 ≤ a ∧ a < (r + 1) * 6144 := by
  obtain ⟨x, y, hx, -, -, -, hlo, hhi, h1, h2⟩ := h
  simp only [pixelAddr, Config.canvasW] at h1 h2
  omega

theorem paintGrid_above {e : Env} {row0 a : Nat} (h : a < row0 * 6144) (ws : List Half) (f : Surface) :
    (paintGrid e row0 0 ws f).canvas.get a = f.canvas.get a := by
  refine paintGrid_get ws 0 (fun j w _ _ _ hcover => ?_) f
  have := tileCovers_rows hcover
  omega

theorem paintGrid_beyond {e : Env} {row0 n a : Nat} {ws : List Half} (hlen : ws.length ≤ 32 * n)
    (h : (row0 + n) * 6144 ≤ a) (f : Surface) :
    (paintGrid e row0 0 ws f).canvas.get a = f.canvas.get a := by
  refine paintGrid_get ws 0 (fun j w hw _ _ hcover => ?_) f
  have := tileCovers_rows hcover
  have hj : j < ws.length := (List.getElem?_eq_some_iff.1 hw).1
  omega

theorem layerStream_get {e : Env} {row0 a : Nat} (h : a < row0 * 6144) (off : Nat) (f : Surface) :
    (layerStream e row0 off f).surface.canvas.get a = f.canvas.get a := paintGrid_above h _ f

theorem layerBg_get {e : Env} {nbld : Nat} {bgsel : BitVec 4} {a : Nat} (h : a < 24 * 768)
    (f : Surface) : (layerBg e nbld bgsel f).surface.canvas.get a = f.canvas.get a := by
  have above : a < Config.bgRow0 * 6144 := by
    simp only [Config.bgRow0]
    omega
  unfold layerBg
  split
  · rfl
  · split
    · rfl
    · exact layerStream_get above _ f

theorem layerSky_get {e : Env} {a : Nat} (h : 16 * 768 ≤ a) (f : Surface) :
    (layerSky e f).surface.canvas.get a = f.canvas.get a := by
  have beyond : (Config.skyRow0 + 2) * 6144 ≤ a := by
    simp only [Config.skyRow0]
    omega
  unfold layerSky
  split
  · rfl
  · refine paintGrid_beyond (n := 2) ?_ beyond f
    rw [List.length_map]
    exact List.length_take_le _ _

theorem layerFol_get {e : Env} {folsel : Byte} {a : Nat}
    (h : a < 208 * 768 ∨ 232 * 768 ≤ a ∨ (4 < folsel.toNat ∧ a < 216 * 768)) (f : Surface) :
    (layerFol e folsel f).surface.canvas.get a = f.canvas.get a := by
  have rows : (folsel.toNat ≤ 4 ∧ folRow0 folsel = 26 ∧ folRows folsel = 3) ∨
      (4 < folsel.toNat ∧ folRow0 folsel = 27 ∧ folRows folsel = 2) := by
    unfold folRow0 folRows
    split
    · exact .inl ⟨by assumption, rfl, rfl⟩
    · exact .inr ⟨Nat.lt_of_not_le (by assumption), rfl, rfl⟩
  unfold layerFol
  split
  · rfl
  · split
    · rfl
    · by_cases habove : a < folRow0 folsel * 6144
      · exact paintGrid_above habove _ f
      · refine paintGrid_beyond (n := folRows folsel) ?_ (by omega) f
        simp only [foliageWords, List.length_map, List.length_range, Config.gridCols]
        omega

theorem layerTer_get {e : Env} {tersel : Byte} {a : Nat} (h : a < 232 * 768) (f : Surface) :
    (layerTer e tersel f).surface.canvas.get a = f.canvas.get a := by
  have above : a < Config.terRow0 * 6144 := by
    simp only [Config.terRow0]
    omega
  unfold layerTer
  split
  · rfl
  · exact layerStream_get above _ f

theorem paintBuilding_get {e : Env} {off : Nat} {w h m xc pc : Byte} {a : Nat}
    (ha : ∀ r c : Nat, r < h.toNat → c < w.toNat →
      ¬ tileCovers ((4 * xc.toNat + 8 * c : Nat) : Int) (8 * bldRow e.par h.toNat r) a) (f : Surface) :
    (paintBuilding e off w h m xc pc f).canvas.get a = f.canvas.get a := by
  refine foldl_keeps (P := fun g => g.canvas.get a = f.canvas.get a) _ (fun g t ht hg => ?_) f rfl
  simp only [buildingTiles, List.mem_flatMap, List.mem_map, List.mem_range] at ht
  obtain ⟨r, hr, c, hc, rfl⟩ := ht
  rw [paintTile_eq]
  exact paint_keeps (squareKeeps_get (ha r c hr hc) _) hg

theorem drawOne_get {e : Env} {p : Placement} {a : Nat}
    (ha : ∀ off r c : Nat, resolveBld e.rom p.id.toNat = .found off → r < (e.rom.at (off + 1)).toNat →
      c < (e.rom.at off).toNat →
      ¬ tileCovers ((4 * p.x.toNat + 8 * c : Nat) : Int)
        (8 * bldRow e.par (e.rom.at (off + 1)).toNat r) a) (f : Surface) :
    (drawOne e p f).surface.canvas.get a = f.canvas.get a := by
  cases hres : resolveBld e.rom p.id.toNat with
  | skip cause =>
    rw [drawOne_of_skip hres]
    rfl
  | found off =>
    by_cases hcut : e.rom.len < off + 3
    · rw [drawOne_of_header_cut hres hcut]
      rfl
    · rw [drawOne_of_header hres (Nat.le_of_not_lt hcut)]
      rcases drawBody_cases e off (e.rom.at (off + 2)) p.x p.pal f with ⟨-, hbody⟩ | ⟨-, hbody⟩
      · rw [hbody]
        rfl
      · rw [hbody]
        exact paintBuilding_get (fun r c => ha off r c hres) f

theorem drawBuildings_get {e : Env} {a : Nat} (ps : List Placement) (f : Surface) (n : Nat)
    (ha : ∀ p ∈ ps, ∀ off r c : Nat, resolveBld e.rom p.id.toNat = .found off →
      r < (e.rom.at (off + 1)).toNat → c < (e.rom.at off).toNat →
      ¬ tileCovers ((4 * p.x.toNat + 8 * c : Nat) : Int)
        (8 * bldRow e.par (e.rom.at (off + 1)).toNat r) a) :
    (drawBuildings e ps f n).1.canvas.get a = f.canvas.get a := by
  induction ps generalizing f n with
  | nil => rfl
  | cons p ps ih =>
    exact (ih _ _ (fun q hq => ha q (List.mem_cons_of_mem _ hq))).trans
      (drawOne_get (ha p (List.mem_cons_self ..)) f)

/-- Settles O51, one layer after another. -/
theorem layersStayInTheirRows : Obligations.LayersStayInTheirRows := by
  refine ⟨fun s => ⟨_, rfl, fun a ha => layerBg_get ha s.surface⟩,
    fun s => ⟨_, rfl, fun a ha => layerSky_get ha s.surface⟩,
    fun s => ⟨_, rfl, fun a ha => layerFol_get ha s.surface⟩,
    fun s => ⟨_, rfl, fun a ha => layerTer_get ha s.surface⟩,
    fun s => ⟨_, rfl, fun a ha => drawBuildings_get s.placements s.surface 0 fun p hp off r c => ?_⟩⟩
  obtain ⟨i, hi, rfl⟩ := List.mem_map.1 hp
  exact ha i off r c (List.mem_range.1 hi)

end Sys2Proof.Machine
end

section
/-! SUPPORT. Compositing a level: the order of its six operations, what a bit of `ANOM` raised before them
changes, and what the result depends on (45_compositor.md R221 to R223; 10_state.md R33). -/

namespace Sys2Proof.Machine

/-! ## `STATUS` is no operand of a layer -/

/-- The state with another `STATUS`. -/
def State.setStatus (s : State) (o : OpOutcome) : State := { s with status := o }

theorem exec_clear_run (s : State) : exec .clear s = .next (s.runClear.setStatus .ok) := rfl

theorem exec_drawbg_run (s : State) (o : OpOutcome) :
    exec .drawbg (s.setStatus o) = .next (s.runBg.setStatus s.runBg.lstat1) := rfl

theorem exec_drawsky_run (s : State) (o : OpOutcome) :
    exec .drawsky (s.setStatus o) = .next (s.runSky.setStatus s.runSky.lstat2) := rfl

theorem exec_drawfol_run (s : State) (o : OpOutcome) :
    exec .drawfol (s.setStatus o) = .next (s.runFol.setStatus s.runFol.lstat3) := rfl

theorem exec_drawbld_run (s : State) (o : OpOutcome) :
    exec .drawbld (s.setStatus o) = .next (s.runBld.setStatus s.runBld.lstat4) := rfl

theorem exec_drawter_run (s : State) (o : OpOutcome) :
    exec .drawter (s.setStatus o) = .next (s.runTer.setStatus s.runTer.lstat5) := rfl

/-- `CLEAR` and the five layers, before `STATUS` is set. -/
def State.runLayers (s : State) : State := s.runClear.runBg.runSky.runFol.runBld.runTer

theorem runAll_eq (s : State) : s.runAll = s.runLayers.setStatus (finalOutcome s.runLayers.anom) := rfl

/-- Settles O52: each operation starts where the one before it ended, but for `STATUS`. -/
theorem composedIsItsSixOperations : Obligations.ComposedIsItsSixOperations := by
  intro s ht
  refine ⟨_, _, _, _, _, _, exec_clear_run _, exec_drawbg_run _ _, exec_drawsky_run _ _,
    exec_drawfol_run _ _, exec_drawbld_run _ _, exec_drawter_run _ _, ?_⟩
  rw [exec_composed_accepted ht, runAll_eq]
  rfl

/-! ## Anomaly bits raised before painting -/

/-- The surface with more bits of `ANOM` set. -/
def Surface.flag (a : BitVec 4) (f : Surface) : Surface := { canvas := f.canvas, anom := f.anom ||| a }

/-- A painter whose result has exactly those more bits set that its argument had. -/
def Flags (a : BitVec 4) (P : Surface → Surface) : Prop := ∀ f, P (f.flag a) = (P f).flag a

section Painters

variable {a : BitVec 4} {e : Env}

theorem raiseBit_or (x : BitVec 4) (c : Anomaly) : raiseBit (x ||| a) c = raiseBit x c ||| a := by
  unfold raiseBit
  rw [BitVec.or_assoc, BitVec.or_comm a, BitVec.or_assoc]

theorem raiseIfPartial_or (x : BitVec 4) (o : OpOutcome) :
    raiseIfPartial (x ||| a) o = raiseIfPartial x o ||| a := by
  cases o
  case partialEnd => exact raiseBit_or x .trunc
  all_goals rfl

theorem flags_raise (c : Anomaly) : Flags a (fun f => f.raise c) := fun f =>
  congrArg (Surface.mk f.canvas) (raiseBit_or f.anom c)

theorem flags_foldl {β : Type} {g : Surface → β → Surface} (l : List β)
    (h : ∀ b, Flags a (fun f => g f b)) : Flags a (fun f => l.foldl g f) := by
  intro f
  induction l generalizing f with
  | nil => rfl
  | cons b l ih =>
    simp only [List.foldl_cons]
    rw [show g (f.flag a) b = (g f b).flag a from h b f]
    exact ih _

theorem flags_paintPixel {code : BitVec 11} {xf yf : BitVec 1} {pal px py : Int} (tx ty : Nat) :
    Flags a (paintPixel e code xf yf pal px py tx ty) := by
  intro f
  unfold paintPixel
  simp only
  split
  · split
    · rfl
    · split
      · rfl
      · exact congrArg (Surface.mk _) (raiseBit_or f.anom .badPal)
  · rfl

theorem flags_paint {code : BitVec 11} {xf yf : BitVec 1} {pal px py : Int} :
    Flags a (paint e code xf yf pal px py) := by
  intro f
  unfold paint
  split
  · exact flags_raise .badTile f
  · exact flags_foldl tilePixels (fun t => flags_paintPixel t.1 t.2) f

theorem flags_paintCell {row0 k : Nat} {w : Half} : Flags a (paintCell e row0 k w) := by
  intro f
  by_cases hrow : row0 + k / 32 < 30
  · rw [paintCell_of_row hrow, paintCell_of_row hrow]
    exact flags_paint f
  · rw [paintCell_below hrow, paintCell_below hrow]

theorem flags_paintGrid {row0 : Nat} (ws : List Half) (k : Nat) : Flags a (paintGrid e row0 k ws) := by
  intro f
  induction ws generalizing k f with
  | nil => rfl
  | cons w ws ih =>
    simp only [paintGrid]
    rw [flags_paintCell f]
    exact ih _ _

/-- The same for a layer: its outcome does not depend on the bits. -/
def LayerFlags (a : BitVec 4) (L : Surface → LayerRun) : Prop :=
  ∀ f, L (f.flag a) = { surface := (L f).surface.flag a, outcome := (L f).outcome }

theorem flags_layerSkipped (cause : Anomaly) : LayerFlags a (layerSkipped cause) := fun f =>
  congrArg (fun g => LayerRun.mk g .skipped) (flags_raise cause f)

theorem flags_layerStream {row0 off : Nat} : LayerFlags a (layerStream e row0 off) := by
  intro f
  simp only [layerStream, flags_paintGrid _ _ f]
  simp only [Surface.flag, raiseIfPartial_or]

theorem flags_layerBg {nbld : Nat} {bgsel : BitVec 4} : LayerFlags a (layerBg e nbld bgsel) := by
  intro f
  unfold layerBg
  split
  · rfl
  · split
    · exact flags_layerSkipped _ f
    · exact flags_layerStream f

theorem flags_layerSky : LayerFlags a (layerSky e) := by
  intro f
  unfold layerSky
  split
  · exact flags_layerSkipped _ f
  · simp only [flags_paintGrid _ _ f]
    simp only [Surface.flag, raiseIfPartial_or]

theorem flags_layerFol {folsel : Byte} : LayerFlags a (layerFol e folsel) := by
  intro f
  unfold layerFol
  split
  · exact flags_layerSkipped _ f
  · split
    · exact flags_layerSkipped _ f
    · exact congrArg (fun g => LayerRun.mk g .ok) (flags_paintGrid _ _ f)

theorem flags_drawBody {off : Nat} {m xc pc : Byte} (f : Surface) :
    drawBody e off m xc pc (f.flag a) =
      { surface := (drawBody e off m xc pc f).surface.flag a
        painted := (drawBody e off m xc pc f).painted } := by
  unfold drawBody
  split
  · exact congrArg (fun g => BuildingRun.mk g false) (flags_raise .badSel f)
  · exact congrArg (fun g => BuildingRun.mk g true)
      (flags_foldl _ (fun _ => flags_paint) f)

theorem flags_drawOne {p : Placement} (f : Surface) :
    drawOne e p (f.flag a) =
      { surface := (drawOne e p f).surface.flag a, painted := (drawOne e p f).painted } := by
  unfold drawOne
  split
  · exact congrArg (fun g => BuildingRun.mk g false) (flags_raise _ f)
  · split
    · exact congrArg (fun g => BuildingRun.mk g false) (flags_raise .badSel f)
    · exact flags_drawBody f

theorem flags_drawBuildings (ps : List Placement) (f : Surface) (n : Nat) :
    drawBuildings e ps (f.flag a) n =
      ((drawBuildings e ps f n).1.flag a, (drawBuildings e ps f n).2) := by
  induction ps generalizing f n with
  | nil => rfl
  | cons p ps ih =>
    simp only [drawBuildings, flags_drawOne]
    exact ih _ _

theorem flags_layerBld {ps : List Placement} : LayerFlags a (layerBld e ps) := by
  intro f
  simp only [layerBld, flags_drawBuildings]

theorem flags_layerTer {tersel : Byte} : LayerFlags a (layerTer e tersel) := by
  intro f
  unfold layerTer
  split
  · exact flags_layerSkipped _ f
  · exact flags_layerStream f

end Painters

/-- The state with more bits of `ANOM` set. -/
def State.flag (a : BitVec 4) (s : State) : State := { s with anom := s.anom ||| a }

section Layers

variable {a : BitVec 4}

theorem runClear_flag (s : State) : (s.flag a).runClear = s.runClear.flag a := rfl

theorem runBg_flag (s : State) : (s.flag a).runBg = s.runBg.flag a :=
  congrArg (fun r : LayerRun => { s.withSurface r.surface with lstat1 := r.outcome })
    (flags_layerBg s.surface)

theorem runSky_flag (s : State) : (s.flag a).runSky = s.runSky.flag a :=
  congrArg (fun r : LayerRun => { s.withSurface r.surface with lstat2 := r.outcome })
    (flags_layerSky s.surface)

theorem runFol_flag (s : State) : (s.flag a).runFol = s.runFol.flag a :=
  congrArg (fun r : LayerRun => { s.withSurface r.surface with lstat3 := r.outcome })
    (flags_layerFol s.surface)

theorem runBld_flag (s : State) : (s.flag a).runBld = s.runBld.flag a :=
  congrArg (fun r : LayerRun => { s.withSurface r.surface with lstat4 := r.outcome })
    (flags_layerBld s.surface)

theorem runTer_flag (s : State) : (s.flag a).runTer = s.runTer.flag a :=
  congrArg (fun r : LayerRun => { s.withSurface r.surface with lstat5 := r.outcome })
    (flags_layerTer s.surface)

theorem runLayers_flag (s : State) : (s.flag a).runLayers = s.runLayers.flag a := by
  unfold State.runLayers
  rw [runClear_flag, runBg_flag, runSky_flag, runFol_flag, runBld_flag, runTer_flag]

end Layers

theorem runClear_setStatus (s : State) (o : OpOutcome) :
    (s.setStatus o).runClear = s.runClear.setStatus o := rfl
theorem runBg_setStatus (s : State) (o : OpOutcome) :
    (s.setStatus o).runBg = s.runBg.setStatus o := rfl
theorem runSky_setStatus (s : State) (o : OpOutcome) :
    (s.setStatus o).runSky = s.runSky.setStatus o := rfl
theorem runFol_setStatus (s : State) (o : OpOutcome) :
    (s.setStatus o).runFol = s.runFol.setStatus o := rfl
theorem runBld_setStatus (s : State) (o : OpOutcome) :
    (s.setStatus o).runBld = s.runBld.setStatus o := rfl
theorem runTer_setStatus (s : State) (o : OpOutcome) :
    (s.setStatus o).runTer = s.runTer.setStatus o := rfl

theorem runAll_setStatus (s : State) (o : OpOutcome) : (s.setStatus o).runAll = s.runAll := by
  have layers : (s.setStatus o).runLayers = s.runLayers.setStatus o := by
    unfold State.runLayers
    rw [runClear_setStatus, runBg_setStatus, runSky_setStatus, runFol_setStatus, runBld_setStatus,
      runTer_setStatus]
  rw [runAll_eq, runAll_eq, layers]
  rfl

/-- A bit raised before compositing stays, and makes the outcome `PARTIAL`. -/
theorem runAll_flag_trunc (s : State) :
    (s.flag 0b0001).runAll =
      { s.runAll with anom := s.runAll.anom ||| 0b0001, status := .partialEnd } := by
  have flagged : ∀ x : BitVec 4, finalOutcome (x ||| 0b0001) = .partialEnd := by decide
  have status : finalOutcome (s.runLayers.flag 0b0001).anom = .partialEnd := flagged _
  rw [runAll_eq, runAll_eq, runLayers_flag, status]
  rfl

theorem loadLevel_of_zero (s : State) (dec : List Byte → LevelFields) (n : Nat) :
    State.loadLevel { s with anom := 0 } dec n =
      { s.loadLevel dec n with anom := raiseIfPartial 0 (levelOutcome s.rom dec n) } := rfl

/-- Settles O53: the one difference is the bit of a cut list, which `COMPOSED` clears. -/
theorem composeIsLdlvlThenComposed : Obligations.ComposeIsLdlvlThenComposed := by
  intro s h ht
  refine ⟨_, _, exec_ldlvl_accepted h, exec_composed_accepted ht, ?_⟩
  rw [exec_compose_accepted h ht, loadLevel_of_zero]
  have composed : ∀ o, State.runAll
      { State.setStatus (s.loadLevel levelEntryDecode s.lvl.toNat) o with anom := 0 } =
        State.runAll { s.loadLevel levelEntryDecode s.lvl.toNat with anom := 0 } :=
    runAll_setStatus { s.loadLevel levelEntryDecode s.lvl.toNat with anom := 0 }
  rcases readList_outcome s.rom (levelEntryDecode (levelEntry s.rom s.lvl.toNat)).ptr.toNat with ho | ho
  · have whole : levelOutcome s.rom levelEntryDecode s.lvl.toNat = .ok := ho
    have differ : OpOutcome.ok ≠ .partialEnd := by decide
    rw [whole, if_neg differ]
    exact congrArg Host.Outcome.next (composed .ok).symm
  · have cut : levelOutcome s.rom levelEntryDecode s.lvl.toNat = .partialEnd := ho
    rw [cut, if_pos rfl]
    refine congrArg Host.Outcome.next ?_
    have flagged := runAll_flag_trunc { s.loadLevel levelEntryDecode s.lvl.toNat with anom := 0 }
    rw [← composed .partialEnd] at flagged
    exact flagged

/-! ## What compositing depends on -/

/-- Two states that agree on all that the layers read, and on the canvas and `ANOM`. -/
structure SameScene (s s' : State) : Prop where
  env : s.env = s'.env
  nbld : s.nbld = s'.nbld
  bgsel : s.bgsel = s'.bgsel
  tersel : s.tersel = s'.tersel
  folsel : s.folsel = s'.folsel
  placements : s.placements = s'.placements
  surface : s.surface = s'.surface

namespace SameScene

variable {s s' : State}

theorem layerBg (h : SameScene s s') :
    Machine.layerBg s.env s.nbld s.bgsel s.surface = Machine.layerBg s'.env s'.nbld s'.bgsel s'.surface := by
  rw [h.env, h.nbld, h.bgsel, h.surface]

theorem layerSky (h : SameScene s s') :
    Machine.layerSky s.env s.surface = Machine.layerSky s'.env s'.surface := by
  rw [h.env, h.surface]

theorem layerFol (h : SameScene s s') :
    Machine.layerFol s.env s.folsel s.surface = Machine.layerFol s'.env s'.folsel s'.surface := by
  rw [h.env, h.folsel, h.surface]

theorem layerBld (h : SameScene s s') :
    Machine.layerBld s.env s.placements s.surface = Machine.layerBld s'.env s'.placements s'.surface := by
  rw [h.env, h.placements, h.surface]

theorem layerTer (h : SameScene s s') :
    Machine.layerTer s.env s.tersel s.surface = Machine.layerTer s'.env s'.tersel s'.surface := by
  rw [h.env, h.tersel, h.surface]

theorem runBg (h : SameScene s s') : SameScene s.runBg s'.runBg :=
  { h with surface := congrArg LayerRun.surface h.layerBg }

theorem runSky (h : SameScene s s') : SameScene s.runSky s'.runSky :=
  { h with surface := congrArg LayerRun.surface h.layerSky }

theorem runFol (h : SameScene s s') : SameScene s.runFol s'.runFol :=
  { h with surface := congrArg LayerRun.surface h.layerFol }

theorem runBld (h : SameScene s s') : SameScene s.runBld s'.runBld :=
  { h with surface := congrArg LayerRun.surface h.layerBld }

theorem runTer (h : SameScene s s') : SameScene s.runTer s'.runTer :=
  { h with surface := congrArg LayerRun.surface h.layerTer }

/-- The canvas as it was does not matter: the first operation clears it. -/
theorem runClear (henv : s.env = s'.env) (hn : s.nbld = s'.nbld) (hbg : s.bgsel = s'.bgsel)
    (hter : s.tersel = s'.tersel) (hfol : s.folsel = s'.folsel)
    (hps : s.placements = s'.placements) (hanom : s.anom = s'.anom) :
    SameScene s.runClear s'.runClear where
  env := henv
  nbld := hn
  bgsel := hbg
  tersel := hter
  folsel := hfol
  placements := hps
  surface := by
    have hpar : s.par = s'.par := congrArg Env.par henv
    have clear : ∀ u : State, u.runClear.surface =
        { canvas := Canvas.filled u.par.canvasInit, anom := u.anom } := fun _ => rfl
    rw [clear, clear, hpar, hanom]

/-- Two states with the same scene once cleared end compositing alike. -/
theorem runAll (h : SameScene s.runClear s'.runClear) :
    s.runAll.canvas = s'.runAll.canvas ∧ s.runAll.anom = s'.runAll.anom ∧
      s.runAll.status = s'.runAll.status ∧ s.runAll.lstat1 = s'.runAll.lstat1 ∧
      s.runAll.lstat2 = s'.runAll.lstat2 ∧ s.runAll.lstat3 = s'.runAll.lstat3 ∧
      s.runAll.lstat4 = s'.runAll.lstat4 ∧ s.runAll.lstat5 = s'.runAll.lstat5 := by
  have bg := h.runBg
  have sky := bg.runSky
  have fol := sky.runFol
  have bld := fol.runBld
  have surface : s.runLayers.surface = s'.runLayers.surface := bld.runTer.surface
  have anom : s.runLayers.anom = s'.runLayers.anom := congrArg Surface.anom surface
  exact ⟨congrArg Surface.canvas surface, anom, congrArg finalOutcome anom,
    congrArg LayerRun.outcome h.layerBg, congrArg LayerRun.outcome bg.layerSky,
    congrArg LayerRun.outcome sky.layerFol, congrArg LayerRun.outcome fol.layerBld,
    congrArg LayerRun.outcome bld.layerTer⟩

end SameScene

/-- The triples after a level is read are its list's, in whatever era. -/
theorem loadLevel_placements (s : State) (dec : List Byte → LevelFields) (n : Nat) :
    (s.loadLevel dec n).placements = (readList s.rom (dec (levelEntry s.rom n)).ptr.toNat).list :=
  placements_blistCells _ _

/-- Settles O54: reading the level makes the scenes equal, whatever else the states hold. -/
theorem composeDependsOnlyOnItsInputs : Obligations.ComposeDependsOnlyOnItsInputs := by
  intro s s' hrom htile hpal hpar hlvl hlevel hbank
  have hlevel' : s'.lvl.toNat < totalLevels s'.rom := by rwa [← hrom, ← hlvl]
  have hbank' : 32 ≤ s'.tile.len := by rwa [← htile]
  have henv : s.env = s'.env := by
    unfold State.env
    rw [hrom, htile, hpal, hpar]
  have scene : SameScene (State.loadLevel { s with anom := 0 } levelEntryDecode s.lvl.toNat).runClear
      (State.loadLevel { s' with anom := 0 } levelEntryDecode s'.lvl.toNat).runClear := by
    refine SameScene.runClear henv ?_ ?_ ?_ ?_ ?_ ?_
    case refine_5 => simp only [loadLevel_placements, hrom, hlvl]
    all_goals simp [hrom, hlvl]
  obtain ⟨hcanvas, hanom, hstatus, h1, h2, h3, h4, h5⟩ := scene.runAll
  refine ⟨_, _, exec_compose_accepted hlevel hbank, exec_compose_accepted hlevel' hbank', hcanvas, hanom,
    hstatus, h1, h2, h3, h4, h5, ?_, ?_, ?_, ?_, ?_, ?_⟩
  all_goals simp [hrom, hlvl]

end Sys2Proof.Machine
end

section
/-! SUPPORT. The host's accesses: which register a number names, what a write changes and a read answers
(10_state.md R20 to R34, R43 to R45; 20_memory.md R64; 70_reset_and_hazards.md R282). -/

namespace Sys2Proof.Machine

/-! ## Register numbers -/

theorem mem_regTable_of_regOf {n : Nat} {r : Reg} (h : regOf n = some r) : (n, r) ∈ regTable := by
  obtain ⟨e, he, rfl⟩ := Option.map_eq_some_iff.1 h
  have hn : e.1 = n := by simpa using List.find?_some he
  exact hn ▸ List.mem_of_find?_eq_some he

/-- No register has two numbers. -/
theorem regOf_injective {n m : Nat} {r : Reg} (hn : regOf n = some r) (hm : regOf m = some r) : n = m := by
  have distinct : ∀ e ∈ regTable, ∀ e' ∈ regTable, e.2 = e'.2 → e.1 = e'.1 := by decide +kernel
  exact distinct _ (mem_regTable_of_regOf hn) _ (mem_regTable_of_regOf hm) rfl

/-- The registers marked R/W (10_state.md R21, R29, R31), `OP` aside. -/
def writableRegs : List Reg :=
  [.anom, .word, .code, .xf, .yf, .pali, .tx, .ty, .px, .py, .cur, .sel, .lvl, .bgsel, .tersel, .folsel,
    .blptr, .nbld]

theorem writeReg_of_readOnly {r : Reg} (h : r ∉ writableRegs) (s : State) (v : Nat) :
    writeReg s v r = s := by
  cases r
  case anom | word | code | xf | yf | pali | tx | ty | px | py | cur | sel | lvl | bgsel | tersel | folsel |
      blptr | nbld => exact absurd (by decide) h
  all_goals rfl

/-- Register by register: what is read is either another field or the register written. -/
theorem readReg_writeReg_other {r r' : Reg} (h : r' ≠ r) (s : State) (v : Nat) :
    readReg (writeReg s v r) r' = readReg s r' := by
  by_cases hw : r ∈ writableRegs
  · cases r
    case anom | word | code | xf | yf | pali | tx | ty | px | py | cur | sel | lvl | bgsel | tersel |
        folsel | blptr | nbld =>
      cases r' <;> first | rfl | exact absurd rfl h
    all_goals rfl
  · rw [writeReg_of_readOnly hw]

/-- A write to a number leaves what every other number reads. -/
theorem readNumber_writeNumber_other {n m : Nat} (h : m ≠ n) (s : State) (v : Nat) :
    readNumber (writeNumber s n v) m = readNumber s m := by
  unfold writeNumber
  cases hn : regOf n with
  | none => rfl
  | some r =>
    unfold readNumber
    cases hm : regOf m with
    | none => rfl
    | some r' =>
      refine readReg_writeReg_other (fun hr => h ?_) s v
      exact regOf_injective hm (hr ▸ hn)

theorem writeNumber_of_readOnly {n : Nat} (h : ∀ r, (n, r) ∈ regTable → r ∉ writableRegs) (s : State)
    (v : Nat) : writeNumber s n v = s := by
  unfold writeNumber
  cases hn : regOf n with
  | none => rfl
  | some r => exact writeReg_of_readOnly (h r (mem_regTable_of_regOf hn)) s v

/-! ## The queue and the latch are no register -/

theorem readNumber_port (s : State) (b : List HostAccess) (d : Int) (n : Nat) :
    readNumber { s with bus := b, hostData := d } n = readNumber s n := by
  unfold readNumber
  cases regOf n with
  | none => rfl
  | some r => cases r <;> rfl

theorem writeNumber_bus (s : State) (b : List HostAccess) (n v : Nat) :
    writeNumber { s with bus := b } n v = { writeNumber s n v with bus := b } := by
  unfold writeNumber
  cases regOf n with
  | none => rfl
  | some r => cases r <;> rfl

theorem writeNumber_site (s : State) (n v : Nat) : (writeNumber s n v).site = s.site := by
  unfold writeNumber
  cases regOf n with
  | none => rfl
  | some r => cases r <;> rfl

theorem step_write {s : State} {n v : Nat} {rest : List HostAccess} (hs : s.site = .command)
    (hb : s.bus = .write n v :: rest) (hn : n ≠ 0) :
    step s = .next { writeNumber s n v with bus := rest } := by
  rw [step_serve hs hb (by rintro v' h; injection h with h0; exact hn h0), ← writeNumber_bus]
  rfl

theorem step_read {s : State} {n : Nat} {rest : List HostAccess} (hs : s.site = .command)
    (hb : s.bus = .read n :: rest) :
    step s = .next { s with bus := rest, hostData := readNumber s n } := by
  rw [step_serve hs hb (fun _ h => nomatch h), ← readNumber_port s rest s.hostData n]
  rfl

/-! ## Reading back a register -/

/-- A write and a read of the same number answer what the register then reads. -/
theorem run_write_read {s : State} {n v : Nat} {rest : List HostAccess} (hs : s.site = .command)
    (hb : s.bus = .write n v :: .read n :: rest) (hn : n ≠ 0) :
    ∃ t, Sys2Proof.core.run 2 s = .next t ∧ t.bus = rest ∧
      t.hostData = readNumber (writeNumber s n v) n := by
  have hsite : ({ writeNumber s n v with bus := .read n :: rest } : State).site = .command :=
    (writeNumber_site s n v).trans hs
  refine ⟨_, run_two (step_write hs hb hn) (step_read hsite rfl), rfl, ?_⟩
  exact readNumber_port (writeNumber s n v) (.read n :: rest) (writeNumber s n v).hostData n

theorem bitLength_le_iff {n w : Nat} : bitLength n ≤ w ↔ n < 2 ^ w := by
  unfold bitLength
  split
  · rename_i h0
    simp [h0]
  · rename_i h0
    exact Nat.log2_lt h0

/-- `ADDR_W` is the least width of at least 18 bits that holds the ROM's length. -/
theorem addrW_eq {rom : Buffer} {w : Nat} (hw : 18 ≤ w) (hlt : rom.len < 2 ^ w)
    (hleast : w = 18 ∨ 2 ^ (w - 1) ≤ rom.len) : addrW rom = w := by
  have hle : bitLength rom.len ≤ w := bitLength_le_iff.2 hlt
  unfold addrW
  rcases hleast with rfl | hge
  · exact Nat.max_eq_left hle
  · have : ¬ bitLength rom.len ≤ w - 1 := fun h => Nat.not_lt.2 hge (bitLength_le_iff.1 h)
    omega

/-- Sign extension of the low `w` bits. -/
theorem toInt_ofNat_eq {w : Nat} (hw : 0 < w) (v : Nat) :
    (BitVec.ofNat w v).toInt =
      if v % 2 ^ w < 2 ^ (w - 1) then ((v % 2 ^ w : Nat) : Int)
      else ((v % 2 ^ w : Nat) : Int) - ((2 ^ w : Nat) : Int) := by
  have double : 2 ^ w = 2 * 2 ^ (w - 1) := by
    rw [← Nat.pow_succ', Nat.succ_eq_add_one, Nat.sub_add_cancel hw]
  have half : 2 * (v % 2 ^ w) < 2 ^ w ↔ v % 2 ^ w < 2 ^ (w - 1) := by omega
  rw [BitVec.toInt_eq_toNat_cond, BitVec.toNat_ofNat]
  exact if_congr half rfl rfl

/-- Settles O56: each register of the lists, by its number. -/
theorem hostReadsBackWhatItWrote : Obligations.HostReadsBackWhatItWrote := by
  intro s n v rest hs hb w
  have answer : ∀ {d : Int}, n ≠ 0 → readNumber (writeNumber s n v) n = d →
      ∃ t, Sys2Proof.core.run 2 s = .next t ∧ t.bus = rest ∧ t.hostData = d :=
    fun hn hd => hd ▸ run_write_read hs hb hn
  refine ⟨?unsigned, fun h => ?signed, fun h => ?nbld⟩
  case unsigned =>
    rintro (h | ⟨rfl, hw, hlt, hleast⟩)
    · simp only [List.mem_cons, List.not_mem_nil, or_false, Prod.mk.injEq] at h
      rcases h with ⟨rfl, rfl⟩ | ⟨rfl, rfl⟩ | ⟨rfl, rfl⟩ | ⟨rfl, rfl⟩ | ⟨rfl, rfl⟩ | ⟨rfl, rfl⟩ |
        ⟨rfl, rfl⟩ | ⟨rfl, rfl⟩ | ⟨rfl, rfl⟩ | ⟨rfl, rfl⟩ | ⟨rfl, rfl⟩ | ⟨rfl, rfl⟩ | ⟨rfl, rfl⟩
      all_goals exact answer (by decide) rfl
    · refine answer (by decide) ?_
      rw [← addrW_eq hw hlt hleast]
      rfl
  case signed =>
    simp only [List.mem_cons, List.not_mem_nil, or_false, Prod.mk.injEq] at h
    rcases h with ⟨rfl, rfl⟩ | ⟨rfl, rfl⟩ | ⟨rfl, rfl⟩
    all_goals exact answer (by decide) (toInt_ofNat_eq (by decide) v)
  case nbld =>
    subst h
    exact answer (by decide) rfl

/-- Settles O57: one register is written, and its number is its only one. -/
theorem hostWriteTouchesOneRegister : Obligations.HostWriteTouchesOneRegister := by
  intro s n m v rest hn hm hs hb
  obtain ⟨hrom, htile, hpal, hcanvas, hews, hblist, -, -⟩ := writeNumber_frame s n v
  refine ⟨_, step_write hs hb hn, ?_, hrom, htile, hpal, hcanvas, hews, hblist, rfl⟩
  exact (readNumber_port (writeNumber s n v) rest _ m).trans (readNumber_writeNumber_other hm s v)

/-- Settles O58: the table of numbers, register by register. -/
theorem constantsAndIgnoredWrites : Obligations.ConstantsAndIgnoredWrites := by
  refine ⟨fun s n rest => step_read, fun s => ⟨rfl, rfl, rfl, rfl⟩, rfl, rfl, fun s => rfl,
    fun s n v rest hs hb hn => ?ignored, fun s n hn => ?zero⟩
  case ignored =>
    have readOnly : ∀ e ∈ regTable, ((1 ≤ e.1 ∧ e.1 ≤ 2) ∨ (4 ≤ e.1 ∧ e.1 < 0x10) ∨ e.1 = 0x15 ∨
        e.1 = 0x18 ∨ (0x1A < e.1 ∧ e.1 < 0x20) ∨ (0x21 ≤ e.1 ∧ e.1 < 0x28) ∨
        (0x29 ≤ e.1 ∧ e.1 < 0x30) ∨ 0x36 ≤ e.1) → e.2 ∉ writableRegs := by decide +kernel
    rw [step_write hs hb (by omega), writeNumber_of_readOnly (fun r hr => readOnly (n, r) hr hn)]
  case zero =>
    have onlyOp : ∀ e ∈ regTable, (e.1 = 0 ∨ (9 ≤ e.1 ∧ e.1 < 0x10) ∨ e.1 = 0x15 ∨
        (0x1A < e.1 ∧ e.1 < 0x20) ∨ (0x24 ≤ e.1 ∧ e.1 < 0x28) ∨ (0x2A ≤ e.1 ∧ e.1 < 0x30) ∨
        (0x36 ≤ e.1 ∧ e.1 < 0x40) ∨ 0x54 ≤ e.1) → e.2 = .op := by decide +kernel
    unfold readNumber
    cases hr : regOf n with
    | none => rfl
    | some r =>
      obtain rfl : r = .op := onlyOp (n, r) (mem_regTable_of_regOf hr) hn
      rfl

/-! ## The spaces -/

theorem blistByte_put_self {cells : List Host.Cell} (h : blistWf cells = true) (a d : Nat) (b : Byte) :
    blistByte (cellsPut none a b cells) d a = b := by
  unfold blistByte
  rw [cellsGet_put_self h]
  rfl

theorem blistByte_put_other {cells : List Host.Cell} {a a' : Nat} (h : a' ≠ a) (d : Nat) (b : Byte) :
    blistByte (cellsPut none a b cells) d a' = blistByte cells d a' := by
  unfold blistByte
  rw [cellsGet_put_other h.symm]

theorem ofBytes_read (bytes : List Byte) (i : Nat) : (Buffer.ofBytes bytes).read i = bytes[i]? := by
  by_cases h : i < bytes.length
  · have hread : (Buffer.ofBytes bytes).read i = some ((Buffer.ofBytes bytes).at i) := if_pos h
    rw [hread, buffer_at_ofBytes, List.getD_eq_getElem?_getD, List.getElem?_eq_getElem h]
    rfl
  · have hread : (Buffer.ofBytes bytes).read i = none := if_neg h
    rw [hread, List.getElem?_eq_none (Nat.le_of_not_lt h)]

/-- Settles O59: a byte of `BLIST` in two steps, a memory in one. -/
theorem blistReadsBackWhatWasWritten : Obligations.BlistReadsBackWhatWasWritten := by
  refine ⟨fun s a b rest hwf hs hb => ?blist, fun s bytes rest hs => ⟨fun hb => ?rom, fun hb => ?tile,
    fun hb => ?pal⟩⟩
  case blist =>
    have written : step s =
        .next { s with bus := .readBlist a :: rest, blist := cellsPut none a b s.blist } :=
      step_serve hs hb (fun _ h => nomatch h)
    refine ⟨_, run_two written (step_serve hs rfl (fun _ h => nomatch h)), ?_,
      fun a' d ha => blistByte_put_other ha d b⟩
    simp only [serveAccess, State.answer, blistByte_put_self hwf]
    rfl
  case rom | tile | pal =>
    exact ⟨_, step_serve hs hb (fun _ h => nomatch h), rfl, rfl, ofBytes_read bytes⟩

theorem canvas_get_of_pixel {c : Canvas} {x y : Nat} {col : Colour} (h : c.pixel x y = some col) :
    c.get (pixelAddr x y) = some col.r ∧ c.get (pixelAddr x y + 1) = some col.g ∧
      c.get (pixelAddr x y + 2) = some col.b := by
  unfold Canvas.pixel at h
  split at h
  · rename_i r g b hr hg hb
    obtain rfl := Option.some.inj h
    exact ⟨hr, hg, hb⟩
  · cases h

theorem canvasByte_of_get {s : State} {a : Nat} {v : Byte} (ha : a < canvasBytes)
    (h : s.canvas.get a = some v) : canvasByte s a = v := by
  unfold canvasByte
  rw [if_pos ha, h]
  rfl

theorem step_readCanvas {s : State} {a : Nat} {v : Byte} {rest : List HostAccess}
    (ha : a < canvasBytes) (h : s.canvas.get a = some v) (hs : s.site = .command)
    (hb : s.bus = .readCanvas a :: rest) : ∃ t, step s = .next t ∧ t.hostData = v.toNat := by
  refine ⟨_, step_serve hs hb (fun _ h => nomatch h), ?_⟩
  have byte : canvasByte { s with bus := rest } a = v := canvasByte_of_get ha h
  simp only [serveAccess, State.answer, byte]

/-- A read answers a value that neither the queue nor the latch decides, and changes nothing else. -/
theorem serveAccess_read {a : HostAccess} (ha : (∃ n, a = .read n) ∨ (∃ k, a = .readEws k) ∨
    (∃ k, a = .readBlist k) ∨ (∃ k, a = .readCanvas k)) (s : State) :
    ∃ v, ∀ (b : List HostAccess) (d : Int),
      serveAccess { s with bus := b, hostData := d } a = { s with bus := b, hostData := v } := by
  rcases ha with ⟨n, rfl⟩ | ⟨k, rfl⟩ | ⟨k, rfl⟩ | ⟨k, rfl⟩
  · refine ⟨readNumber s n, fun b d => ?_⟩
    simp only [serveAccess, readNumber_port, State.answer]
  · exact ⟨(ewsWord s k).toNat, fun _ _ => rfl⟩
  · exact ⟨(blistByte s.blist s.blistEra k).toNat, fun _ _ => rfl⟩
  · exact ⟨(canvasByte s k).toNat, fun _ _ => rfl⟩

/-- Settles O60: the canvas by components, the stream by words, and any read twice. -/
theorem hostReadsCanvasAndWordStream : Obligations.HostReadsCanvasAndWordStream := by
  refine ⟨fun s x y col rest hx hy hpixel hs => ?canvas, fun s k p rest hp hs hb => ?stream,
    fun s a rest hs hb ha => ?twice⟩
  case canvas =>
    obtain ⟨hr, hg, hblue⟩ := canvas_get_of_pixel hpixel
    have inside : (y * 256 + x) * 3 + 2 < canvasBytes := pixelAddr_lt hx hy
    exact ⟨step_readCanvas (by omega) hr hs, step_readCanvas (by omega) hg hs,
      step_readCanvas inside hblue hs⟩
  case stream =>
    refine ⟨_, step_serve hs hb (fun _ h => nomatch h), ?_⟩
    have word : ewsWord { s with bus := rest } k = pairWord p := by
      unfold ewsWord
      rw [hp]
      rfl
    simp only [serveAccess, State.answer, word]
    exact congrArg Nat.cast (append_toNat p.lo p.hi)
  case twice =>
    have noOp : ∀ v, a ≠ .write 0 v := by
      rintro v rfl
      simp at ha
    obtain ⟨v, hv⟩ := serveAccess_read ha s
    have first : step s = .next { s with bus := a :: rest, hostData := v } :=
      (step_serve hs hb noOp).trans (congrArg Host.Outcome.next (hv (a :: rest) s.hostData))
    refine ⟨_, first, rfl, ?_⟩
    have second : step { s with bus := a :: rest, hostData := v } = _ := step_serve hs rfl noOp
    exact second.trans (congrArg Host.Outcome.next (hv rest v))

end Sys2Proof.Machine
end
